-- ==== Sys2Proof/Word.lean ====
section
/-! DEFINITION. The words of the machine: a byte of memory and a 32-bit register or address word
(00_scope.md R6, R8: ADDR_W = 32). -/

namespace Sys2Proof

/-- One byte of memory or of a compressed stream (20_memory.md R51). -/
abbrev Byte := BitVec 8

/-- One register of the window, one bus word, one memory address (10_state.md R22, 20_memory.md R50). -/
abbrev Word := BitVec 32

/-- The number of memory addresses, 2^32 (20_memory.md R50). -/
def addressCount : Nat := 4294967296

end Sys2Proof
end

