-- ==== Sys2Proof/Config.lean ====
section
/-! DEFINITION. What the platform fixes (00_scope.md R6: the entries marked *parameter*) as plain data,
and the free values: uninterpreted constants with no body, one draw of which stands for a value the
spec leaves unspecified (93_implementation_defined.md, treatment "any value"). -/

namespace Sys2Proof

/-- A region of memory: `len` bytes from `start`, both exact integers (20_memory.md R58). -/
structure Region where
  start : Nat
  len : Nat
deriving DecidableEq, Repr

/-- Which hash-update functions the block has (41_predictor.md R140): the reference instantiation, or any
other four functions with the properties of R140, about which nothing is known. -/
inductive HashFunctions where
  /-- The reference instantiation "which this hardware uses" (R140). -/
  | reference
  /-- The open parameter (93 I1): the uninterpreted functions of `Config`, cut to the range R140(b) asks for. -/
  | custom
deriving DecidableEq, Repr

/-- How the irq line reaches a processor (parameter IRQ_ROUTE, 60_exceptions.md R203). -/
structure IrqRoute where
  number : Nat
  priority : Nat
deriving DecidableEq, Repr

/-- The parameters of 00_scope.md R6 that are the platform's or the implementation's. No step changes them. -/
structure Platform where
  /-- E_MAX, the largest exponent of the block's tables (R6, R7). -/
  eMax : Nat
  /-- hash_update1_W and hash_update2_W (R140). -/
  hash : HashFunctions
  /-- REG_BASE, the bus address of the register window (R6, 20_memory.md R50). -/
  regBase : Nat
  /-- The addresses where mem_ok is false (20_memory.md R51), as a list of ranges. -/
  absent : List Region
  /-- Ranges that map a device with read side effects (20_memory.md R57). -/
  devices : List Region
  /-- IRQ_ROUTE (60_exceptions.md R203). -/
  irqRoute : IrqRoute
deriving DecidableEq, Repr

/-- The platform at `State.reset`: the reference values of the spec where it gives them (E_MAX = 30, the reference
hash functions), and the convention of 95_test_vectors.md for mem_ok. DESIGN CHOICE, unsafe (log 2): REG_BASE, no
device and the IRQ route are the model's. -/
def Platform.reference : Platform :=
  { eMax := 30, hash := .reference, regBase := 0, absent := [], devices := [], irqRoute := ⟨0, 0⟩ }

namespace Config

/-- ID_VALUE (10_state.md R23). -/
def idValue : Word := 0x54524943#32

/-- The open hash functions of 41_predictor.md R140, W = 32: arguments h, v (or s) and E (log 8). -/
opaque hashUpdate1_32 : Nat → BitVec 32 → Nat → Nat
/-- See `hashUpdate1_32`. -/
opaque hashUpdate2_32 : Nat → BitVec 32 → Nat → Nat
/-- See `hashUpdate1_32`, W = 64. -/
opaque hashUpdate1_64 : Nat → BitVec 64 → Nat → Nat
/-- See `hashUpdate1_32`, W = 64. -/
opaque hashUpdate2_64 : Nat → BitVec 64 → Nat → Nat

/-- The unspecified byte of draw `d` at address `a` (93 I10 to I15; log 6). -/
opaque freeByte : (d a : Nat) → Byte

/-- The unspecified register value number `k` of draw `d` (70_reset_and_hazards.md R224; log 6). -/
opaque freeWord : (d k : Nat) → Word

/-- The unspecified choice among the outcomes R224 allows, draw `d` (log 6). -/
opaque freeChoice : (d : Nat) → Nat

end Config

end Sys2Proof
end

