-- ==== Sys2Proof/Syntax.lean ====
section
/-! DEFINITION. The commands (30_encoding.md R71), one constructor per row of spec/opcode_table.json. No command word
has operand fields (R70): the operands are registers of the snapshot (R74). -/

namespace Sys2Proof

/-- The 15 commands of TPC command set version 1 (30_encoding.md R71). -/
inductive Instr where
  | nop
  | pcomp32
  | pdecomp32
  | pcomp64
  | pdecomp64
  | split3w32
  | merge3w32
  | split3w64
  | merge3w64
  | splitb2
  | mergeb2
  | splitb4
  | mergeb4
  | splitb8
  | mergeb8
deriving DecidableEq, Repr

/-- Every command, in the order of the opcode table. -/
def Instr.all : List Instr :=
  [.nop, .pcomp32, .pdecomp32, .pcomp64, .pdecomp64, .split3w32, .merge3w32, .split3w64, .merge3w64,
   .splitb2, .mergeb2, .splitb4, .mergeb4, .splitb8, .mergeb8]

end Sys2Proof
end

