-- ==== Sys2Proof/WellFormed.lean ====
section
/-! DEFINITION. Well-formedness checks: the platform (00_scope.md R7), the command word (30_encoding.md R71, R72).
An `Instr` has no operands, so every term of it is well formed. -/

namespace Sys2Proof

/-- "E_MAX must be even. The model must reject a configuration with an odd E_MAX or with E_MAX > 30." (00_scope.md R7) -/
def Platform.wf (p : Platform) : Bool :=
  p.eMax % 2 == 0 && decide (p.eMax ≤ 30)

/-- "a word selects a command iff bits [31:4] are 0 and OP ≠ 0xF" (30_encoding.md R71). -/
def commandWordLegal (w : Word) : Bool :=
  w.extractLsb' 4 28 == 0#28 && w.extractLsb' 0 4 != 0xF#4

/-- A command has no operand fields, so nothing in it can be ill formed (30_encoding.md R70). -/
def Instr.wf (_ : Instr) : Bool := true

end Sys2Proof
end

