-- ==== Sys2Proof/Decode.lean ====
section
/-! DEFINITION. The command word: the decoder, total on 32-bit words and rejecting by name, and after it the encoder
(30_encoding.md R70 to R72). -/

namespace Sys2Proof

/-- Why a word is no command (30_encoding.md R72). -/
inductive Reject where
  /-- A bit of [31:4] is set. -/
  | reservedBits
  /-- OP = 0xF. -/
  | reservedOp
deriving DecidableEq, Repr

/-- What the decoder answers. -/
inductive Decoded where
  | command (i : Instr)
  | illegal (why : Reject)
deriving DecidableEq, Repr

/-- The OP map (30_encoding.md R71). -/
def commandOfOp : Nat → Decoded
  | 0x0 => .command .nop
  | 0x1 => .command .pcomp32
  | 0x2 => .command .pdecomp32
  | 0x3 => .command .pcomp64
  | 0x4 => .command .pdecomp64
  | 0x5 => .command .split3w32
  | 0x6 => .command .merge3w32
  | 0x7 => .command .split3w64
  | 0x8 => .command .merge3w64
  | 0x9 => .command .splitb2
  | 0xA => .command .mergeb2
  | 0xB => .command .splitb4
  | 0xC => .command .mergeb4
  | 0xD => .command .splitb8
  | 0xE => .command .mergeb8
  | _ => .illegal .reservedOp

/-- Decode a command word: reserved bits first, then OP (30_encoding.md R71, R72). -/
def decodeWord (w : Word) : Decoded :=
  if w.extractLsb' 4 28 == 0#28 then commandOfOp (w.extractLsb' 0 4).toNat else .illegal .reservedBits

/-- The OP value of a command (30_encoding.md R71). -/
def Instr.op : Instr → BitVec 4
  | .nop => 0x0#4
  | .pcomp32 => 0x1#4
  | .pdecomp32 => 0x2#4
  | .pcomp64 => 0x3#4
  | .pdecomp64 => 0x4#4
  | .split3w32 => 0x5#4
  | .merge3w32 => 0x6#4
  | .split3w64 => 0x7#4
  | .merge3w64 => 0x8#4
  | .splitb2 => 0x9#4
  | .mergeb2 => 0xA#4
  | .splitb4 => 0xB#4
  | .mergeb4 => 0xC#4
  | .splitb8 => 0xD#4
  | .mergeb8 => 0xE#4

/-- The command word of a command: OP in [3:0], reserved bits 0 (30_encoding.md R70). -/
def encode (i : Instr) : Word := 0#28 ++ i.op

/-- The command that the decoder reads from a table word (bit 0 the least significant bit of the command word). -/
def decodeTableWord (_nbits w : Nat) : Option Instr :=
  if w < addressCount then
    match decodeWord (BitVec.ofNat 32 w) with
    | .command i => some i
    | .illegal _ => none
  else none

end Sys2Proof
end

