-- ==== Sys2Proof/Machine/State.lean ====
section
/-! DEFINITION. The machine's state as plain data: the registers of the window (10_state.md), the engine and its
snapshot (R41), the internal state of a command (R21, R42), memory (20_memory.md R51), the platform's parameters
(00_scope.md R6) and the outside world's pending transactions; the reasons a step can stop; and the state after
reset (10_state.md R46). -/

namespace Sys2Proof.Machine

/-- STATUS without BUSY, which is the engine's state (10_state.md R25, R41). -/
structure Status where
  /-- Bit 1 (R27). -/
  done : Bool
  /-- Bit 2 (R28). -/
  err : Bool
  /-- Bit 3 (R29). -/
  overrun : Bool
  /-- Bits [11:8] (R28, 60_exceptions.md R190). -/
  errcode : BitVec 4
deriving DecidableEq, Repr

/-- HASH_CFG (10_state.md R31): four 5-bit exponents; its other bits are RAZ/WI. -/
structure HashCfg where
  /-- Bits [4:0]. -/
  e1w32 : BitVec 5
  /-- Bits [12:8]. -/
  e2w32 : BitVec 5
  /-- Bits [20:16]. -/
  e1w64 : BitVec 5
  /-- Bits [28:24]. -/
  e2w64 : BitVec 5
deriving DecidableEq, Repr

/-- RES_CFG (10_state.md R39): E1_eff in [4:0], E2_eff in [12:8]; its other bits read 0. -/
structure ResCfg where
  e1 : BitVec 5
  e2 : BitVec 5
deriving DecidableEq, Repr

/-- The snapshot that acceptance latches (10_state.md R41, 42_host_access.md R174). -/
structure Snapshot where
  cmd : Word
  hashCfg : HashCfg
  srcAddr : Word
  srcLen : Word
  dstAddr : Word
  dstCap : Word
  planeStride : Word
deriving DecidableEq, Repr

/-- A command in flight: its snapshot, what other agents did to its regions since acceptance
(70_reset_and_hazards.md R224, R226), and how many transactions still come before the engine step (R231, log 3). -/
structure Job where
  snap : Snapshot
  /-- An agent wrote a byte of an input region (R224). -/
  inputTouched : Bool
  /-- The bytes of output regions that an agent wrote (R226), latest first. -/
  outputTouched : List Word
  /-- Transactions that come before the engine step. -/
  wait : Nat
deriving DecidableEq, Repr

/-- IDLE or BUSY (10_state.md R41). -/
inductive Engine where
  | idle
  | busy (job : Job)
deriving DecidableEq, Repr

/-- The element widths of the predictor (00_scope.md R2). -/
inductive Width where
  | w32
  | w64
deriving DecidableEq, Repr

/-- PredictionState (10_state.md R42), W = `w`. A table is the list of its entries that are not 0, by index. -/
structure PredictionState (w : Nat) where
  /-- FCM table: last raw value seen at a hash slot. -/
  table1 : List (Nat × BitVec w)
  /-- DFCM table: last stride seen at a hash slot. -/
  table2 : List (Nat × BitVec w)
  hash1 : Nat
  hash2 : Nat
  prediction1 : BitVec w
  prediction2 : BitVec w
  lastValue : BitVec w
deriving DecidableEq, Repr, Inhabited

/-- The PredictionState of one width or of the other, as the block's tables hold it. -/
inductive Prediction where
  | w32 (p : PredictionState 32)
  | w64 (p : PredictionState 64)
deriving DecidableEq, Repr, Inhabited

/-- What the engine holds inside a command and no register shows: the element cursor (10_state.md R21) and the
PredictionState (R42). Both are unspecified between commands (R43, 93 I16). -/
structure Internal where
  /-- The index i of the value being transposed, predicted or decoded (R21). -/
  index : Nat
  /-- The decoder's byte position (R21). -/
  pos : Nat
  prediction : Prediction
deriving DecidableEq, Repr, Inhabited

/-- Memory: the bytes that differ from what an unlisted address reads as, by rising address
(20_memory.md R51; log 5). -/
abbrev Memory := List Host.Cell

/-- One transaction of the outside world, in the order it reaches the block (42_host_access.md "one at a time"). -/
inductive HostOp where
  /-- A register-window read of `size` bytes at bus address `addr` (R170, 20_memory.md R67). -/
  | read (addr size : Nat)
  /-- A register-window write of `size` bytes at bus address `addr` (R171, 20_memory.md R67). -/
  | write (addr size : Nat) (x : Word)
  /-- POLL (30_encoding.md R88): repeat the read until (read & mask) = value. -/
  | poll (addr : Nat) (mask value : Word)
  /-- The host, or another agent, reads a byte of memory (70_reset_and_hazards.md R225). -/
  | memRead (a : Word)
  /-- The host, or another agent, writes a byte of memory (R224, R226). -/
  | memWrite (a : Word) (b : Byte)
  /-- The platform asserts the reset input `rst` (R220). -/
  | rst
  /-- The platform gates clock or power and restores it; the registers were retained or not (60_exceptions.md R213). -/
  | powerGate (retained : Bool)
deriving DecidableEq, Repr

/-- The machine. -/
structure State where
  /-- The parameters of 00_scope.md R6; no step changes them (log 2). -/
  platform : Platform
  /-- CTRL.IRQ_EN (10_state.md R24). -/
  irqEn : Bool
  /-- STATUS but BUSY (R25 to R29). -/
  status : Status
  /-- CMD's read value: the last accepted word (R30). -/
  cmd : Word
  /-- HASH_CFG (R31). -/
  hashCfg : HashCfg
  /-- SRC_ADDR (R32). -/
  srcAddr : Word
  /-- SRC_LEN (R33). -/
  srcLen : Word
  /-- DST_ADDR (R34). -/
  dstAddr : Word
  /-- DST_CAP (R35). -/
  dstCap : Word
  /-- PLANE_STRIDE (R36). -/
  planeStride : Word
  /-- RES_LEN (R37). -/
  resLen : Word
  /-- RES_COUNT (R38). -/
  resCount : Word
  /-- RES_CFG (R39). -/
  resCfg : ResCfg
  /-- IDLE, or BUSY with the snapshot (R41). -/
  engine : Engine
  /-- Element cursor and PredictionState (R21, R42, R43). -/
  internal : Internal
  /-- Memory (20_memory.md R51). -/
  memory : Memory
  /-- MODEL'S OWN: the pending transactions, oldest first (log 4). -/
  inputs : List HostOp
  /-- MODEL'S OWN: what the last read returned to its reader (42_host_access.md R170; log 19). -/
  readData : Word
  /-- MODEL'S OWN: LATENCY of the coming commands, in transactions (70_reset_and_hazards.md R231; log 3). -/
  delays : List Nat
  /-- MODEL'S OWN: how many draws of free values there were (log 6). -/
  draws : Nat
deriving DecidableEq, Repr

/-- Why the machine stops with a fault. The block itself never stops: a failing command completes with an error code
(60_exceptions.md R194). -/
inductive Fault where
  /-- Raised by every meaning on a state whose engine is IDLE, where there is no command to perform
  (42_host_access.md R180 "While BUSY = 1"); `step` never runs a meaning there. Safe (log 16). -/
  | noCommandInFlight
deriving DecidableEq, Repr

/-- Why a step is refused. -/
inductive Refusal where
  /-- Raised by exec for an instruction without a meaning. Safe. -/
  | notModelled (mnemonic : String)
  /-- Raised by step on a platform whose E_MAX is odd or above 30 (00_scope.md R7). Safe. -/
  | configurationRejected
  /-- Raised by a window access that is not an aligned 32-bit one (20_memory.md R67, 93 I7). Safe. -/
  | windowAccessUndefined
  /-- Raised by a bus address outside the register window: no transaction with the block (log 13). Safe. -/
  | outsideWindow
  /-- Raised when a command would access a region that maps a device (20_memory.md R57, 93 I8; log 12). Safe. -/
  | deviceRegion
  /-- Raised by an agent's own access to a device's byte, whose behaviour the spec does not give (log 12). Safe. -/
  | deviceAccess
  /-- Raised when the platform gates power while BUSY: 60_exceptions.md R213 speaks of an idle block (log 20). Safe. -/
  | powerGatedWhileBusy
deriving DecidableEq, Repr

end Sys2Proof.Machine

/-- The unspecified internal state of draw `d` (10_state.md R43, 93 I16; log 7). -/
opaque Sys2Proof.Config.freeInternal : (d : Nat) → Sys2Proof.Machine.Internal

namespace Sys2Proof.Machine

/-- The machine after reset (10_state.md R46, 70_reset_and_hazards.md R220). -/
def State.reset : State where
  platform := Platform.reference
  irqEn := false
  status := { done := false, err := false, overrun := false, errcode := 0#4 }
  cmd := 0#32
  hashCfg := { e1w32 := 4#5, e2w32 := 10#5, e1w64 := 20#5, e2w64 := 20#5 }
  srcAddr := 0#32
  srcLen := 0#32
  dstAddr := 0#32
  dstCap := 0#32
  planeStride := 0#32
  resLen := 0#32
  resCount := 0#32
  resCfg := { e1 := 0#5, e2 := 0#5 }
  engine := .idle
  internal := Config.freeInternal 0
  memory := []
  inputs := []
  readData := 0#32
  delays := []
  draws := 1

end Sys2Proof.Machine
end

