-- ==== Sys2Proof/Machine/Bytes.lean ====
section
/-! DEFINITION. Helpers of the spec's pseudocode (00_scope.md R8 to R10): the counting loop, byte sequences, significant
bytes, and the list of differences from a default value that memory and the predictor's tables share. -/

namespace Sys2Proof.Machine

/-- `for i in 0 .. n-1`: the body runs for 0, 1, ..., n-1 in that order. -/
def loop {σ : Type} (body : Nat → σ → σ) : Nat → σ → σ
  | 0, s => s
  | n + 1, s => body n (loop body n s)

/-- ceil(a/b) for b > 0 (00_scope.md R8). -/
def ceilDiv (a b : Nat) : Nat := (a + b - 1) / b

/-- sat(x) = min(x, 0xFFFF_FFFF), as a register value (60_exceptions.md R194). -/
def sat (x : Nat) : Word := BitVec.ofNat 32 (min x 0xFFFFFFFF)

/-- Byte k of v, v[8k+7:8k] (00_scope.md R9). -/
def byteOf (v k : Nat) : Byte := BitVec.ofNat 8 (v >>> (8 * k))

/-- be_bytes(v, n): the low n bytes of v, most significant first (00_scope.md R9). -/
def beBytes (v : Nat) : Nat → List Byte
  | 0 => []
  | n + 1 => byteOf v n :: beBytes v n

/-- be_value of a byte sequence, 0 for the empty one (00_scope.md R9). -/
def beValue (bs : List Byte) : Nat := bs.foldl (fun acc b => acc * 256 + b.toNat) 0

/-- nb(r): the least k with r < 2^(8k) (00_scope.md R9). -/
def nb (r : Nat) : Nat := if r = 0 then 0 else Nat.log2 r / 8 + 1

/-- The value listed for key `a`, or `d`. -/
def Sparse.get {β : Type} (d : β) : List (Nat × β) → Nat → β
  | [], _ => d
  | (k, x) :: m, a => if k = a then x else Sparse.get d m a

/-- Take every entry of key `a` out. -/
def Sparse.erase {β : Type} (m : List (Nat × β)) (a : Nat) : List (Nat × β) :=
  match m with
  | [] => []
  | (k, x) :: m => if k = a then Sparse.erase m a else (k, x) :: Sparse.erase m a

/-- List key `a` before the first larger key. -/
def Sparse.insert {β : Type} (m : List (Nat × β)) (a : Nat) (b : β) : List (Nat × β) :=
  match m with
  | [] => [(a, b)]
  | (k, x) :: m => if a < k then (a, b) :: (k, x) :: m else (k, x) :: Sparse.insert m a b

/-- Set key `a` to `b`; the default `d` is not listed. -/
def Sparse.put {β : Type} [DecidableEq β] (d : β) (m : List (Nat × β)) (a : Nat) (b : β) : List (Nat × β) :=
  if b = d then Sparse.erase m a else Sparse.insert (Sparse.erase m a) a b

/-- The canonical form: keys strictly rising, no default listed. -/
abbrev Sparse.wf {β : Type} (d : β) (m : List (Nat × β)) : Prop :=
  m.Pairwise (fun x y => x.1 < y.1) ∧ ∀ c ∈ m, c.2 ≠ d

end Sys2Proof.Machine
end

