-- ==== Sys2Proof/Machine/Operands.lean ====
section
/-! DEFINITION. Operand assembly (30_encoding.md R74): the regions each command declares, their checks
(20_memory.md R51, R58, R59; 40_plane_transposer.md R100, R101; 41_predictor.md precheck_P), the exponents
(30_encoding.md R73, 10_state.md R31, R39), and the errors a command can raise (60_exceptions.md R200). -/

namespace Sys2Proof.Machine

/-! ### Widths -/

/-- W (00_scope.md R6). -/
@[reducible] def Width.bits : Width → Nat
  | .w32 => 32
  | .w64 => 64

/-- W/8: the bytes of an element, and LMAX_W, the longest residual1 field (41_predictor.md). -/
def Width.bytes : Width → Nat
  | .w32 => 4
  | .w64 => 8

/-- G_W, the values of a group (00_scope.md R6, 90_conflicts.md C2). -/
def Width.group : Width → Nat
  | .w32 => 8
  | .w64 => 2

/-- The bits of one code (30_encoding.md R80, R81). -/
def Width.codeBits : Width → Nat
  | .w32 => 3
  | .w64 => 4

/-- CB_W, the code bytes of a group (00_scope.md R6). -/
def Width.codeBytes : Width → Nat
  | .w32 => 3
  | .w64 => 1

/-! ### Exponents and configuration words -/

/-- HASH_CFG from a written word; reserved bits are dropped (10_state.md R31, 42_host_access.md R176). -/
def HashCfg.ofWord (x : Word) : HashCfg where
  e1w32 := x.extractLsb' 0 5
  e2w32 := x.extractLsb' 8 5
  e1w64 := x.extractLsb' 16 5
  e2w64 := x.extractLsb' 24 5

/-- HASH_CFG as it reads (10_state.md R31). -/
def HashCfg.toWord (h : HashCfg) : Word :=
  0#3 ++ h.e2w64 ++ (0#3 ++ h.e1w64) ++ (0#3 ++ h.e2w32) ++ (0#3 ++ h.e1w32)

/-- RES_CFG as it reads (10_state.md R39). -/
def ResCfg.toWord (c : ResCfg) : Word := 0#16 ++ (0#3 ++ c.e2) ++ (0#3 ++ c.e1)

/-- RES_CFG of exponents E1 and E2 (10_state.md R39). -/
def ResCfg.ofExponents (e1 e2 : Nat) : ResCfg := { e1 := BitVec.ofNat 5 e1, e2 := BitVec.ofNat 5 e2 }

/-- RES_CFG of an unspecified word: its reserved bits read 0 all the same (10_state.md R40). -/
def ResCfg.ofWord (x : Word) : ResCfg := { e1 := x.extractLsb' 0 5, e2 := x.extractLsb' 8 5 }

/-- RES_CFG after acceptance, reset, and every command that uses no exponent (10_state.md R39). -/
def ResCfg.zero : ResCfg := { e1 := 0#5, e2 := 0#5 }

/-- norm(e) = (min(e, E_MAX) >> 1) << 1 (30_encoding.md R73). -/
def normExponent (eMax e : Nat) : Nat := (min e eMax >>> 1) <<< 1

/-- E1_req of a width (30_encoding.md R73). -/
def HashCfg.e1 (h : HashCfg) : Width → Nat
  | .w32 => h.e1w32.toNat
  | .w64 => h.e1w64.toNat

/-- E2_req of a width (30_encoding.md R73). -/
def HashCfg.e2 (h : HashCfg) : Width → Nat
  | .w32 => h.e2w32.toNat
  | .w64 => h.e2w64.toNat

/-! ### Snapshot operands as exact integers (40_plane_transposer.md) -/

/-- SRC. -/
def Snapshot.src (j : Snapshot) : Nat := j.srcAddr.toNat
/-- n, or the number of input bytes (30_encoding.md R74). -/
def Snapshot.n (j : Snapshot) : Nat := j.srcLen.toNat
/-- DST. -/
def Snapshot.dst (j : Snapshot) : Nat := j.dstAddr.toNat
/-- CAP. -/
def Snapshot.cap (j : Snapshot) : Nat := j.dstCap.toNat
/-- T. -/
def Snapshot.pitch (j : Snapshot) : Nat := j.planeStride.toNat

/-! ### Regions -/

end Sys2Proof.Machine

namespace Sys2Proof

/-- The region covers address `a` (20_memory.md R58). -/
def Region.covers (r : Region) (a : Nat) : Bool := decide (r.start ≤ a) && decide (a < r.start + r.len)

/-- "A region with len = 0 covers nothing and is always valid"; another is valid iff a + len ≤ 2^32 (20_memory.md R58). -/
def Region.valid (r : Region) : Bool := decide (r.len = 0) || decide (r.start + r.len ≤ addressCount)

/-- "both have len > 0 and they share an address: a1 < a2 + len2 and a2 < a1 + len1" (20_memory.md R59). -/
def Region.overlaps (r q : Region) : Bool :=
  decide (0 < r.len) && decide (0 < q.len) && decide (r.start < q.start + q.len) && decide (q.start < r.start + r.len)

end Sys2Proof

namespace Sys2Proof.Machine

/-- The regions a command declares (20_memory.md R58). -/
structure Regions where
  inputs : List Region
  outputs : List Region
deriving DecidableEq, Repr

/-- A command without regions: NOP, or an illegal word. -/
def Regions.none : Regions := ⟨[], []⟩

/-- The shape of a command: its operand form (30_encoding.md R74) with the plane count P and the element size S
(40_plane_transposer.md R100), or the width W. -/
inductive Shape where
  | control
  | split (planes size : Nat)
  | merge (planes size : Nat)
  | compress (k : Width)
  | decompress (k : Width)
deriving DecidableEq, Repr

/-- The operand form of each command (30_encoding.md R74, 40_plane_transposer.md R100). -/
def shapeOf : Instr → Shape
  | .nop => .control
  | .pcomp32 => .compress .w32
  | .pdecomp32 => .decompress .w32
  | .pcomp64 => .compress .w64
  | .pdecomp64 => .decompress .w64
  | .split3w32 => .split 3 4
  | .merge3w32 => .merge 3 4
  | .split3w64 => .split 3 8
  | .merge3w64 => .merge 3 8
  | .splitb2 => .split 2 1
  | .mergeb2 => .merge 2 1
  | .splitb4 => .split 4 1
  | .mergeb4 => .merge 4 1
  | .splitb8 => .split 8 1
  | .mergeb8 => .merge 8 1

/-- The planes (base + p·T, n·S) for p < P (40_plane_transposer.md R100). -/
def planeRegions (base pitch planes bytes : Nat) : List Region :=
  (List.range planes).map fun p => ⟨base + p * pitch, bytes⟩

/-- The declared regions of a command (40_plane_transposer.md R100; 41_predictor.md R147 to R150). -/
def regionsOf (sh : Shape) (j : Snapshot) : Regions :=
  match sh with
  | .control => Regions.none
  | .split p s => ⟨[⟨j.src, p * j.n * s⟩], planeRegions j.dst j.pitch p (j.n * s)⟩
  | .merge p s => ⟨planeRegions j.src j.pitch p (j.n * s), [⟨j.dst, p * j.n * s⟩]⟩
  | .compress k => ⟨[⟨j.src, j.n * k.bytes⟩], [⟨j.dst, j.cap⟩]⟩
  | .decompress _ => ⟨[⟨j.src, j.n⟩], [⟨j.dst, j.cap⟩]⟩

/-- The output extent X of a transposer command, which its DST_FULL check compares with CAP
(40_plane_transposer.md R100); the predictor commands check their own lengths later. -/
def extentOf (sh : Shape) (j : Snapshot) : Nat :=
  match sh with
  | .split p s => if j.n = 0 then 0 else (p - 1) * j.pitch + j.n * s
  | .merge p s => p * j.n * s
  | _ => 0

/-- Some region is invalid (RANGE, 20_memory.md R58). -/
def Regions.outOfRange (r : Regions) : Bool := (r.inputs ++ r.outputs).any fun q => !q.valid

/-- Two regions of one list overlap. -/
def anyPairOverlaps : List Region → Bool
  | [] => false
  | r :: rs => rs.any r.overlaps || anyPairOverlaps rs

/-- "any input region overlaps any output region; or two of its output planes overlap each other" (OVERLAP, 20_memory.md R59). -/
def Regions.overlapping (r : Regions) : Bool :=
  r.inputs.any (fun i => r.outputs.any i.overlaps) || anyPairOverlaps r.outputs

/-- mem_ok(a) (20_memory.md R51). -/
def memOk (p : Platform) (a : Nat) : Bool := !p.absent.any fun q => q.covers a

/-- mem_ok is false for some address of some declared region (BUS_ERROR, 20_memory.md R51). -/
def Regions.meetsAbsent (r : Regions) (p : Platform) : Bool :=
  (r.inputs ++ r.outputs).any fun q => p.absent.any q.overlaps

/-- Some declared region maps a device (20_memory.md R57). -/
def Regions.meetsDevice (r : Regions) (p : Platform) : Bool :=
  (r.inputs ++ r.outputs).any fun q => p.devices.any q.overlaps

/-- An input region covers `a`. -/
def Regions.inputCovers (r : Regions) (a : Nat) : Bool := r.inputs.any fun q => q.covers a

/-- An output region covers `a`. -/
def Regions.outputCovers (r : Regions) (a : Nat) : Bool := r.outputs.any fun q => q.covers a

/-! ### Error codes and the prechecks -/

/-- The error codes of 60_exceptions.md R190. -/
inductive ErrorCode where
  | illegalCmd
  | range
  | overlap
  | dstFull
  | unexpectedEof
  | corruptLength
  | unsupportedCfg
  | busError
deriving DecidableEq, Repr

/-- The number of an error code (60_exceptions.md R190). -/
def ErrorCode.number : ErrorCode → BitVec 4
  | .illegalCmd => 1#4
  | .range => 2#4
  | .overlap => 3#4
  | .dstFull => 4#4
  | .unexpectedEof => 5#4
  | .corruptLength => 6#4
  | .unsupportedCfg => 7#4
  | .busError => 8#4

/-- ERRCODE of an outcome: 0 for success (60_exceptions.md R190, R201). -/
def errcodeOf : Option ErrorCode → BitVec 4
  | none => 0#4
  | some e => e.number

/-- The errors a command can raise (60_exceptions.md R200). -/
def raisable : Shape → List ErrorCode
  | .control => []
  | .split _ _ => [.range, .overlap, .dstFull, .busError]
  | .merge _ _ => [.range, .overlap, .dstFull, .busError]
  | .compress _ => [.range, .overlap, .busError, .dstFull]
  | .decompress _ => [.range, .overlap, .busError, .unexpectedEof, .unsupportedCfg, .corruptLength, .dstFull]

/-- precheck(inputs, outputs, X) (40_plane_transposer.md R101). -/
def precheckPlanes (p : Platform) (r : Regions) (extent cap : Nat) : Option ErrorCode :=
  if r.outOfRange then some .range
  else if r.overlapping then some .overlap
  else if cap < extent then some .dstFull
  else if r.meetsAbsent p then some .busError
  else none

/-- precheck_P(inputs, outputs) (41_predictor.md section 3). -/
def precheckStream (p : Platform) (r : Regions) : Option ErrorCode :=
  if r.outOfRange then some .range
  else if r.overlapping then some .overlap
  else if r.meetsAbsent p then some .busError
  else none

/-- The checks a command makes before any memory access (60_exceptions.md R200). -/
def precheck (sh : Shape) (p : Platform) (j : Snapshot) : Option ErrorCode :=
  match sh with
  | .control => none
  | .split _ _ | .merge _ _ => precheckPlanes p (regionsOf sh j) (extentOf sh j) j.cap
  | .compress _ | .decompress _ => precheckStream p (regionsOf sh j)

/-- The shape of the command in flight: what its word decodes to; an illegal word declares nothing. -/
def Job.shape (job : Job) : Shape :=
  match decodeWord job.snap.cmd with
  | .command i => shapeOf i
  | .illegal _ => .control

/-- The declared regions of the command in flight. -/
def Job.regions (job : Job) : Regions := regionsOf job.shape job.snap

end Sys2Proof.Machine
end

