-- ==== Sys2Proof/Machine/Flags.lean ====
section
/-! DEFINITION. STATUS, CTRL and the interrupt line: the words they read as, write-1-to-clear, and what acceptance and
completion write (10_state.md R24 to R29, R44; 42_host_access.md R173; 60_exceptions.md R194, R201). -/

namespace Sys2Proof.Machine

/-- STATUS.BUSY is the engine's state (10_state.md R41). -/
def Engine.isBusy : Engine → Bool
  | .idle => false
  | .busy _ => true

/-- STATUS.BUSY (10_state.md R26). -/
def State.busy (s : State) : Bool := s.engine.isBusy

/-- STATUS as it reads (10_state.md R25). -/
def statusWord (busy : Bool) (st : Status) : Word :=
  0#20 ++ st.errcode ++ 0#4 ++ BitVec.ofBool st.overrun ++ BitVec.ofBool st.err ++ BitVec.ofBool st.done ++ BitVec.ofBool busy

/-- CTRL as it reads: bit 1 always reads 0 (10_state.md R24). -/
def ctrlWord (irqEn : Bool) : Word := 0#31 ++ BitVec.ofBool irqEn

/-- A host write of `x` to STATUS, write-1-to-clear (42_host_access.md R173). -/
def Status.clear (st : Status) (x : Word) : Status where
  done := if x.getLsbD 1 then false else st.done
  err := if x.getLsbD 2 then false else st.err
  errcode := if x.getLsbD 2 then 0#4 else st.errcode
  overrun := if x.getLsbD 3 then false else st.overrun

/-- What acceptance leaves in STATUS (42_host_access.md R174): OVERRUN is unchanged. -/
def Status.accepted (st : Status) : Status := { st with done := false, err := false, errcode := 0#4 }

/-- What completion leaves in STATUS (60_exceptions.md R194, R201): OVERRUN is unchanged. -/
def Status.completed (st : Status) (e : Option ErrorCode) : Status :=
  { st with done := true, err := e.isSome, errcode := errcodeOf e }

/-- A CMD write while BUSY (42_host_access.md R175). -/
def Status.overran (st : Status) : Status := { st with overrun := true }

/-- The interrupt line, irq = CTRL.IRQ_EN & STATUS.DONE (10_state.md R44). -/
def State.irq (s : State) : Bool := s.irqEn && s.status.done

/-- Where the line is seen at a processor, when it is high (60_exceptions.md R203, parameter IRQ_ROUTE). -/
def State.irqAtProcessor (s : State) : Option IrqRoute := if s.irq then some s.platform.irqRoute else none

end Sys2Proof.Machine
end

