-- ==== Sys2Proof/Machine/Ops.lean ====
section
/-! DEFINITION. The shared operations: memory through the port (00_scope.md R9, R10), free bytes (60_exceptions.md R202),
completion, with or without an error, as ONE operation (60_exceptions.md R194, R201; the block's only "trap"),
acceptance (42_host_access.md R174) and reset (70_reset_and_hazards.md R220, R221). -/

namespace Sys2Proof.Machine

/-! ### Memory -/

/-- What an address that nothing has written reads as. DESIGN CHOICE, unsafe (log 5): the spec leaves memory after
power-on to the platform (70_reset_and_hazards.md R222). -/
def unlistedByte : Byte := 0#8

/-- The canonical form of memory: addresses strictly rising and below 2^32, no byte listed that reads as unlisted. -/
abbrev Memory.wf (m : Memory) : Prop := Sparse.wf unlistedByte m ∧ ∀ c ∈ m, c.1 < addressCount

/-- Read one byte (20_memory.md R51: memory is a total map). -/
def readByte (m : Memory) (a : Nat) : Byte := Sparse.get unlistedByte m a

/-- Write one byte. -/
def writeByte (m : Memory) (a : Nat) (b : Byte) : Memory := Sparse.put unlistedByte m a b

/-- MemRead(a, n), the little-endian value of n bytes (00_scope.md R9, 20_memory.md R52). -/
def memRead (m : Memory) (a : Nat) : Nat → Nat
  | 0 => 0
  | n + 1 => (readByte m a).toNat + 256 * memRead m (a + 1) n

/-- MemWrite(a, n, v): byte k of v to a + k, for k < n (00_scope.md R9, 20_memory.md R52). -/
def memWrite (m : Memory) (a n v : Nat) : Memory := loop (fun k m => writeByte m (a + k) (byteOf v k)) n m

/-- The bytes at a, a+1, ..., a+n-1 (00_scope.md R10). -/
def readBytes (m : Memory) (a : Nat) : Nat → List Byte
  | 0 => []
  | n + 1 => readByte m a :: readBytes m (a + 1) n

/-- Write a byte sequence in order: byte k to a + k (00_scope.md R10). -/
def writeBytes (m : Memory) (a : Nat) : List Byte → Memory
  | [] => m
  | b :: bs => writeBytes (writeByte m a b) (a + 1) bs

/-- Every byte of `(a, n)` that exists takes the unspecified value of draw `d` (60_exceptions.md R202), but for the
bytes that `keep` covers. -/
def freeBytes (m : Memory) (d a n : Nat) (keep : Nat → Bool) : Memory :=
  loop (fun k m => if a + k < addressCount && !keep (a + k) then writeByte m (a + k) (Config.freeByte d (a + k)) else m) n m

/-- Every byte of a region takes an unspecified value (60_exceptions.md R202). -/
def freeRegion (m : Memory) (d a n : Nat) : Memory := freeBytes m d a n fun _ => false

/-- Every byte of every region of the list takes an unspecified value, but for the bytes that `keep` covers. -/
def freeRegions (m : Memory) (d : Nat) (keep : Nat → Bool) : List Region → Memory
  | [] => m
  | r :: rs => freeRegions (freeBytes m d r.start r.len keep) d keep rs

/-- Every byte of a list of addresses takes an unspecified value (70_reset_and_hazards.md R226). -/
def freeTouched (m : Memory) (d : Nat) : List Word → Memory
  | [] => m
  | a :: as => freeTouched (writeByte m a.toNat (Config.freeByte d a.toNat)) d as

/-! ### Completion -/

/-- How a command ends: an error or none, the result registers, and memory (60_exceptions.md R194, R201, R202). -/
structure Completion where
  error : Option ErrorCode
  resLen : Word
  resCount : Word
  resCfg : ResCfg
  memory : Memory
deriving DecidableEq, Repr

/-- An error completion that leaves the three result registers 0 and memory unchanged
(60_exceptions.md R194 first row, R202). -/
def Completion.bare (e : ErrorCode) (m : Memory) : Completion :=
  { error := some e, resLen := 0#32, resCount := 0#32, resCfg := ResCfg.zero, memory := m }

/-- The outcome R224 allows when an agent wrote the command's input while BUSY: free output bytes, free result
registers, and no error or one the command can raise (70_reset_and_hazards.md R224). DESIGN CHOICE, safe (log 10): a byte
that is also an input byte is free too, as R224 says of every output byte, where 20_memory.md R60 says that the block never
writes an input byte. -/
def disturbed (sh : Shape) (r : Regions) (m : Memory) (d : Nat) : Completion :=
  let outcomes := none :: (raisable sh).map some
  { error := outcomes.getD (Config.freeChoice d % outcomes.length) none
    resLen := Config.freeWord d 0
    resCount := Config.freeWord d 1
    resCfg := ResCfg.ofWord (Config.freeWord d 2)
    memory := freeRegions m d (fun _ => false) r.outputs }

/-- The completion that the hazard rules leave of an undisturbed one (70_reset_and_hazards.md R224, R226). -/
def settled (sh : Shape) (s : State) (job : Job) (c : Completion) : Completion :=
  let c := if job.inputTouched then disturbed sh (regionsOf sh job.snap) s.memory s.draws else c
  { c with memory := freeTouched c.memory s.draws job.outputTouched }

/-- Complete the command in flight (42_host_access.md R180(c); 60_exceptions.md R194, R201): BUSY ← 0, DONE ← 1, ERR and
ERRCODE, the result registers, memory. The engine's internal state is unspecified from here on (10_state.md R43). -/
def complete (sh : Shape) (s : State) (job : Job) (c : Completion) : State :=
  let c := settled sh s job c
  { s with
    engine := .idle
    status := s.status.completed c.error
    resLen := c.resLen
    resCount := c.resCount
    resCfg := c.resCfg
    memory := c.memory
    internal := Config.freeInternal s.draws
    draws := s.draws + 1 }

/-- Run a command on the snapshot in flight: its precheck first, and where that passes, `body` says how it ends.
A command whose region maps a device is "refused" (20_memory.md R57; 92_eei_decisions.md D16; 93_implementation_defined.md
I8), unless its checks end it before it accesses memory (log 12). -/
def runCommand (sh : Shape) (s : State) (failed : Snapshot → ErrorCode → Completion) (body : Snapshot → Completion) :
    Host.Outcome State Fault Refusal :=
  match s.engine with
  | .idle => .fault .noCommandInFlight
  | .busy job =>
    match precheck sh s.platform job.snap with
    | some e => .next (complete sh s job (failed job.snap e))
    | none =>
      if (regionsOf sh job.snap).meetsDevice s.platform then .refused .deviceRegion
      else .next (complete sh s job (body job.snap))

/-! ### Acceptance and reset -/

/-- The snapshot of the current registers (42_host_access.md R174). -/
def State.snapshot (s : State) (x : Word) : Snapshot where
  cmd := x
  hashCfg := s.hashCfg
  srcAddr := s.srcAddr
  srcLen := s.srcLen
  dstAddr := s.dstAddr
  dstCap := s.dstCap
  planeStride := s.planeStride

/-- Acceptance of command word `x`; `wait` transactions come before the engine step (42_host_access.md R174, log 3). -/
def acceptWith (wait : Nat) (x : Word) (s : State) : State :=
  { s with
    cmd := x
    engine := .busy { snap := s.snapshot x, inputTouched := false, outputTouched := [], wait := wait }
    status := s.status.accepted
    resLen := 0#32
    resCount := 0#32
    resCfg := ResCfg.zero }

/-- Acceptance by a CMD write: the next entry of LATENCY says when the engine step comes (log 3). -/
def accept (x : Word) (s : State) : State :=
  { acceptWith (s.delays.headD 0) x s with delays := s.delays.tail }

/-- Every register at its reset value, the engine IDLE, memory `m` (10_state.md R46, 70_reset_and_hazards.md R220, R222).
What is not the block's is kept: the platform, the pending transactions, what the reader holds. -/
def resetTo (m : Memory) (s : State) : State :=
  { State.reset with
    platform := s.platform
    internal := Config.freeInternal s.draws
    memory := m
    inputs := s.inputs
    readData := s.readData
    delays := s.delays
    draws := s.draws + 1 }

/-- The bytes an aborted command leaves: "every byte in the aborted command's declared output regions holds an
unspecified value; bytes in its input regions and bytes outside all its regions are unchanged"
(70_reset_and_hazards.md R221; log 9). -/
def abortedMemory (s : State) (job : Job) : Memory :=
  freeRegions s.memory s.draws job.regions.inputCovers job.regions.outputs

/-- Power-on reset or soft reset: it "happens even while BUSY", where it aborts the command in flight, whatever that
command's regions map (42_host_access.md R179; 70_reset_and_hazards.md R220, R221). -/
def resetBlock (s : State) : State :=
  match s.engine with
  | .idle => resetTo s.memory s
  | .busy job => resetTo (abortedMemory s job) s

end Sys2Proof.Machine
end

