-- ==== Sys2Proof/Machine/Control.lean ====
section
/-! DEFINITION. NOP (42_host_access.md R178) and the completion of an illegal command word (60_exceptions.md R191). -/

namespace Sys2Proof.Machine

/-- NOP: "(no operation)", RES_LEN = RES_COUNT = RES_CFG = 0 (42_host_access.md R178). -/
def execNop (s : State) : Host.Outcome State Fault Refusal :=
  runCommand .control s (fun _ e => Completion.bare e s.memory) fun _ =>
    { error := none, resLen := 0#32, resCount := 0#32, resCfg := ResCfg.zero, memory := s.memory }

/-- An illegal command word completes at once with ILLEGAL_CMD and accesses no memory
(30_encoding.md R72, 60_exceptions.md R191). -/
def illegalCommand (s : State) : Host.Outcome State Fault Refusal :=
  runCommand .control s (fun _ e => Completion.bare e s.memory) fun _ => Completion.bare .illegalCmd s.memory

end Sys2Proof.Machine
end

