-- ==== Sys2Proof/Machine/Predictor.lean ====
section
/-! DEFINITION. The predictor: its hash functions and core (41_predictor.md R130 to R136), the compressed stream
(30_encoding.md R75 to R83), the encoder (R137 to R139) and the decoder (R143 to R146), each as a function on byte
sequences and values, and the four commands over them (R147 to R150). -/

namespace Sys2Proof.Machine

/-! ### Hash-update functions -/

/-- The hash-update functions of one width: old hash, value or stride, exponent (41_predictor.md R140). -/
structure HashPair (w : Nat) where
  update1 : Nat → BitVec w → Nat → Nat
  update2 : Nat → BitVec w → Nat → Nat

/-- The property R140(b): every result is below 2^E. -/
def HashPair.inRange {w : Nat} (h : HashPair w) : Prop :=
  ∀ old v e, h.update1 old v e < 2 ^ e ∧ h.update2 old v e < 2 ^ e

/-- ((h << a) ^ (v >> b)) & (2^E - 1), the form of the reference functions (R140). -/
def shiftXorHash (a b h v e : Nat) : Nat := ((h <<< a) ^^^ (v >>> b)) &&& (2 ^ e - 1)

/-- The reference instantiation (R140). -/
def referenceHash : (k : Width) → HashPair k.bits
  | .w32 => { update1 := fun h v e => shiftXorHash 6 24 h v.toNat e, update2 := fun h s e => shiftXorHash 2 20 h s.toNat e }
  | .w64 => { update1 := fun h v e => shiftXorHash 6 48 h v.toNat e, update2 := fun h s e => shiftXorHash 2 40 h s.toNat e }

/-- The open functions, cut to the range R140(b) asks for (log 8). -/
def customHash : (k : Width) → HashPair k.bits
  | .w32 => { update1 := fun h v e => Config.hashUpdate1_32 h v e % 2 ^ e
              update2 := fun h s e => Config.hashUpdate2_32 h s e % 2 ^ e }
  | .w64 => { update1 := fun h v e => Config.hashUpdate1_64 h v e % 2 ^ e
              update2 := fun h s e => Config.hashUpdate2_64 h s e % 2 ^ e }

/-- The block's functions for a width: "the same functions serve the encoder and the decoder" (R140(c)). -/
def hashPair (p : Platform) (k : Width) : HashPair k.bits :=
  match p.hash with
  | .reference => referenceHash k
  | .custom => customHash k

/-! ### Prediction and update -/

/-- The zero state of a predictor command (R130). -/
def PredictionState.zero (w : Nat) : PredictionState w :=
  { table1 := [], table2 := [], hash1 := 0, hash2 := 0, prediction1 := 0#w, prediction2 := 0#w, lastValue := 0#w }

/-- Both predictions of the next value (R131). -/
def PredictionState.predict {w : Nat} (p : PredictionState w) : PredictionState w :=
  { p with
    prediction1 := Sparse.get 0#w p.table1 p.hash1
    prediction2 := p.lastValue + Sparse.get 0#w p.table2 p.hash2 }

/-- Both halves of the update by value `v` (R132, R133): each table is written at the slot the prediction read, and only
then does the hash move. -/
def PredictionState.update {w : Nat} (h : HashPair w) (e1 e2 : Nat) (p : PredictionState w) (v : BitVec w) : PredictionState w :=
  let stride := v - p.lastValue
  { p with
    table1 := Sparse.put 0#w p.table1 p.hash1 v
    hash1 := h.update1 p.hash1 v e1
    table2 := Sparse.put 0#w p.table2 p.hash2 stride
    hash2 := h.update2 p.hash2 stride e2
    lastValue := v }

/-! ### Encoder -/

/-- A slot of a group: its code and its residual field (30_encoding.md R78 to R82). -/
structure Slot where
  code : Nat
  field : List Byte
deriving DecidableEq, Repr

/-- Code selection (R135, R136): `lmax` is 4 for W = 32 and 8 for W = 64. -/
def selectSlot (lmax r1 r2 : Nat) : Slot :=
  if max 1 (nb r2) < nb r1 then { code := lmax + max 1 (nb r2), field := beBytes r2 (max 1 (nb r2)) }
  else { code := nb r1, field := beBytes r1 (nb r1) }

/-- A padding entry: code 1 with the field 0x00 (30_encoding.md R83, 41_predictor.md R139). -/
def paddingSlot : Slot := { code := 1, field := [0#8] }

/-- Code one value: predictions, residuals (R134), code selection, update (R138, inner loop). -/
def encodeValue (k : Width) (h : HashPair k.bits) (e1 e2 : Nat) (p : PredictionState k.bits) (v : BitVec k.bits) :
    Slot × PredictionState k.bits :=
  let p := p.predict
  (selectSlot k.bytes (v ^^^ p.prediction1).toNat (v ^^^ p.prediction2).toNat, p.update h e1 e2 v)

/-- The slots of one group: the values that are left, then padding (R138, R139). -/
def encodeSlots (k : Width) (h : HashPair k.bits) (e1 e2 : Nat) :
    Nat → PredictionState k.bits → List (BitVec k.bits) → List Slot × PredictionState k.bits
  | 0, p, _ => ([], p)
  | j + 1, p, [] =>
    let (slots, q) := encodeSlots k h e1 e2 j p []
    (paddingSlot :: slots, q)
  | j + 1, p, v :: vs =>
    let (slot, q) := encodeValue k h e1 e2 p v
    let (slots, q) := encodeSlots k h e1 e2 j q vs
    (slot :: slots, q)

/-- The code bytes of a group: the codes side by side, the first in the most significant bits, stored big-endian
(30_encoding.md R78, R79). -/
def packCodes (k : Width) (codes : List Nat) : List Byte :=
  beBytes (codes.foldl (fun acc c => acc <<< k.codeBits ||| c) 0) k.codeBytes

/-- A group record: code bytes, then the fields in slot order (30_encoding.md R78, R79). -/
def groupRecord (k : Width) (slots : List Slot) : List Byte :=
  packCodes k (slots.map Slot.code) ++ slots.flatMap Slot.field

/-- `m` groups of the values that are left (R138). -/
def encodeGroups (k : Width) (h : HashPair k.bits) (e1 e2 : Nat) :
    Nat → PredictionState k.bits → List (BitVec k.bits) → List Byte
  | 0, _, _ => []
  | m + 1, p, vs =>
    let (slots, q) := encodeSlots k h e1 e2 k.group p vs
    groupRecord k slots ++ encodeGroups k h e1 e2 m q (vs.drop k.group)

/-- The header byte ((E1 >> 1) << 4) | (E2 >> 1) (R137, 30_encoding.md R76). -/
def headerByte (e1 e2 : Nat) : Byte := BitVec.ofNat 8 ((e1 >>> 1) <<< 4 ||| e2 >>> 1)

/-- The compressed stream: header ++ count ++ groups (30_encoding.md R75 to R77, 41_predictor.md R137, R138). -/
def encodeStream (k : Width) (h : HashPair k.bits) (e1 e2 : Nat) (vs : List (BitVec k.bits)) : List Byte :=
  headerByte e1 e2 :: beBytes vs.length 4 ++
    encodeGroups k h e1 e2 (ceilDiv vs.length k.group) (PredictionState.zero k.bits) vs

/-! ### Decoder -/

/-- The decoder's place in its input: the byte position and the bytes from there on (10_state.md R21). -/
structure Reader where
  pos : Nat
  rest : List Byte
deriving DecidableEq, Repr

/-- The first `n` bytes and the others, where there are as many. -/
def takeBytes : Nat → List Byte → Option (List Byte × List Byte)
  | 0, bs => some ([], bs)
  | _ + 1, [] => none
  | n + 1, b :: bs =>
    match takeBytes n bs with
    | some (xs, rest) => some (b :: xs, rest)
    | none => none

/-- read(L): none is UNEXPECTED_EOF (41_predictor.md R145). -/
def Reader.read (r : Reader) (n : Nat) : Option (List Byte × Reader) :=
  match takeBytes n r.rest with
  | some (xs, rest) => some (xs, { pos := r.pos + n, rest := rest })
  | none => none

/-- The codes of a group's code bytes (30_encoding.md R78, R79). -/
def unpackCodes (k : Width) (bs : List Byte) : List Nat :=
  (List.range k.group).map fun j => (beValue bs >>> (k.codeBits * (k.group - 1 - j))) % 2 ^ k.codeBits

/-- len_W(code), the field length of a code (30_encoding.md R80, R81). -/
def fieldLength (k : Width) (c : Nat) : Nat := if c ≤ k.bytes then c else c - k.bytes

/-- The prediction that a code's residual is taken against (30_encoding.md R80, R81). -/
def basePrediction (k : Width) (c : Nat) (p : PredictionState k.bits) : BitVec k.bits :=
  if c ≤ k.bytes then p.prediction1 else p.prediction2

/-- Decode one value of code `c` (41_predictor.md R145). -/
def decodeValue (k : Width) (h : HashPair k.bits) (e1 e2 c : Nat) (p : PredictionState k.bits) (r : Reader) :
    Option (BitVec k.bits × PredictionState k.bits × Reader) :=
  let p := p.predict
  match r.read (fieldLength k c) with
  | some (field, r) =>
    let v := basePrediction k c p ^^^ BitVec.ofNat k.bits (beValue field)
    some (v, p.update h e1 e2 v, r)
  | none => none

/-- Decode the value slots of one group (41_predictor.md R146, inner loop). -/
def decodeSlots (k : Width) (h : HashPair k.bits) (e1 e2 : Nat) :
    List Nat → PredictionState k.bits → Reader → Option (List (BitVec k.bits) × PredictionState k.bits × Reader)
  | [], p, r => some ([], p, r)
  | c :: cs, p, r =>
    match decodeValue k h e1 e2 c p r with
    | some (v, p, r) =>
      match decodeSlots k h e1 e2 cs p r with
      | some (vs, p, r) => some (v :: vs, p, r)
      | none => none
    | none => none

/-- Decode `m` groups that hold `n` values (41_predictor.md R146): the slots past the count are never read. -/
def decodeGroups (k : Width) (h : HashPair k.bits) (e1 e2 : Nat) :
    (m n : Nat) → PredictionState k.bits → Reader → Option (List (BitVec k.bits) × Reader)
  | 0, _, _, r => some ([], r)
  | m + 1, n, p, r =>
    match r.read k.codeBytes with
    | some (cb, r) =>
      match decodeSlots k h e1 e2 ((unpackCodes k cb).take (min k.group n)) p r with
      | some (vs, p, r) =>
        match decodeGroups k h e1 e2 m (n - min k.group n) p r with
        | some (ws, r) => some (vs ++ ws, r)
        | none => none
      | none => none
    | none => none

/-- What a decompress command learns from the 5-byte header (41_predictor.md R143). -/
structure Header where
  e1 : Nat
  e2 : Nat
  count : Nat
deriving DecidableEq, Repr

/-- The header of the stream at `src`: E1 = 2·H1, E2 = 2·H2, n big-endian (30_encoding.md R76, R77; 41_predictor.md R143). -/
def readHeader (m : Memory) (src : Nat) : Header where
  e1 := 2 * ((readByte m src).extractLsb' 4 4).toNat
  e2 := 2 * ((readByte m src).extractLsb' 0 4).toNat
  count := beValue (readBytes m (src + 1) 4)

/-- Decode the `n` values of a stream whose bytes after the header are `rest`, and the bytes consumed
(41_predictor.md R130, R146). None is UNEXPECTED_EOF. -/
def decodeStream (k : Width) (h : HashPair k.bits) (e1 e2 n : Nat) (rest : List Byte) : Option (List (BitVec k.bits) × Nat) :=
  match decodeGroups k h e1 e2 (ceilDiv n k.group) n (PredictionState.zero k.bits) { pos := 5, rest := rest } with
  | some (vs, r) => some (vs, r.pos)
  | none => none

/-! ### Elements in memory -/

/-- The `n` elements of W/8 bytes from `a` on, little-endian (20_memory.md R52). -/
def readElements (k : Width) (m : Memory) (a : Nat) : Nat → List (BitVec k.bits)
  | 0 => []
  | n + 1 => BitVec.ofNat k.bits (memRead m a k.bytes) :: readElements k m (a + k.bytes) n

/-- Write elements from `a` on, little-endian (20_memory.md R52). -/
def writeElements (k : Width) (m : Memory) (a : Nat) : List (BitVec k.bits) → Memory
  | [] => m
  | v :: vs => writeElements k (memWrite m a k.bytes v.toNat) (a + k.bytes) vs

/-! ### The commands -/

/-- E1_eff of a compress command (30_encoding.md R73). -/
def effectiveE1 (k : Width) (p : Platform) (j : Snapshot) : Nat := normExponent p.eMax (j.hashCfg.e1 k)

/-- E2_eff of a compress command (30_encoding.md R73). -/
def effectiveE2 (k : Width) (p : Platform) (j : Snapshot) : Nat := normExponent p.eMax (j.hashCfg.e2 k)

/-- The stream that a compress command forms (41_predictor.md R147, R149). -/
def compressedStream (k : Width) (p : Platform) (j : Snapshot) (m : Memory) : List Byte :=
  encodeStream k (hashPair p k) (effectiveE1 k p j) (effectiveE2 k p j) (readElements k m j.src j.n)

/-- PCOMP_W after its precheck (41_predictor.md R147, R149): the stream, or DST_FULL with its length and every byte of
(DST, CAP) unspecified (60_exceptions.md R194, R202; 90_conflicts.md C5). -/
def compressBody (k : Width) (s : State) (j : Snapshot) : Completion :=
  let out := compressedStream k s.platform j s.memory
  let cfg := ResCfg.ofExponents (effectiveE1 k s.platform j) (effectiveE2 k s.platform j)
  if j.cap < out.length then
    { error := some .dstFull, resLen := sat out.length, resCount := j.srcLen, resCfg := cfg
      memory := freeRegion s.memory s.draws j.dst j.cap }
  else
    { error := none, resLen := BitVec.ofNat 32 out.length, resCount := j.srcLen, resCfg := cfg
      memory := writeBytes s.memory j.dst out }

/-- PDECOMP_W after its precheck (41_predictor.md R143, R144, R146; 60_exceptions.md R194, R200, R202). -/
def decompressBody (k : Width) (s : State) (j : Snapshot) : Completion :=
  if j.n < 5 then Completion.bare .unexpectedEof s.memory
  else
    let hd := readHeader s.memory j.src
    let cfg := ResCfg.ofExponents hd.e1 hd.e2
    let fail := fun (e : ErrorCode) (len : Word) (m : Memory) =>
      ({ error := some e, resLen := len, resCount := BitVec.ofNat 32 hd.count, resCfg := cfg, memory := m } : Completion)
    if s.platform.eMax < hd.e1 ∨ s.platform.eMax < hd.e2 then fail .unsupportedCfg 0#32 s.memory
    else if j.n < 5 + ceilDiv hd.count k.group * k.codeBytes then fail .corruptLength 0#32 s.memory
    else if j.cap < hd.count * k.bytes then fail .dstFull (sat (hd.count * k.bytes)) s.memory
    else
      match decodeStream k (hashPair s.platform k) hd.e1 hd.e2 hd.count (readBytes s.memory (j.src + 5) (j.n - 5)) with
      | none => fail .unexpectedEof 0#32 (freeRegion s.memory s.draws j.dst (hd.count * k.bytes))
      | some (vs, pos) =>
        { error := none, resLen := BitVec.ofNat 32 pos, resCount := BitVec.ofNat 32 hd.count, resCfg := cfg
          memory := writeElements k s.memory j.dst vs }

/-- PCOMP32 (41_predictor.md R147). -/
def execPcomp32 (s : State) : Host.Outcome State Fault Refusal :=
  runCommand (.compress .w32) s (fun _ e => Completion.bare e s.memory) (compressBody .w32 s)

/-- PDECOMP32 (41_predictor.md R148). -/
def execPdecomp32 (s : State) : Host.Outcome State Fault Refusal :=
  runCommand (.decompress .w32) s (fun _ e => Completion.bare e s.memory) (decompressBody .w32 s)

/-- PCOMP64 (41_predictor.md R149). -/
def execPcomp64 (s : State) : Host.Outcome State Fault Refusal :=
  runCommand (.compress .w64) s (fun _ e => Completion.bare e s.memory) (compressBody .w64 s)

/-- PDECOMP64 (41_predictor.md R150). -/
def execPdecomp64 (s : State) : Host.Outcome State Fault Refusal :=
  runCommand (.decompress .w64) s (fun _ e => Completion.bare e s.memory) (decompressBody .w64 s)

end Sys2Proof.Machine
end

