-- ==== Sys2Proof/Machine/Transposer.lean ====
section
/-! DEFINITION. The plane transposer commands (40_plane_transposer.md). -/

namespace Sys2Proof.Machine

/-- split3: element 3i+p of the interleaved array to element i of plane p (40_plane_transposer.md R103, R105). -/
def split3 (size : Nat) (j : Snapshot) (m : Memory) : Memory :=
  loop (fun i m =>
    loop (fun p m =>
      memWrite m (j.dst + p * j.pitch + i * size) size (memRead m (j.src + (3 * i + p) * size) size)) 3 m) j.n m

/-- merge3: element i of plane p to element 3i+p of the interleaved array (R104, R106). -/
def merge3 (size : Nat) (j : Snapshot) (m : Memory) : Memory :=
  loop (fun i m =>
    loop (fun p m =>
      memWrite m (j.dst + (3 * i + p) * size) size (memRead m (j.src + p * j.pitch + i * size) size)) 3 m) j.n m

/-- split_bytes_k: byte b of value i to byte i of plane b (R107, R109, R111). -/
def splitBytes (k : Nat) (j : Snapshot) (m : Memory) : Memory :=
  loop (fun i m =>
    let v := memRead m (j.src + i * k) k
    loop (fun b m => memWrite m (j.dst + b * j.pitch + i) 1 (byteOf v b).toNat) k m) j.n m

/-- Value i of a merge: plane b supplies byte b (R108, R110, R112). -/
def mergedValue (k : Nat) (j : Snapshot) (m : Memory) (i : Nat) : Nat :=
  loop (fun b v => v ||| memRead m (j.src + b * j.pitch + i) 1 <<< (8 * b)) k 0

/-- merge_bytes_k: value i from byte i of every plane (R108, R110, R112). -/
def mergeBytes (k : Nat) (j : Snapshot) (m : Memory) : Memory :=
  loop (fun i m => memWrite m (j.dst + i * k) k (mergedValue k j m i)) j.n m

/-- A precheck error of a transposer command: DST_FULL reports the extent needed and n, the others report 0
(60_exceptions.md R194). -/
def transposerFailed (sh : Shape) (m : Memory) (j : Snapshot) : ErrorCode → Completion
  | .dstFull =>
    { error := some .dstFull, resLen := sat (extentOf sh j), resCount := j.srcLen, resCfg := ResCfg.zero, memory := m }
  | e => Completion.bare e m

/-- A transposer command: the precheck of R101, then `move`, with RES_LEN = P·n·S and RES_COUNT = n (R102). -/
def transpose (sh : Shape) (bytes : Snapshot → Nat) (move : Snapshot → Memory → Memory) (s : State) :
    Host.Outcome State Fault Refusal :=
  runCommand sh s (transposerFailed sh s.memory) fun j =>
    { error := none, resLen := BitVec.ofNat 32 (bytes j), resCount := j.srcLen, resCfg := ResCfg.zero
      memory := move j s.memory }

/-- SPLIT3W32 (40_plane_transposer.md R103). -/
def execSplit3w32 (s : State) : Host.Outcome State Fault Refusal :=
  transpose (.split 3 4) (fun j => 3 * j.n * 4) (split3 4) s

/-- MERGE3W32 (R104). -/
def execMerge3w32 (s : State) : Host.Outcome State Fault Refusal :=
  transpose (.merge 3 4) (fun j => 3 * j.n * 4) (merge3 4) s

/-- SPLIT3W64 (R105). -/
def execSplit3w64 (s : State) : Host.Outcome State Fault Refusal :=
  transpose (.split 3 8) (fun j => 3 * j.n * 8) (split3 8) s

/-- MERGE3W64 (R106). -/
def execMerge3w64 (s : State) : Host.Outcome State Fault Refusal :=
  transpose (.merge 3 8) (fun j => 3 * j.n * 8) (merge3 8) s

/-- SPLITB2 (R107). -/
def execSplitb2 (s : State) : Host.Outcome State Fault Refusal :=
  transpose (.split 2 1) (fun j => 2 * j.n) (splitBytes 2) s

/-- MERGEB2 (R108). -/
def execMergeb2 (s : State) : Host.Outcome State Fault Refusal :=
  transpose (.merge 2 1) (fun j => 2 * j.n) (mergeBytes 2) s

/-- SPLITB4 (R109). -/
def execSplitb4 (s : State) : Host.Outcome State Fault Refusal :=
  transpose (.split 4 1) (fun j => 4 * j.n) (splitBytes 4) s

/-- MERGEB4 (R110). -/
def execMergeb4 (s : State) : Host.Outcome State Fault Refusal :=
  transpose (.merge 4 1) (fun j => 4 * j.n) (mergeBytes 4) s

/-- SPLITB8 (R111). -/
def execSplitb8 (s : State) : Host.Outcome State Fault Refusal :=
  transpose (.split 8 1) (fun j => 8 * j.n) (splitBytes 8) s

/-- MERGEB8 (R112). -/
def execMergeb8 (s : State) : Host.Outcome State Fault Refusal :=
  transpose (.merge 8 1) (fun j => 8 * j.n) (mergeBytes 8) s

end Sys2Proof.Machine
end

