-- ==== Sys2Proof/Machine/Dispatch.lean ====
section
/-! DEFINITION. One arm per command (42_host_access.md R180(b)). -/

namespace Sys2Proof.Machine

def exec (i : Instr) (s : State) : Host.Outcome State Fault Refusal :=
  match i with
  | .nop => Sys2Proof.Machine.execNop s
  | .pcomp32 => Sys2Proof.Machine.execPcomp32 s
  | .pdecomp32 => Sys2Proof.Machine.execPdecomp32 s
  | .pcomp64 => Sys2Proof.Machine.execPcomp64 s
  | .pdecomp64 => Sys2Proof.Machine.execPdecomp64 s
  | .split3w32 => Sys2Proof.Machine.execSplit3w32 s
  | .merge3w32 => Sys2Proof.Machine.execMerge3w32 s
  | .split3w64 => Sys2Proof.Machine.execSplit3w64 s
  | .merge3w64 => Sys2Proof.Machine.execMerge3w64 s
  | .splitb2 => Sys2Proof.Machine.execSplitb2 s
  | .mergeb2 => Sys2Proof.Machine.execMergeb2 s
  | .splitb4 => Sys2Proof.Machine.execSplitb4 s
  | .mergeb4 => Sys2Proof.Machine.execMergeb4 s
  | .splitb8 => Sys2Proof.Machine.execSplitb8 s
  | .mergeb8 => Sys2Proof.Machine.execMergeb8 s

end Sys2Proof.Machine
end

