-- ==== Sys2Proof/Machine/HostAccess.lean ====
section
/-! DEFINITION. The register window (10_state.md R22), host reads and writes of it (42_host_access.md R170 to R177, R179;
20_memory.md R67), and what an agent's memory access does while a command is in flight
(70_reset_and_hazards.md R224 to R226). -/

namespace Sys2Proof.Machine

/-- The registers of the window (10_state.md R22). -/
inductive RegName where
  | id
  | ctrl
  | status
  | cmd
  | hashCfg
  | srcAddr
  | srcLen
  | dstAddr
  | dstCap
  | planeStride
  | resLen
  | resCount
  | resCfg
deriving DecidableEq, Repr

/-- A register's offset in the window (10_state.md R22). -/
def RegName.offset : RegName → Nat
  | .id => 0x00
  | .ctrl => 0x04
  | .status => 0x08
  | .cmd => 0x0C
  | .hashCfg => 0x10
  | .srcAddr => 0x14
  | .srcLen => 0x18
  | .dstAddr => 0x1C
  | .dstCap => 0x20
  | .planeStride => 0x24
  | .resLen => 0x28
  | .resCount => 0x2C
  | .resCfg => 0x30

/-- The register at an offset; none is a reserved slot (10_state.md R22, R40). -/
def regAt : Nat → Option RegName
  | 0x00 => some .id
  | 0x04 => some .ctrl
  | 0x08 => some .status
  | 0x0C => some .cmd
  | 0x10 => some .hashCfg
  | 0x14 => some .srcAddr
  | 0x18 => some .srcLen
  | 0x1C => some .dstAddr
  | 0x20 => some .dstCap
  | 0x24 => some .planeStride
  | 0x28 => some .resLen
  | 0x2C => some .resCount
  | 0x30 => some .resCfg
  | _ => none

/-- What a bus access to the window is. -/
inductive WindowAccess where
  | slot (offset : Nat)
  | refused (r : Refusal)
deriving DecidableEq, Repr

/-- Decode a bus access: 256 bytes from REG_BASE (10_state.md R22), 32-bit accesses at multiples of 4 (20_memory.md R67). -/
def windowAccess (p : Platform) (addr size : Nat) : WindowAccess :=
  if addr < p.regBase ∨ p.regBase + 256 ≤ addr then .refused .outsideWindow
  else if size = 4 ∧ (addr - p.regBase) % 4 = 0 then .slot (addr - p.regBase)
  else .refused .windowAccessUndefined

/-- The value of a register as the host reads it, reserved bits 0 (42_host_access.md R170). -/
def readReg (s : State) : RegName → Word
  | .id => Config.idValue
  | .ctrl => ctrlWord s.irqEn
  | .status => statusWord s.busy s.status
  | .cmd => s.cmd
  | .hashCfg => s.hashCfg.toWord
  | .srcAddr => s.srcAddr
  | .srcLen => s.srcLen
  | .dstAddr => s.dstAddr
  | .dstCap => s.dstCap
  | .planeStride => s.planeStride
  | .resLen => s.resLen
  | .resCount => s.resCount
  | .resCfg => s.resCfg.toWord

/-- The value at an offset; a reserved slot reads 0 (10_state.md R40). -/
def readSlot (s : State) (offset : Nat) : Word :=
  match regAt offset with
  | some r => readReg s r
  | none => 0#32

/-- A write of CTRL: IRQ_EN first, then the soft reset if bit 1 is set (42_host_access.md R172, R179). -/
def writeCtrl (x : Word) (s : State) : State :=
  let s := { s with irqEn := x.getLsbD 0 }
  if x.getLsbD 1 then resetBlock s else s

/-- A write of CMD: acceptance while IDLE (42_host_access.md R174), OVERRUN while BUSY (R175). -/
def writeCmd (x : Word) (s : State) : State :=
  match s.engine with
  | .idle => accept x s
  | .busy _ => { s with status := s.status.overran }

/-- A write of a register (42_host_access.md R171 to R177). -/
def writeReg (x : Word) (s : State) : RegName → State
  | .id => s
  | .ctrl => writeCtrl x s
  | .status => { s with status := s.status.clear x }
  | .cmd => writeCmd x s
  | .hashCfg => { s with hashCfg := HashCfg.ofWord x }
  | .srcAddr => { s with srcAddr := x }
  | .srcLen => { s with srcLen := x }
  | .dstAddr => { s with dstAddr := x }
  | .dstCap => { s with dstCap := x }
  | .planeStride => { s with planeStride := x }
  | .resLen => s
  | .resCount => s
  | .resCfg => s

/-- A write at an offset; a reserved slot ignores it (42_host_access.md R177). -/
def writeSlot (x : Word) (s : State) (offset : Nat) : State :=
  match regAt offset with
  | some r => writeReg x s r
  | none => s

/-- A host read transaction: no side effect on the block; the reader gets the value (42_host_access.md R170). -/
def hostRead (addr size : Nat) (s : State) : Host.Outcome State Fault Refusal :=
  match windowAccess s.platform addr size with
  | .slot o => .next { s with readData := readSlot s o }
  | .refused r => .refused r

/-- A host write transaction (42_host_access.md R171). -/
def hostWrite (addr size : Nat) (x : Word) (s : State) : Host.Outcome State Fault Refusal :=
  match windowAccess s.platform addr size with
  | .slot o => .next (writeSlot x s o)
  | .refused r => .refused r

/-- One read of a POLL; it stays pending until (read & mask) = value (30_encoding.md R88). -/
def hostPoll (addr : Nat) (mask value : Word) (s : State) : Host.Outcome State Fault Refusal :=
  match windowAccess s.platform addr 4 with
  | .slot o =>
    if readSlot s o &&& mask = value then .next { s with readData := readSlot s o }
    else .next { s with readData := readSlot s o, inputs := .poll addr mask value :: s.inputs }
  | .refused r => .refused r

/-- The byte at `a` belongs to a device (20_memory.md R57). -/
def onDevice (p : Platform) (a : Nat) : Bool := p.devices.any fun q => q.covers a

/-- What an agent's write of byte `a` leaves in the hazard record of the command in flight
(70_reset_and_hazards.md R224, R226). -/
def Job.noteWrite (job : Job) (a : Word) : Job :=
  { job with
    inputTouched := job.inputTouched || job.regions.inputCovers a.toNat
    outputTouched := if job.regions.outputCovers a.toNat then a :: job.outputTouched else job.outputTouched }

/-- The engine after an agent wrote byte `a`. -/
def Engine.noteWrite (a : Word) : Engine → Engine
  | .idle => .idle
  | .busy job => .busy (job.noteWrite a)

/-- An agent writes a byte of memory; the write "itself takes effect normally" (70_reset_and_hazards.md R224). -/
def agentWrite (a : Word) (b : Byte) (s : State) : Host.Outcome State Fault Refusal :=
  if onDevice s.platform a.toNat then .refused .deviceAccess
  else .next { s with memory := writeByte s.memory a.toNat b, engine := s.engine.noteWrite a }

/-- The byte is an output byte of the command in flight. -/
def Engine.outputCovers (a : Word) : Engine → Bool
  | .idle => false
  | .busy job => job.regions.outputCovers a.toNat

/-- An agent reads a byte of memory: an output byte of the command in flight reads as any value
(70_reset_and_hazards.md R225). -/
def agentRead (a : Word) (s : State) : Host.Outcome State Fault Refusal :=
  if onDevice s.platform a.toNat then .refused .deviceAccess
  else if s.engine.outputCovers a then
    .next { s with readData := 0#24 ++ Config.freeByte s.draws a.toNat, draws := s.draws + 1 }
  else .next { s with readData := 0#24 ++ readByte s.memory a.toNat }

/-- The platform gates an idle block's clock or power: "the block must keep every register's value, or behave as if
reset" (60_exceptions.md R213; log 20). -/
def powerCycle (retained : Bool) (s : State) : Host.Outcome State Fault Refusal :=
  match s.engine with
  | .idle => .next (if retained then s else resetBlock s)
  | .busy _ => .refused .powerGatedWhileBusy

/-- One transaction of the outside world. -/
def hostStep (op : HostOp) (s : State) : Host.Outcome State Fault Refusal :=
  match op with
  | .read addr size => hostRead addr size s
  | .write addr size x => hostWrite addr size x s
  | .poll addr mask value => hostPoll addr mask value s
  | .memRead a => agentRead a s
  | .memWrite a b => agentWrite a b s
  | .rst => .next (resetBlock s)
  | .powerGate retained => powerCycle retained s

end Sys2Proof.Machine
end

