-- ==== Sys2Proof/Machine/Agents.lean ====
section
/-! DEFINITION. The two agents' steps and which of them moves next (42_host_access.md, R180; 70_reset_and_hazards.md
R231; log 3, log 4). -/

namespace Sys2Proof.Machine

/-- The engine step: decode the accepted word and run its command, or complete with ILLEGAL_CMD
(42_host_access.md R180). -/
def engineStep (s : State) : Host.Outcome State Fault Refusal :=
  match s.engine with
  | .idle => .next s
  | .busy job =>
    match decodeWord job.snap.cmd with
    | .command i => exec i s
    | .illegal _ => illegalCommand s

/-- One transaction nearer to the engine step. -/
def Engine.tick : Engine → Engine
  | .idle => .idle
  | .busy job => .busy { job with wait := job.wait - 1 }

/-- The outside world's turn: its oldest pending transaction, or nothing at all. -/
def hostTurn (s : State) : Host.Outcome State Fault Refusal :=
  match s.inputs with
  | [] => .next s
  | op :: rest => hostStep op { s with inputs := rest, engine := s.engine.tick }

/-- The engine moves next: a command is in flight, and its wait is over or nothing else is pending
(70_reset_and_hazards.md R231: the engine step is always eventually taken). -/
def State.engineTurn (s : State) : Bool :=
  match s.engine with
  | .idle => false
  | .busy job => job.wait == 0 || s.inputs.isEmpty

/-- One step of the machine; a platform that R7 rejects has none. -/
def stepAgents (s : State) : Host.Outcome State Fault Refusal :=
  if s.platform.wf then
    if s.engineTurn then engineStep s else hostTurn s
  else .refused .configurationRejected

/-- `s` with command word `x` accepted (42_host_access.md R174) and the engine to move next: how a command comes to be
the next thing the machine runs (log 15). -/
def commandPlaced (x : Word) (s : State) : State := acceptWith 0 x s

end Sys2Proof.Machine
end

