-- ==== Sys2Proof/Machine/Step.lean ====
section
/-! DEFINITION. The step of the machine, and how a command word is placed to be the next one run. -/

namespace Sys2Proof.Machine

/-- One step: the engine's or the outside world's (42_host_access.md R180; Machine/Agents.lean). -/
def step (s : State) : Host.Outcome State Fault Refusal := stepAgents s

/-- `s` with command word `w` accepted and the engine step next (log 15). A command word has 32 bits (30_encoding.md R70). -/
def State.withFetchWord (s : State) (_nbits w : Nat) : State := commandPlaced (BitVec.ofNat 32 w) s

end Sys2Proof.Machine
end

