-- ==== Sys2Proof/Machine/HostNotation.lean ====
section
/-! DEFINITION. The host notation (30_encoding.md R88, R89): each statement and pseudo-instruction as the bus transactions
it stands for. -/

namespace Sys2Proof.Machine

/-- A statement of the host notation (30_encoding.md R88, R89). -/
inductive HostStmt where
  | wr (r : RegName) (x : Word)
  | rd (r : RegName)
  | poll (r : RegName) (mask value : Word)
  | cmd (i : Instr)
  | run (i : Instr) (src len dst cap : Word)
  | runPitch (i : Instr) (src len dst cap stride : Word)
  | ack
  | setHash (a b c d : Word)
  | irqOn
  | sReset
deriving DecidableEq, Repr

/-- A write transaction to a register, at REG_BASE plus its offset. -/
def busWrite (base : Nat) (r : RegName) (x : Word) : HostOp := .write (base + r.offset) 4 x

/-- The transactions that set up a RUN's operands (30_encoding.md R89). -/
def runOperands (base : Nat) (src len dst cap : Word) : List HostOp :=
  [busWrite base .srcAddr src, busWrite base .srcLen len, busWrite base .dstAddr dst, busWrite base .dstCap cap]

/-- The transactions that issue a command and wait for DONE (30_encoding.md R89). -/
def issueAndPoll (base : Nat) (i : Instr) : List HostOp :=
  [busWrite base .cmd (encode i), .poll (base + RegName.status.offset) 0x2#32 0x2#32]

/-- The bus transactions of a statement (30_encoding.md R88, R89). -/
def HostStmt.transactions (base : Nat) : HostStmt → List HostOp
  | .wr r x => [busWrite base r x]
  | .rd r => [.read (base + r.offset) 4]
  | .poll r mask value => [.poll (base + r.offset) mask value]
  | .cmd i => [busWrite base .cmd (encode i)]
  | .run i src len dst cap => runOperands base src len dst cap ++ issueAndPoll base i
  | .runPitch i src len dst cap stride =>
    runOperands base src len dst cap ++ busWrite base .planeStride stride :: issueAndPoll base i
  | .ack => [busWrite base .status 0x0000000E#32]
  | .setHash a b c d => [busWrite base .hashCfg (d <<< 24 ||| c <<< 16 ||| b <<< 8 ||| a)]
  | .irqOn => [busWrite base .ctrl 0x1#32]
  | .sReset => [busWrite base .ctrl 0x2#32]

/-- The bus transactions of a program, in order. -/
def transactions (base : Nat) (prog : List HostStmt) : List HostOp := prog.flatMap (HostStmt.transactions base)

/-- MEM a: b0 b1 ... puts start-state bytes at a, a+1, ...; it is not a transaction (30_encoding.md R88). -/
def State.withBytes (s : State) (a : Nat) (bs : List Byte) : State := { s with memory := writeBytes s.memory a bs }

end Sys2Proof.Machine
end

