-- ==== Sys2Proof/Safety.lean ====
section
/-! DEFINITION. The terms the claims are stated in: the machine's invariant, what a command runs under, how it
completed, what it left alone, and the turns of the host. -/

namespace Sys2Proof

/-- The region holds address `a` (20_memory.md R58). -/
def Region.holds (q : Region) (a : Nat) : Prop := q.start ≤ a ∧ a < q.start + q.len

/-- The regions share an address (20_memory.md R59). -/
def Region.shares (q r : Region) : Prop := ∃ a, q.holds a ∧ r.holds a

end Sys2Proof

namespace Sys2Proof.Machine

/-- The byte of memory at `a`. -/
def State.byte (s : State) (a : Nat) : Byte := readByte s.memory a

/-- What holds after reset and after every step: memory is canonical; "BUSY = 1 ⇒ DONE = 0" (10_state.md R26), and while
BUSY the results and the error are clear (70_reset_and_hazards.md R228); ERR and ERRCODE agree (10_state.md R28); codes 9
to 15 are never reported (60_exceptions.md R190); CMD reads as the command in flight (10_state.md R30, R41). -/
structure State.Inv (s : State) : Prop where
  memoryCanonical : Memory.wf s.memory
  busyIsClear : s.busy = true → s.status.done = false ∧ s.status.err = false ∧ s.status.errcode = 0#4 ∧
    s.resLen = 0#32 ∧ s.resCount = 0#32 ∧ s.resCfg = ResCfg.zero
  errAgrees : s.status.err = true ↔ s.status.errcode ≠ 0#4
  errcodeKnown : s.status.errcode.toNat ≤ 8
  cmdInFlight : ∀ job, s.engine = .busy job → job.snap.cmd = s.cmd

/-- No agent touched the regions of the command in flight: the host keeps the hazard rules R224 and R226. -/
def Job.undisturbed (job : Job) : Prop := job.inputTouched = false ∧ job.outputTouched = []

/-- The engine holds `job`, and no agent disturbed it. -/
structure InFlight (s : State) (job : Job) : Prop where
  busy : s.engine = .busy job
  quiet : job.undisturbed

/-- A command of shape `sh` runs to its own effect: in flight, its precheck passes, and it meets no device. -/
structure Runs (s : State) (sh : Shape) (job : Job) : Prop extends InFlight s job where
  checked : precheck sh s.platform job.snap = none
  noDevice : (regionsOf sh job.snap).meetsDevice s.platform = false

/-- How the last command completed (60_exceptions.md R194, R201): with ERRCODE `code`, a number of R190, and with RES_CFG
reading as the number `cfg`. -/
structure Completed (t : State) (code : BitVec 4) (len count : Word) (cfg : Nat) : Prop where
  idle : t.engine = .idle
  done : t.status.done = true
  err : t.status.err = decide (code ≠ 0#4)
  errcode : t.status.errcode = code
  resLen : t.resLen = len
  resCount : t.resCount = count
  resCfg : readReg t .resCfg = BitVec.ofNat 32 cfg

/-- What no command writes: the configuration registers, CTRL, OVERRUN, CMD, the platform, and the outside world's own
fields (10_state.md R29, R45). -/
structure ConfigKept (s t : State) : Prop where
  platform : t.platform = s.platform
  irqEn : t.irqEn = s.irqEn
  overrun : t.status.overrun = s.status.overrun
  cmd : t.cmd = s.cmd
  hashCfg : t.hashCfg = s.hashCfg
  srcAddr : t.srcAddr = s.srcAddr
  srcLen : t.srcLen = s.srcLen
  dstAddr : t.dstAddr = s.dstAddr
  dstCap : t.dstCap = s.dstCap
  planeStride : t.planeStride = s.planeStride
  inputs : t.inputs = s.inputs
  readData : t.readData = s.readData
  delays : t.delays = s.delays

/-- Every byte outside the regions of `rs` reads as before. -/
def BytesKeptOutside (rs : List Region) (s t : State) : Prop :=
  ∀ a, (rs.any fun q => q.covers a) = false → t.byte a = s.byte a

/-- Every byte of memory reads as before. -/
def BytesKept (s t : State) : Prop := ∀ a, t.byte a = s.byte a

/-- Every register as after reset (10_state.md R46), the engine IDLE, the irq line low. -/
structure RegistersReset (t : State) : Prop where
  id : readReg t .id = 0x54524943#32
  ctrl : readReg t .ctrl = 0#32
  status : readReg t .status = 0#32
  cmd : readReg t .cmd = 0#32
  hashCfg : readReg t .hashCfg = 0x14140A04#32
  srcAddr : readReg t .srcAddr = 0#32
  srcLen : readReg t .srcLen = 0#32
  dstAddr : readReg t .dstAddr = 0#32
  dstCap : readReg t .dstCap = 0#32
  planeStride : readReg t .planeStride = 0#32
  resLen : readReg t .resLen = 0#32
  resCount : readReg t .resCount = 0#32
  resCfg : readReg t .resCfg = 0#32
  idle : t.engine = .idle
  irqLow : t.irq = false

/-- The state in which the oldest transaction has left the list and the engine step is one transaction nearer. -/
def State.turned (s : State) (rest : List HostOp) : State := { s with inputs := rest, engine := s.engine.tick }

/-- It is the outside world's turn, and its oldest transaction is `op`. -/
structure Turn (s : State) (op : HostOp) (rest : List HostOp) : Prop where
  platformWf : s.platform.wf = true
  notEngine : s.engineTurn = false
  oldest : s.inputs = op :: rest

/-- `k` steps of the machine, or the first stop on the way. -/
def runSteps : Nat → State → Host.Outcome State Fault Refusal
  | 0, s => .next s
  | k + 1, s =>
    match step s with
    | .next s => runSteps k s
    | .fault f => .fault f
    | .refused r => .refused r

/-- A declared region of nonzero length passes 2^32 (60_exceptions.md R192). -/
def Regions.passesEnd (r : Regions) : Prop := ∃ q ∈ r.inputs ++ r.outputs, 0 < q.len ∧ 2 ^ 32 < q.start + q.len

/-- An input shares an address with an output, or two outputs do (60_exceptions.md R193, 20_memory.md R59). -/
def Regions.collide (r : Regions) : Prop :=
  (∃ i ∈ r.inputs, ∃ o ∈ r.outputs, i.shares o) ∨ ¬ r.outputs.Pairwise fun o q => ¬ o.shares q

/-- A declared region holds an address that does not exist (60_exceptions.md R199). -/
def Regions.missAddress (r : Regions) (p : Platform) : Prop := ∃ q ∈ r.inputs ++ r.outputs, ∃ hole ∈ p.absent, q.shares hole

/-- A declared region holds a device's address (20_memory.md R57). -/
def Regions.holdDevice (r : Regions) (p : Platform) : Prop := ∃ q ∈ r.inputs ++ r.outputs, ∃ d ∈ p.devices, q.shares d

/-- The undisturbed command in flight completes with an error and changes no byte (60_exceptions.md R194, R202). -/
def Fails (i : Instr) (s : State) (code : BitVec 4) (len count : Word) (cfg : Nat) : Prop :=
  ∃ t, exec i s = .next t ∧ Completed t code len count cfg ∧ ConfigKept s t ∧ BytesKept s t

/-- A transposer command of declared regions `r`, extent `x` and `moved` bytes (40_plane_transposer.md R100 to R102): the
first of RANGE (2), OVERLAP (3), DST_FULL (4) and BUS_ERROR (8) that applies, and where none does and no device is met, the
command runs and completes without error. -/
def ChecksPlanes (i : Instr) (sh : Shape) (s : State) (job : Job) (r : Regions) (x moved : Nat) : Prop :=
  regionsOf sh job.snap = r ∧
  (r.passesEnd → Fails i s 2#4 0#32 0#32 0) ∧
  (¬ r.passesEnd → r.collide → Fails i s 3#4 0#32 0#32 0) ∧
  (¬ r.passesEnd → ¬ r.collide → job.snap.dstCap.toNat < x →
    Fails i s 4#4 (BitVec.ofNat 32 (min x 0xFFFFFFFF)) job.snap.srcLen 0) ∧
  (¬ r.passesEnd → ¬ r.collide → x ≤ job.snap.dstCap.toNat → r.missAddress s.platform → Fails i s 8#4 0#32 0#32 0) ∧
  (¬ r.passesEnd → ¬ r.collide → x ≤ job.snap.dstCap.toNat → ¬ r.missAddress s.platform → ¬ r.holdDevice s.platform →
    Runs s sh job ∧ ∃ t, exec i s = .next t ∧ Completed t 0#4 (BitVec.ofNat 32 moved) job.snap.srcLen 0)

/-- A predictor command of declared regions `r` (41_predictor.md precheck_P): the first of RANGE (2), OVERLAP (3) and
BUS_ERROR (8) that applies, and where none does and no device is met, the command runs. -/
def ChecksStream (i : Instr) (sh : Shape) (s : State) (job : Job) (r : Regions) : Prop :=
  regionsOf sh job.snap = r ∧
  (r.passesEnd → Fails i s 2#4 0#32 0#32 0) ∧
  (¬ r.passesEnd → r.collide → Fails i s 3#4 0#32 0#32 0) ∧
  (¬ r.passesEnd → ¬ r.collide → r.missAddress s.platform → Fails i s 8#4 0#32 0#32 0) ∧
  (¬ r.passesEnd → ¬ r.collide → ¬ r.missAddress s.platform → ¬ r.holdDevice s.platform → Runs s sh job)

/-- SPLIT of P planes of S-byte elements: with its precheck passed the command completes without error, byte b of element
P·i+p of the array is byte b of element i of plane p, and nothing else changes (40_plane_transposer.md R102 to R112). -/
def SplitsPlanes (i : Instr) (planes size : Nat) : Prop :=
  ∀ s job, Runs s (.split planes size) job →
    ∃ t, exec i s = .next t ∧
      Completed t 0#4 (BitVec.ofNat 32 (planes * job.snap.n * size)) job.snap.srcLen 0 ∧
      ConfigKept s t ∧
      (∀ e p b, e < job.snap.n → p < planes → b < size →
        t.byte (job.snap.dst + p * job.snap.pitch + e * size + b) = s.byte (job.snap.src + (planes * e + p) * size + b)) ∧
      BytesKeptOutside (planeRegions job.snap.dst job.snap.pitch planes (job.snap.n * size)) s t

/-- MERGE, the inverse of SPLIT (40_plane_transposer.md R102 to R112). -/
def MergesPlanes (i : Instr) (planes size : Nat) : Prop :=
  ∀ s job, Runs s (.merge planes size) job →
    ∃ t, exec i s = .next t ∧
      Completed t 0#4 (BitVec.ofNat 32 (planes * job.snap.n * size)) job.snap.srcLen 0 ∧
      ConfigKept s t ∧
      (∀ e p b, e < job.snap.n → p < planes → b < size →
        t.byte (job.snap.dst + (planes * e + p) * size + b) = s.byte (job.snap.src + p * job.snap.pitch + e * size + b)) ∧
      BytesKeptOutside [⟨job.snap.dst, planes * job.snap.n * size⟩] s t

/-- A split followed by the matching merge of its planes gives the input back (40_plane_transposer.md R114). -/
def SplitThenMerge (split merge : Instr) (planes size : Nat) : Prop :=
  ∀ s job t u job', Runs s (.split planes size) job → exec split s = .next t →
    u.memory = t.memory → Runs u (.merge planes size) job' →
    job'.snap.srcAddr = job.snap.dstAddr → job'.snap.srcLen = job.snap.srcLen →
    job'.snap.planeStride = job.snap.planeStride →
    ∃ v, exec merge u = .next v ∧
      ∀ x, x < planes * job.snap.n * size → v.byte (job'.snap.dst + x) = s.byte (job.snap.src + x)

/-- The compress command of a width. -/
def compressOf : Width → Instr
  | .w32 => .pcomp32
  | .w64 => .pcomp64

/-- The decompress command of a width. -/
def decompressOf : Width → Instr
  | .w32 => .pdecomp32
  | .w64 => .pdecomp64

/-- The stream of the compress command in flight (41_predictor.md R147, R149). -/
def streamOf (k : Width) (s : State) (job : Job) : List Byte := compressedStream k s.platform job.snap s.memory

/-- The header that the decompress command in flight reads (41_predictor.md R143). -/
def headerOf (s : State) (job : Job) : Header := readHeader s.memory job.snap.src

/-- RES_CFG of exponents, E1 in [4:0] and E2 in [12:8], as a number (10_state.md R39). -/
def cfgNumber (e1 e2 : Nat) : Nat := e1 + 256 * e2

/-- RES_CFG of a header (41_predictor.md R143). -/
def Header.cfg (hd : Header) : Nat := cfgNumber hd.e1 hd.e2

/-- What the decompress command in flight decodes: the bytes after its header, in the order of their addresses
(41_predictor.md R146). -/
def decodedOf (k : Width) (s : State) (job : Job) : Option (List (BitVec k.bits) × Nat) :=
  decodeStream k (hashPair s.platform k) (headerOf s job).e1 (headerOf s job).e2 (headerOf s job).count
    ((List.range (job.snap.n - 5)).map fun j => s.byte (job.snap.src + 5 + j))

/-- The PredictionState that the values `vs` leave behind (41_predictor.md R130 to R133). -/
def stateAfter (k : Width) (h : HashPair k.bits) (e1 e2 : Nat) (vs : List (BitVec k.bits)) : PredictionState k.bits :=
  vs.foldl (fun p v => p.predict.update h e1 e2 v) (PredictionState.zero k.bits)

/-- Slot `i` of a stream (41_predictor.md R138, R139): what R135 or R136 selects for value `i` on the residuals that the
values before it leave (R131, R134), or the padding entry past the last value. -/
def slotAt (k : Width) (h : HashPair k.bits) (e1 e2 : Nat) (vs : List (BitVec k.bits)) (i : Nat) : Slot :=
  if hi : i < vs.length then
    let p := stateAfter k h e1 e2 (vs.take i)
    selectSlot k.bytes (vs[i] ^^^ Sparse.get 0#k.bits p.table1 p.hash1).toNat
      (vs[i] ^^^ (p.lastValue + Sparse.get 0#k.bits p.table2 p.hash2)).toNat
  else { code := 1, field := [0#8] }

/-- The length checks of a decompress command pass (41_predictor.md R143, R144). -/
structure LengthsFit (k : Width) (s : State) (job : Job) : Prop where
  headerFits : 5 ≤ job.snap.n
  exponentsFit : (headerOf s job).e1 ≤ s.platform.eMax ∧ (headerOf s job).e2 ≤ s.platform.eMax
  countFits : 5 + ceilDiv (headerOf s job).count k.group * k.codeBytes ≤ job.snap.n
  valuesFit : (headerOf s job).count * k.bytes ≤ job.snap.cap

end Sys2Proof.Machine
end

