-- ==== Sys2Proof/Certificates/Slice0/Obligations.lean ====
section
/-! DEFINITION. The statements for the provers, from the numbered rules of spec/. Each docstring names the rule it
formalises; a clause that rests on a choice of the model names the log entry. -/

open Sys2Proof Sys2Proof.Machine

/-! ### Decoding -/

/-- The command words of 30_encoding.md R70, R71, written out, decode to their commands, and words that R72 calls illegal do
not. -/
def Obligations.WordsOfTheOpMapDecode : Prop :=
  decodeWord 0x00000000#32 = .command .nop ∧
  decodeWord 0x00000001#32 = .command .pcomp32 ∧ decodeWord 0x00000002#32 = .command .pdecomp32 ∧
  decodeWord 0x00000003#32 = .command .pcomp64 ∧ decodeWord 0x00000004#32 = .command .pdecomp64 ∧
  decodeWord 0x00000005#32 = .command .split3w32 ∧ decodeWord 0x00000006#32 = .command .merge3w32 ∧
  decodeWord 0x00000007#32 = .command .split3w64 ∧ decodeWord 0x00000008#32 = .command .merge3w64 ∧
  decodeWord 0x00000009#32 = .command .splitb2 ∧ decodeWord 0x0000000A#32 = .command .mergeb2 ∧
  decodeWord 0x0000000B#32 = .command .splitb4 ∧ decodeWord 0x0000000C#32 = .command .mergeb4 ∧
  decodeWord 0x0000000D#32 = .command .splitb8 ∧ decodeWord 0x0000000E#32 = .command .mergeb8 ∧
  decodeWord 0x0000000F#32 = .illegal .reservedOp ∧ decodeWord 0x00000010#32 = .illegal .reservedBits ∧
  decodeWord 0x80000000#32 = .illegal .reservedBits

/-- 30_encoding.md R71: "a word selects a command iff bits [31:4] are 0 and OP ≠ 0xF", and each command is selected by
one word only, the one its encoding gives; R72: every other word is illegal. -/
def Obligations.DecodeAgreesWithEncode : Prop :=
  (∀ w : Word, (∃ i, decodeWord w = .command i) ↔ w.toNat / 16 = 0 ∧ w.toNat % 16 ≠ 15) ∧
  (∀ (w : Word) (i : Instr), decodeWord w = .command i ↔ w = encode i)

/-- 42_host_access.md R180: with a command in flight and the engine to move, a step on the accepted word is exec of what
it decodes to; and with its word placed, every command is what the very next step runs (log 15). -/
def Obligations.StepRunsTheAcceptedCommand : Prop :=
  (∀ (s : State) job i, s.platform.wf = true → s.engine = .busy job → (job.wait = 0 ∨ s.inputs = []) →
    decodeWord job.snap.cmd = .command i → step s = exec i s) ∧
  (∀ (s : State) i, s.platform.wf = true →
    step (s.withFetchWord 32 (encode i).toNat) = exec i (s.withFetchWord 32 (encode i).toNat))

/-- 60_exceptions.md R191, 30_encoding.md R72: a word with OP = 0xF or a bit of [31:4] set completes at once with ILLEGAL_CMD
(1), whatever the other snapshot fields are, leaves the result registers 0 and touches no byte. -/
def Obligations.IllegalWordCompletesWithIllegalCmd : Prop :=
  ∀ s job, s.platform.wf = true → InFlight s job → (job.wait = 0 ∨ s.inputs = []) →
    (job.snap.cmd.toNat % 16 = 15 ∨ job.snap.cmd.toNat / 16 ≠ 0) →
    ∃ t, step s = .next t ∧ Completed t 1#4 0#32 0#32 0 ∧ ConfigKept s t ∧ BytesKept s t

/-- The model's own stop (log 16): with no command in flight (42_host_access.md R180 "While BUSY = 1") a meaning stops,
for every command. -/
def Obligations.IdleEngineHasNoCommandToRun : Prop :=
  ∀ i s, s.engine = .idle → exec i s = .fault .noCommandInFlight

/-! ### Reset -/

/-- 10_state.md R46, 70_reset_and_hazards.md R220: after power-on, and after the reset input or a soft reset,
which happen whether the engine is IDLE or BUSY (42_host_access.md R179), every register holds its reset value, the engine is IDLE and the irq line is low. -/
def Obligations.ResetGivesEveryRegisterItsValue : Prop :=
  RegistersReset State.reset ∧
  (∀ s rest, Turn s .rst rest → ∃ t, step s = .next t ∧ RegistersReset t) ∧
  (∀ s rest x, Turn s (.write (s.platform.regBase + 0x04) 4 x) rest → x.getLsbD 1 = true →
    ∃ t, step s = .next t ∧ RegistersReset t)

/-- 70_reset_and_hazards.md R221, R222, for both resets: a reset of an idle block writes no byte of memory; a reset while BUSY
aborts the command: no completion and no interrupt, an unspecified value in every byte of its output regions (here the
draw's, wherever no input region lies: log 6, log 9), and every byte of its input regions and every byte outside its regions
unchanged. 60_exceptions.md R213: power gating of an idle block keeps its registers or acts as a reset; it is a transaction,
refused while BUSY, by the model's choice (log 20). -/
def Obligations.ResetKeepsAllButTheAbortedOutputs : Prop :=
  (∀ s op rest, Turn s op rest →
    (op = .rst ∨ ∃ x, op = .write (s.platform.regBase + 0x04) 4 x ∧ x.getLsbD 1 = true) →
    (s.engine = .idle → ∃ t, step s = .next t ∧ RegistersReset t ∧ BytesKept s t) ∧
    (∀ job, s.engine = .busy job →
      ∃ t, step s = .next t ∧ RegistersReset t ∧ t.status.done = false ∧
        (∀ a, a < addressCount → job.regions.outputCovers a = true → job.regions.inputCovers a = false →
          t.byte a = Config.freeByte s.draws a) ∧
        (∀ a, job.regions.inputCovers a = true → t.byte a = s.byte a) ∧
        (∀ a, job.regions.outputCovers a = false → t.byte a = s.byte a))) ∧
  (∀ s retained rest, Turn s (.powerGate retained) rest →
    (s.engine = .idle → retained = true → step s = .next (s.turned rest)) ∧
    (s.engine = .idle → retained = false → ∃ t, step s = .next t ∧ RegistersReset t ∧ BytesKept s t) ∧
    (∀ job, s.engine = .busy job → step s = .refused .powerGatedWhileBusy))

/-! ### The register window -/

/-- 42_host_access.md R170; 10_state.md R22 to R25, R31, R39, R40: a read gives the register with every reserved bit 0, a
reserved offset 0, CMD the last accepted word, and changes nothing but what the reader holds (log 19); the offsets, and where
the fields of CTRL, STATUS, HASH_CFG and RES_CFG stand; ID is ID_VALUE. 30_encoding.md R88: a POLL is such a read, which stays
the oldest transaction until (read & mask) = value (log 19). -/
def Obligations.ReadReturnsTheRegisterAndChangesNothing : Prop :=
  (∀ s rest r, Turn s (.read (s.platform.regBase + r.offset) 4) rest →
    step s = .next { s.turned rest with readData := readReg s r }) ∧
  (∀ s rest o, Turn s (.read (s.platform.regBase + o) 4) rest → 0x34 ≤ o → o < 256 → o % 4 = 0 →
    step s = .next { s.turned rest with readData := 0#32 }) ∧
  (∀ s rest r mask value, Turn s (.poll (s.platform.regBase + r.offset) mask value) rest →
    (readReg s r &&& mask = value → step s = .next { s.turned rest with readData := readReg s r }) ∧
    (readReg s r &&& mask ≠ value → step s =
      .next { s.turned (.poll (s.platform.regBase + r.offset) mask value :: rest) with readData := readReg s r })) ∧
  ([RegName.id, .ctrl, .status, .cmd, .hashCfg, .srcAddr, .srcLen, .dstAddr, .dstCap, .planeStride, .resLen, .resCount,
      .resCfg].map RegName.offset =
    [0x00, 0x04, 0x08, 0x0C, 0x10, 0x14, 0x18, 0x1C, 0x20, 0x24, 0x28, 0x2C, 0x30]) ∧
  (∀ s, readReg s .cmd = s.cmd ∧ readReg s .srcAddr = s.srcAddr ∧ readReg s .srcLen = s.srcLen ∧
    readReg s .dstAddr = s.dstAddr ∧ readReg s .dstCap = s.dstCap ∧ readReg s .planeStride = s.planeStride ∧
    readReg s .resLen = s.resLen ∧ readReg s .resCount = s.resCount ∧ readReg s .id = 0x54524943#32) ∧
  (∀ s, readReg s .ctrl &&& 0xFFFFFFFE#32 = 0#32 ∧ readReg s .status &&& 0xFFFFF0F0#32 = 0#32 ∧
    readReg s .hashCfg &&& 0xE0E0E0E0#32 = 0#32 ∧ readReg s .resCfg &&& 0xFFFFE0E0#32 = 0#32) ∧
  (∀ s, (readReg s .ctrl).getLsbD 0 = s.irqEn ∧ (readReg s .status).getLsbD 0 = s.busy ∧
    (readReg s .status).getLsbD 1 = s.status.done ∧ (readReg s .status).getLsbD 2 = s.status.err ∧
    (readReg s .status).getLsbD 3 = s.status.overrun ∧ (readReg s .status).extractLsb' 8 4 = s.status.errcode ∧
    (readReg s .hashCfg).extractLsb' 0 5 = s.hashCfg.e1w32 ∧ (readReg s .hashCfg).extractLsb' 8 5 = s.hashCfg.e2w32 ∧
    (readReg s .hashCfg).extractLsb' 16 5 = s.hashCfg.e1w64 ∧ (readReg s .hashCfg).extractLsb' 24 5 = s.hashCfg.e2w64 ∧
    (readReg s .resCfg).extractLsb' 0 5 = s.resCfg.e1 ∧ (readReg s .resCfg).extractLsb' 8 5 = s.resCfg.e2)

/-- 42_host_access.md R172: a CTRL write sets IRQ_EN to x[0]; with x[1] set the soft reset follows, so IRQ_EN ends 0;
bit 1 reads 0 and no other bit of x matters. -/
def Obligations.CtrlWriteSetsEnableAndMayReset : Prop :=
  ∀ s rest x, Turn s (.write (s.platform.regBase + 0x04) 4 x) rest →
    (x.getLsbD 1 = false → step s = .next { s.turned rest with irqEn := x.getLsbD 0 }) ∧
    (x.getLsbD 1 = true →
      ∃ t, step s = .next t ∧ t = resetBlock { s.turned rest with irqEn := x.getLsbD 0 } ∧ RegistersReset t ∧
        t.irqEn = false) ∧
    (∀ t, step s = .next t → (readReg t .ctrl).getLsbD 1 = false)

/-- 42_host_access.md R173: STATUS is write-1-to-clear in bits 1, 2 (with ERRCODE) and 3; other bits of x, BUSY's and
ERRCODE's among them, are ignored; clearing DONE lowers the line; while BUSY, DONE is already 0. -/
def Obligations.StatusWriteClearsByOnes : Prop :=
  ∀ s rest x, Turn s (.write (s.platform.regBase + 0x08) 4 x) rest →
    ∃ t, step s = .next t ∧ { t with status := s.status } = s.turned rest ∧
      t.status.done = (s.status.done && !x.getLsbD 1) ∧ t.status.err = (s.status.err && !x.getLsbD 2) ∧
      t.status.errcode = (if x.getLsbD 2 then 0#4 else s.status.errcode) ∧
      t.status.overrun = (s.status.overrun && !x.getLsbD 3) ∧
      t.busy = s.busy ∧ t.irq = (s.irq && !x.getLsbD 1) ∧ (s.Inv → s.busy = true → s.status.done = false)

/-- 42_host_access.md R174: a CMD write while IDLE is accepted: the word is recorded, the snapshot holds the current
registers, DONE, ERR, ERRCODE and the results become 0, BUSY becomes 1; OVERRUN, memory and the rest are unchanged (LATENCY,
log 3, gives how many transactions the engine step waits). -/
def Obligations.CmdWriteWhileIdleIsAccepted : Prop :=
  ∀ s rest x, Turn s (.write (s.platform.regBase + 0x0C) 4 x) rest → s.engine = .idle →
    ∃ t job, step s = .next t ∧ t.engine = .busy job ∧ job.undisturbed ∧
      job.snap = { cmd := x, hashCfg := s.hashCfg, srcAddr := s.srcAddr, srcLen := s.srcLen, dstAddr := s.dstAddr,
                   dstCap := s.dstCap, planeStride := s.planeStride } ∧
      t.cmd = x ∧ t.status = { done := false, err := false, errcode := 0#4, overrun := s.status.overrun } ∧
      t.resLen = 0#32 ∧ t.resCount = 0#32 ∧ t.resCfg.toWord = 0#32 ∧
      t.irqEn = s.irqEn ∧ t.hashCfg = s.hashCfg ∧ t.srcAddr = s.srcAddr ∧ t.srcLen = s.srcLen ∧
      t.dstAddr = s.dstAddr ∧ t.dstCap = s.dstCap ∧ t.planeStride = s.planeStride ∧ t.memory = s.memory ∧
      t.platform = s.platform

/-- 42_host_access.md R175: a CMD write while BUSY is dropped: OVERRUN becomes 1, and nothing else of the block changes. -/
def Obligations.CmdWriteWhileBusyIsDropped : Prop :=
  ∀ s rest x job, Turn s (.write (s.platform.regBase + 0x0C) 4 x) rest → s.engine = .busy job →
    step s = .next { s.turned rest with status := { s.status with overrun := true } }

/-- 42_host_access.md R176: a write of a configuration register sets it, HASH_CFG through the mask 0x1F1F1F1F, BUSY or not,
and changes nothing else. -/
def Obligations.ConfigurationWriteSetsItsRegister : Prop :=
  ∀ s rest x,
    (Turn s (.write (s.platform.regBase + 0x10) 4 x) rest →
      ∃ t, step s = .next t ∧ readReg t .hashCfg = x &&& 0x1F1F1F1F#32 ∧ { t with hashCfg := s.hashCfg } = s.turned rest) ∧
    (Turn s (.write (s.platform.regBase + 0x14) 4 x) rest → step s = .next { s.turned rest with srcAddr := x }) ∧
    (Turn s (.write (s.platform.regBase + 0x18) 4 x) rest → step s = .next { s.turned rest with srcLen := x }) ∧
    (Turn s (.write (s.platform.regBase + 0x1C) 4 x) rest → step s = .next { s.turned rest with dstAddr := x }) ∧
    (Turn s (.write (s.platform.regBase + 0x20) 4 x) rest → step s = .next { s.turned rest with dstCap := x }) ∧
    (Turn s (.write (s.platform.regBase + 0x24) 4 x) rest → step s = .next { s.turned rest with planeStride := x })

/-- 42_host_access.md R177: a write of ID, RES_LEN, RES_COUNT, RES_CFG or a reserved offset changes nothing. -/
def Obligations.ReadOnlyAndReservedWritesAreIgnored : Prop :=
  ∀ s rest x o, Turn s (.write (s.platform.regBase + o) 4 x) rest →
    (o = 0x00 ∨ o = 0x28 ∨ o = 0x2C ∨ o = 0x30 ∨ (0x34 ≤ o ∧ o ≤ 0xFC ∧ o % 4 = 0)) → step s = .next (s.turned rest)

/-- 20_memory.md R67: a window access of another width, or at an offset that is no multiple of 4, is refused;
a POLL is a read of 32 bits (30_encoding.md R88). -/
def Obligations.UndefinedWindowAccessIsRefused : Prop :=
  ∀ s rest o size, o < 256 → (size ≠ 4 ∨ o % 4 ≠ 0) →
    (Turn s (.read (s.platform.regBase + o) size) rest → step s = .refused .windowAccessUndefined) ∧
    (∀ mask value, size = 4 → Turn s (.poll (s.platform.regBase + o) mask value) rest →
      step s = .refused .windowAccessUndefined) ∧
    (∀ x, Turn s (.write (s.platform.regBase + o) size x) rest → step s = .refused .windowAccessUndefined)

/-- 10_state.md R44, 60_exceptions.md R204: the line is high iff IRQ_EN and DONE are both 1; a STATUS write with bit 1, an
acceptance and a reset clear the pending bit; setting IRQ_EN while DONE = 1 raises the line at once, clearing it lowers
the line and leaves DONE 1. -/
def Obligations.InterruptLineFollowsEnableAndDone : Prop :=
  (∀ s : State, s.irq = true ↔ s.irqEn = true ∧ s.status.done = true) ∧
  (∀ s rest x t, Turn s (.write (s.platform.regBase + 0x08) 4 x) rest → x.getLsbD 1 = true → step s = .next t →
    t.status.done = false ∧ t.irq = false) ∧
  (∀ s rest x t, Turn s (.write (s.platform.regBase + 0x0C) 4 x) rest → s.engine = .idle → step s = .next t →
    t.status.done = false ∧ t.irq = false) ∧
  (∀ s op rest t, Turn s op rest → (op = .rst ∨ ∃ x, op = .write (s.platform.regBase + 0x04) 4 x ∧ x.getLsbD 1 = true) →
    step s = .next t → t.status.done = false ∧ t.irq = false) ∧
  (∀ s rest x t, Turn s (.write (s.platform.regBase + 0x04) 4 x) rest → x.getLsbD 1 = false → s.status.done = true →
    step s = .next t → t.status.done = true ∧ t.irq = x.getLsbD 0)

/-! ### Regions and prechecks -/

/-- 20_memory.md R58, R59: a region covers a .. a+len-1; it is valid iff every address it covers is below 2^32; two regions
overlap iff they share an address; a command's regions cover what one of them covers. -/
def Obligations.RegionsOverlapExactlyWhenTheyShareAnAddress : Prop :=
  (∀ (r : Region) a, r.covers a = true ↔ r.start ≤ a ∧ a < r.start + r.len) ∧
  (∀ r : Region, r.valid = true ↔ ∀ a, r.covers a = true → a < 2 ^ 32) ∧
  (∀ r q : Region, r.overlaps q = true ↔ ∃ a, r.covers a = true ∧ q.covers a = true) ∧
  (∀ (r : Regions) a, (r.inputCovers a = true ↔ ∃ q ∈ r.inputs, q.holds a) ∧
    (r.outputCovers a = true ↔ ∃ q ∈ r.outputs, q.holds a))

/-- 20_memory.md R51: mem_ok is false exactly at the platform's missing addresses, and the BUS_ERROR check finds exactly the
regions with an address where it is false. -/
def Obligations.BusCheckFindsExactlyTheMissingAddresses : Prop :=
  (∀ (p : Platform) a, memOk p a = false ↔ ∃ hole ∈ p.absent, hole.holds a) ∧
  (∀ (r : Regions) (p : Platform),
    r.meetsAbsent p = true ↔ ∃ a, (r.inputCovers a = true ∨ r.outputCovers a = true) ∧ memOk p a = false)

/-- 40_plane_transposer.md R100, R101, 60_exceptions.md R190, R192 to R195, R199, R200, R202, with the regions and the extent
X in numbers: an undisturbed transposer command reports the first of RANGE (2), OVERLAP (3), DST_FULL (4) and BUS_ERROR (8)
that applies, with the result registers of R194, and changes no byte; where none applies it completes without error. That a
failed check is reported although a region maps a device, and that only a command whose checks pass is refused for it
(20_memory.md R57), is the model's choice (log 12). -/
def Obligations.TransposerReportsItsFirstFailedCheck : Prop :=
  ∀ s job, InFlight s job →
    let n := job.snap.srcLen.toNat
    let src := job.snap.srcAddr.toNat
    let dst := job.snap.dstAddr.toNat
    let t := job.snap.planeStride.toNat
    (∀ i p z, (i, p, z) ∈
        [(Instr.split3w32, 3, 4), (.split3w64, 3, 8), (.splitb2, 2, 1), (.splitb4, 4, 1), (.splitb8, 8, 1)] →
      ChecksPlanes i (.split p z) s job ⟨[⟨src, p * n * z⟩], (List.range p).map fun q => ⟨dst + q * t, n * z⟩⟩
        (if n = 0 then 0 else (p - 1) * t + n * z) (p * n * z)) ∧
    (∀ i p z, (i, p, z) ∈
        [(Instr.merge3w32, 3, 4), (.merge3w64, 3, 8), (.mergeb2, 2, 1), (.mergeb4, 4, 1), (.mergeb8, 8, 1)] →
      ChecksPlanes i (.merge p z) s job ⟨(List.range p).map fun q => ⟨src + q * t, n * z⟩, [⟨dst, p * n * z⟩]⟩
        (p * n * z) (p * n * z))

/-- 41_predictor.md R147 to R150 and precheck_P, 60_exceptions.md R190, R199, R200, with the regions in numbers, all of
(DST, CAP) among them: an undisturbed predictor command reports the first of RANGE (2), OVERLAP (3) and BUS_ERROR (8) that
applies, with the result registers 0, and changes no byte; where none applies it runs. That a failed check is reported
although a region maps a device (20_memory.md R57) is the model's choice (log 12). -/
def Obligations.PredictorReportsItsFirstFailedCheck : Prop :=
  ∀ s job, InFlight s job →
    let n := job.snap.srcLen.toNat
    ∀ i sh len, (i, sh, len) ∈
        [(Instr.pcomp32, Shape.compress .w32, n * 4), (.pcomp64, .compress .w64, n * 8),
          (.pdecomp32, .decompress .w32, n), (.pdecomp64, .decompress .w64, n)] →
      ChecksStream i sh s job ⟨[⟨job.snap.srcAddr.toNat, len⟩], [⟨job.snap.dstAddr.toNat, job.snap.dstCap.toNat⟩]⟩

/-- 20_memory.md R57, 93 I8: a command whose checks pass and one of whose regions maps a device is refused (that the checks
come first: log 12). -/
def Obligations.DeviceRegionIsRefused : Prop :=
  ∀ i s job, s.engine = .busy job → precheck (shapeOf i) s.platform job.snap = none →
    (regionsOf (shapeOf i) job.snap).holdDevice s.platform → exec i s = .refused .deviceRegion

/-- 40_plane_transposer.md R102: "P·n·S is always below 2^32 when the precheck passes", so RES_LEN holds it exactly; for a
split, whose planes cannot overlap, it is at most 2^31. -/
def Obligations.TransposedBytesFitTheRegister : Prop :=
  ∀ i p z (pl : Platform) (j : Snapshot), precheck (shapeOf i) pl j = none →
    (shapeOf i = .split p z → p * j.n * z ≤ 2 ^ 31) ∧ (shapeOf i = .merge p z → p * j.n * z < 2 ^ 32)

/-! ### The commands -/

/-- 42_host_access.md R178: NOP, the word 0, completes without error, leaves the results 0 and changes nothing else, whatever
the snapshot holds; a word with OP = 0 and a reserved bit set is not NOP. -/
def Obligations.NopOnlyCompletes : Prop :=
  (∀ s job, InFlight s job →
    ∃ t, exec .nop s = .next t ∧ Completed t 0#4 0#32 0#32 0 ∧ ConfigKept s t ∧ BytesKept s t) ∧
  (∀ w : Word, w.toNat % 16 = 0 → decodeWord w = if w = 0#32 then .command .nop else .illegal .reservedBits)

/-- 40_plane_transposer.md R102, R103, R105: SPLIT3W32 and SPLIT3W64. -/
def Obligations.SplitThreePutsEachElementInItsPlane : Prop :=
  SplitsPlanes .split3w32 3 4 ∧ SplitsPlanes .split3w64 3 8

/-- 40_plane_transposer.md R102, R104, R106: MERGE3W32 and MERGE3W64. -/
def Obligations.MergeThreeInterleavesThePlanes : Prop :=
  MergesPlanes .merge3w32 3 4 ∧ MergesPlanes .merge3w64 3 8

/-- 40_plane_transposer.md R102, R107, R109, R111: SPLITB2, SPLITB4 and SPLITB8. -/
def Obligations.SplitBytesPutsEachByteInItsPlane : Prop :=
  SplitsPlanes .splitb2 2 1 ∧ SplitsPlanes .splitb4 4 1 ∧ SplitsPlanes .splitb8 8 1

/-- 40_plane_transposer.md R102, R108, R110, R112: MERGEB2, MERGEB4 and MERGEB8. -/
def Obligations.MergeBytesAssemblesEachValue : Prop :=
  MergesPlanes .mergeb2 2 1 ∧ MergesPlanes .mergeb4 4 1 ∧ MergesPlanes .mergeb8 8 1

/-- 40_plane_transposer.md R113: with n = 0 a transposer command completes with zeros, whatever SRC, DST, CAP, T and the
platform are, and changes no byte. -/
def Obligations.EmptyTransposeAlwaysSucceeds : Prop :=
  ∀ i p z s job, (shapeOf i = .split p z ∨ shapeOf i = .merge p z) → InFlight s job → job.snap.srcLen = 0#32 →
    ∃ t, exec i s = .next t ∧ Completed t 0#4 0#32 0#32 0 ∧ ConfigKept s t ∧ BytesKept s t

/-- 40_plane_transposer.md R114: a split followed by the matching merge gives the input back, byte for byte. -/
def Obligations.MergeOfSplitRestoresTheInput : Prop :=
  SplitThenMerge .split3w32 .merge3w32 3 4 ∧ SplitThenMerge .split3w64 .merge3w64 3 8 ∧
  SplitThenMerge .splitb2 .mergeb2 2 1 ∧ SplitThenMerge .splitb4 .mergeb4 4 1 ∧ SplitThenMerge .splitb8 .mergeb8 8 1

/-- 41_predictor.md R147, R149: PCOMP32 and PCOMP64 write the stream when it fits CAP, report its length, n and the effective
exponents, and change no other byte; the stream is that of the values whose bytes stand little-endian at SRC (20_memory.md
R52). -/
def Obligations.CompressWritesItsStream : Prop :=
  ∀ k s job, Runs s (.compress k) job →
    ((streamOf k s job).length ≤ job.snap.cap →
      ∃ t, exec (compressOf k) s = .next t ∧
        Completed t 0#4 (BitVec.ofNat 32 (streamOf k s job).length) job.snap.srcLen
          (cfgNumber (effectiveE1 k s.platform job.snap) (effectiveE2 k s.platform job.snap)) ∧
        ConfigKept s t ∧
        (∀ x (h : x < (streamOf k s job).length), t.byte (job.snap.dst + x) = (streamOf k s job)[x]) ∧
        BytesKeptOutside [⟨job.snap.dst, (streamOf k s job).length⟩] s t) ∧
    (∀ vs : List (BitVec k.bits), vs.length = job.snap.n →
      (∀ x b (h : x < vs.length), b < k.bytes →
        s.byte (job.snap.src + x * k.bytes + b) = BitVec.ofNat 8 (vs[x].toNat / 2 ^ (8 * b))) →
      streamOf k s job = encodeStream k (hashPair s.platform k) (effectiveE1 k s.platform job.snap)
        (effectiveE2 k s.platform job.snap) vs)

/-- 41_predictor.md R147, R149; 60_exceptions.md R194, R195, R202: a stream longer than CAP gives DST_FULL (4) with the
length needed, n and the effective exponents; bytes outside (DST, CAP) are unchanged. -/
def Obligations.CompressReportsTheLengthNeeded : Prop :=
  ∀ k s job, Runs s (.compress k) job → job.snap.cap < (streamOf k s job).length →
    ∃ t, exec (compressOf k) s = .next t ∧
      Completed t 4#4 (BitVec.ofNat 32 (min (streamOf k s job).length 0xFFFFFFFF)) job.snap.srcLen
        (cfgNumber (effectiveE1 k s.platform job.snap) (effectiveE2 k s.platform job.snap)) ∧
      ConfigKept s t ∧ BytesKeptOutside [⟨job.snap.dst, job.snap.cap⟩] s t

/-- 41_predictor.md R143, R144; 60_exceptions.md R194, R196 to R198, R200, R202: the decompress errors that come before any
write, in their order UNEXPECTED_EOF (5), UNSUPPORTED_CFG (7), CORRUPT_LENGTH (6), DST_FULL (4), with the result registers of R194, and no byte changed. -/
def Obligations.DecompressReportsItsFirstFailedLength : Prop :=
  ∀ k s job, Runs s (.decompress k) job →
    let hd := headerOf s job
    let n := BitVec.ofNat 32 hd.count
    let fits := hd.e1 ≤ s.platform.eMax ∧ hd.e2 ≤ s.platform.eMax
    let fails := Fails (decompressOf k) s
    (job.snap.n < 5 → fails 5#4 0#32 0#32 0) ∧
    (5 ≤ job.snap.n → ¬ fits → fails 7#4 0#32 n hd.cfg) ∧
    (5 ≤ job.snap.n → fits → job.snap.n < 5 + ceilDiv hd.count k.group * k.codeBytes → fails 6#4 0#32 n hd.cfg) ∧
    (5 ≤ job.snap.n → fits → 5 + ceilDiv hd.count k.group * k.codeBytes ≤ job.snap.n →
      job.snap.cap < hd.count * k.bytes →
      fails 4#4 (BitVec.ofNat 32 (min (hd.count * k.bytes) 0xFFFFFFFF)) n hd.cfg)

/-- 41_predictor.md R146, R148, R150: PDECOMP32 and PDECOMP64 write exactly the header's count of values, little-endian,
report the bytes consumed, the count and the header's exponents, and change no other byte. -/
def Obligations.DecompressWritesItsValues : Prop :=
  ∀ k s job vs pos, Runs s (.decompress k) job → LengthsFit k s job → decodedOf k s job = some (vs, pos) →
    ∃ t, exec (decompressOf k) s = .next t ∧
      Completed t 0#4 (BitVec.ofNat 32 pos) (BitVec.ofNat 32 (headerOf s job).count) (headerOf s job).cfg ∧
      ConfigKept s t ∧ vs.length = (headerOf s job).count ∧
      (∀ x b (h : x < vs.length), b < k.bytes →
        t.byte (job.snap.dst + x * k.bytes + b) = BitVec.ofNat 8 (vs[x].toNat / 2 ^ (8 * b))) ∧
      BytesKeptOutside [⟨job.snap.dst, (headerOf s job).count * k.bytes⟩] s t

/-- 41_predictor.md R145; 60_exceptions.md R194, R196, R202: a stream that ends inside a code byte or a field gives
UNEXPECTED_EOF (5) with the header's count and exponents; bytes outside (DST, n·W/8) are unchanged. -/
def Obligations.DecompressReportsTruncatedStream : Prop :=
  ∀ k s job, Runs s (.decompress k) job → LengthsFit k s job → decodedOf k s job = none →
    ∃ t, exec (decompressOf k) s = .next t ∧
      Completed t 5#4 0#32 (BitVec.ofNat 32 (headerOf s job).count) (headerOf s job).cfg ∧
      ConfigKept s t ∧ BytesKeptOutside [⟨job.snap.dst, (headerOf s job).count * k.bytes⟩] s t

/-! ### The predictor -/

/-- 30_encoding.md R73: the effective exponents: capped at E_MAX and rounded down to even, so at most 30; PCOMP32 takes
E1_32 and E2_32, PCOMP64 E1_64 and E2_64. -/
def Obligations.ExponentsAreCappedAndEven : Prop :=
  (∀ p : Platform, p.wf = true → ∀ e, normExponent p.eMax e = 2 * (min e p.eMax / 2) ∧
    normExponent p.eMax e % 2 = 0 ∧ normExponent p.eMax e ≤ e ∧ normExponent p.eMax e ≤ p.eMax ∧ normExponent p.eMax e ≤ 30) ∧
  (∀ (p : Platform) (j : Snapshot),
    effectiveE1 .w32 p j = normExponent p.eMax (j.hashCfg.toWord.toNat % 32) ∧
    effectiveE2 .w32 p j = normExponent p.eMax (j.hashCfg.toWord.toNat / 2 ^ 8 % 32) ∧
    effectiveE1 .w64 p j = normExponent p.eMax (j.hashCfg.toWord.toNat / 2 ^ 16 % 32) ∧
    effectiveE2 .w64 p j = normExponent p.eMax (j.hashCfg.toWord.toNat / 2 ^ 24 % 32))

/-- 41_predictor.md R140(b): every hash the block computes is below 2^E, with the reference functions and with any others
(cut to that range: log 8); and the reference instantiation in numbers. -/
def Obligations.HashesStayInTheirTable : Prop :=
  (∀ (p : Platform) (k : Width), (hashPair p k).inRange) ∧
  (∀ (p : Platform), p.hash = .reference → ∀ h e,
    (∀ v : BitVec 32, (hashPair p .w32).update1 h v e = ((h * 2 ^ 6) ^^^ (v.toNat / 2 ^ 24)) % 2 ^ e ∧
      (hashPair p .w32).update2 h v e = ((h * 2 ^ 2) ^^^ (v.toNat / 2 ^ 20)) % 2 ^ e) ∧
    (∀ v : BitVec 64, (hashPair p .w64).update1 h v e = ((h * 2 ^ 6) ^^^ (v.toNat / 2 ^ 48)) % 2 ^ e ∧
      (hashPair p .w64).update2 h v e = ((h * 2 ^ 2) ^^^ (v.toNat / 2 ^ 40)) % 2 ^ e))

/-- 41_predictor.md R131 to R133: the predictions of the next value after an update by `v`: each table is written at the
slot of the old hash and nowhere else, and the hash moves after the write. -/
def Obligations.UpdateWritesTheSlotThePredictionRead : Prop :=
  ∀ (w : Nat) (h : HashPair w) (e1 e2 : Nat) (p : PredictionState w) (v : BitVec w),
    let q := p.predict.update h e1 e2 v
    p.predict.prediction1 = Sparse.get 0#w p.table1 p.hash1 ∧
    p.predict.prediction2 = p.lastValue + Sparse.get 0#w p.table2 p.hash2 ∧
    (∀ x, Sparse.get 0#w q.table1 x = if x = p.hash1 then v else Sparse.get 0#w p.table1 x) ∧
    (∀ x, Sparse.get 0#w q.table2 x = if x = p.hash2 then v - p.lastValue else Sparse.get 0#w p.table2 x) ∧
    q.hash1 = h.update1 p.hash1 v e1 ∧ q.hash2 = h.update2 p.hash2 (v - p.lastValue) e2 ∧ q.lastValue = v

/-- 41_predictor.md R134, R135, R136; 30_encoding.md R80 to R82, R85; 00_scope.md R9 (nb, be_value): the chosen code names
residual2 exactly when it is strictly shorter (a zero residual2 counts as 1 byte); the field has the code's length, the lesser
of the two candidates', and reads back as the residual; code 0 exactly for residual1 = 0; and the slot that the encoder emits
for a value is the one chosen on its two residuals, the canonical one. -/
def Obligations.CodeSelectionPrefersTheShorterResidual : Prop :=
  (∀ (k : Width) (l b : Nat), (k, l, b) ∈ [(Width.w32, 4, 3), (.w64, 8, 4)] → ∀ (r1 r2 : BitVec k.bits),
    let slot := selectSlot k.bytes r1.toNat r2.toNat
    slot.code < 2 ^ b ∧ slot.field.length = (if slot.code ≤ l then slot.code else slot.code - l) ∧
    slot.field.length = min (nb r1.toNat) (max 1 (nb r2.toNat)) ∧
    (l < slot.code ↔ max 1 (nb r2.toNat) < nb r1.toNat) ∧
    beValue slot.field = (if slot.code ≤ l then r1.toNat else r2.toNat) ∧
    (slot.code = 0 ↔ r1 = 0)) ∧
  (∀ r n, nb r ≤ n ↔ r < 2 ^ (8 * n)) ∧
  (beValue [] = 0 ∧ ∀ bs b, beValue (bs ++ [b]) = 256 * beValue bs + b.toNat) ∧
  (∀ (k : Width) (h : HashPair k.bits) (e1 e2 : Nat) (p : PredictionState k.bits) (v : BitVec k.bits),
    encodeValue k h e1 e2 p v =
      (selectSlot k.bytes (v ^^^ Sparse.get 0#k.bits p.table1 p.hash1).toNat
        (v ^^^ (p.lastValue + Sparse.get 0#k.bits p.table2 p.hash2)).toNat, p.predict.update h e1 e2 v))

/-- 41_predictor.md R130, R137 to R139, R143; 30_encoding.md R75 to R79, R83: a stream is the header byte (H1 in [7:4], H2 in
[3:0]), the count's four bytes, most significant first, and one record for each of the ceil(n/G) groups: its slots are those
of its values in order, then padding entries of code 1 with field 0x00; a record is the code bytes, the first code in the most
significant bits, then the fields in slot order. The header reads so, and reads back as its exponents and its count. -/
def Obligations.HeaderReadsBack : Prop :=
  (∀ (k : Width) (h : HashPair k.bits) (e1 e2 : Nat) (vs : List (BitVec k.bits)) (m : Memory) (a : Nat),
    e1 % 2 = 0 → e1 ≤ 30 → e2 % 2 = 0 → e2 ≤ 30 → vs.length < 2 ^ 32 →
    readHeader (writeBytes m a (encodeStream k h e1 e2 vs)) a = { e1 := e1, e2 := e2, count := vs.length }) ∧
  (∀ m a, readHeader m a =
    { e1 := 2 * ((readByte m a).toNat / 16), e2 := 2 * ((readByte m a).toNat % 16)
      count := 2 ^ 24 * (readByte m (a + 1)).toNat + 2 ^ 16 * (readByte m (a + 2)).toNat +
        2 ^ 8 * (readByte m (a + 3)).toNat + (readByte m (a + 4)).toNat }) ∧
  (∀ (k : Width) (g cb b l : Nat), (k, g, cb, b, l) ∈ [(Width.w32, 8, 3, 3, 4), (.w64, 2, 1, 4, 8)] →
    (k.group = g ∧ k.codeBytes = cb ∧ k.codeBits = b ∧ k.bytes = l) ∧
    (∀ (h : HashPair k.bits) (e1 e2 : Nat) (vs : List (BitVec k.bits)), e1 ≤ 30 → e2 ≤ 30 →
      encodeStream k h e1 e2 vs =
        BitVec.ofNat 8 (16 * (e1 / 2) + e2 / 2) ::
          ([24, 16, 8, 0].map fun y => BitVec.ofNat 8 (vs.length / 2 ^ y)) ++
        (List.range ((vs.length + g - 1) / g)).flatMap fun x =>
          groupRecord k ((List.range g).map fun j => slotAt k h e1 e2 vs (x * g + j))) ∧
    (∀ slots : List Slot, slots.length = g → (∀ x ∈ slots, x.code < 2 ^ b) →
      ∃ codes, codes.length = cb ∧ groupRecord k slots = codes ++ slots.flatMap Slot.field ∧
        ∀ j (hj : j < slots.length), beValue codes / 2 ^ (b * (g - 1 - j)) % 2 ^ b = slots[j].code)) ∧
  (∀ w x, Sparse.get 0#w (PredictionState.zero w).table1 x = 0#w ∧ Sparse.get 0#w (PredictionState.zero w).table2 x = 0#w ∧
    (PredictionState.zero w).hash1 = 0 ∧ (PredictionState.zero w).hash2 = 0 ∧ (PredictionState.zero w).lastValue = 0#w)

/-- 41_predictor.md R142: the bounds of a stream's size, and a compress command with a CAP at or above the upper
one completes without error; ceilDiv is the ceiling. -/
def Obligations.StreamSizeIsBounded : Prop :=
  (∀ (k : Width) (h : HashPair k.bits) (e1 e2 : Nat) (vs : List (BitVec k.bits)),
    let m := ceilDiv vs.length k.group
    5 + k.codeBytes * m ≤ (encodeStream k h e1 e2 vs).length ∧
    (encodeStream k h e1 e2 vs).length ≤ 5 + (k.codeBytes + k.group * k.bytes) * m) ∧
  (∀ k s job, Runs s (.compress k) job →
    5 + (k.codeBytes + k.group * k.bytes) * ceilDiv job.snap.n k.group ≤ job.snap.cap →
    ∃ t, exec (compressOf k) s = .next t ∧ t.engine = .idle ∧ t.status.done = true ∧ t.status.err = false ∧
      t.status.errcode = 0#4) ∧
  (∀ n g m, 0 < g → (ceilDiv n g ≤ m ↔ n ≤ m * g))

/-- 41_predictor.md R151, R84, on byte sequences: for every hash-update function, every exponents and every values, the
decoder gives the values back from the stream, whatever bytes follow it, and the bytes it consumes are the stream's length
less one byte for each padding entry of the last group. -/
def Obligations.DecoderInvertsEncoder : Prop :=
  ∀ (k : Width) (g : Nat), (k, g) ∈ [(Width.w32, 8), (.w64, 2)] →
    ∀ (h : HashPair k.bits) (e1 e2 : Nat) (vs : List (BitVec k.bits)) (tail : List Byte),
    ∃ pos, pos + ((vs.length + g - 1) / g * g - vs.length) = (encodeStream k h e1 e2 vs).length ∧
      decodeStream k h e1 e2 vs.length ((encodeStream k h e1 e2 vs).drop 5 ++ tail) = some (vs, pos)

/-- 41_predictor.md R151, on the machine: compress, then decompress the RES_LEN bytes written, with room for the values:
the original bytes come back, without error, and RES_LEN is the bytes consumed: the stream's length less one byte for each
padding entry (10_state.md R37, 30_encoding.md R84). -/
def Obligations.DecompressOfCompressRestoresTheValues : Prop :=
  ∀ k s job t u job', Runs s (.compress k) job → exec (compressOf k) s = .next t → t.status.err = false →
    u.memory = t.memory → u.platform = t.platform → Runs u (.decompress k) job' →
    job'.snap.srcAddr = job.snap.dstAddr → job'.snap.srcLen = t.resLen → job.snap.n * k.bytes ≤ job'.snap.cap →
    ∃ v, exec (decompressOf k) u = .next v ∧ v.status.err = false ∧ v.resCount = job.snap.srcLen ∧
      v.resLen.toNat + ((job.snap.n + k.group - 1) / k.group * k.group - job.snap.n) = t.resLen.toNat ∧
      ∀ x, x < job.snap.n * k.bytes → v.byte (job'.snap.dst + x) = s.byte (job.snap.src + x)

/-- 41_predictor.md R146, 93 I24: bytes after the last field the decoder needs change nothing, and it never reads past its
input (60_exceptions.md R196). -/
def Obligations.DecoderIgnoresWhatFollows : Prop :=
  ∀ (k : Width) (h : HashPair k.bits) (e1 e2 n : Nat) (rest tail : List Byte) (vs : List (BitVec k.bits)) (pos : Nat),
    decodeStream k h e1 e2 n rest = some (vs, pos) →
    decodeStream k h e1 e2 n (rest ++ tail) = some (vs, pos) ∧ pos ≤ 5 + rest.length ∧ vs.length = n

/-- 30_encoding.md R78 to R81, R85, R86: every code has a meaning in a value slot, canonical or not: with its field there, it
decodes to its prediction XOR the field; and the codes of a record are read from its code bytes with the first in the most
significant bits. 41_predictor.md R145, R146, for every stream, canonical or not (93 I23): the loop is driven by the count n
alone. It starts from the zero state at position 5; with n = 0 it ends; with n > 0 it reads CB code bytes, decodes the first
min(G, n) codes in order, and goes on with n - min(G, n) from there; a code byte or a field that is not there ends it with no
answer (UNEXPECTED_EOF). -/
def Obligations.EveryCodeDecodes : Prop :=
  ∀ (k : Width) (g cb b l : Nat), (k, g, cb, b, l) ∈ [(Width.w32, 8, 3, 3, 4), (.w64, 2, 1, 4, 8)] →
    (∀ codes : List Byte, codes.length = cb →
      unpackCodes k codes = (List.range g).map fun j => beValue codes / 2 ^ (b * (g - 1 - j)) % 2 ^ b) ∧
    (∀ (h : HashPair k.bits) (e1 e2 c : Nat) (p : PredictionState k.bits) (field rest : List Byte) (pos : Nat),
      c < 2 ^ b → field.length = (if c ≤ l then c else c - l) →
      let v := (if c ≤ l then Sparse.get 0#k.bits p.table1 p.hash1 else p.lastValue + Sparse.get 0#k.bits p.table2 p.hash2) ^^^
        BitVec.ofNat k.bits (beValue field)
      decodeValue k h e1 e2 c p { pos := pos, rest := field ++ rest } =
        some (v, p.predict.update h e1 e2 v, { pos := pos + field.length, rest := rest })) ∧
    (∀ (h : HashPair k.bits) (e1 e2 c : Nat) (p : PredictionState k.bits) (r : Reader),
      c < 2 ^ b → r.rest.length < (if c ≤ l then c else c - l) → decodeValue k h e1 e2 c p r = none) ∧
    (∀ (h : HashPair k.bits) (e1 e2 n : Nat) (rest : List Byte),
      decodeStream k h e1 e2 0 rest = some ([], 5) ∧
      decodeStream k h e1 e2 n rest =
        (decodeGroups k h e1 e2 ((n + g - 1) / g) n (PredictionState.zero k.bits) { pos := 5, rest := rest }).map
          fun (vs, r) => (vs, r.pos)) ∧
    (∀ (h : HashPair k.bits) (e1 e2 n : Nat) (p : PredictionState k.bits) (r : Reader),
      decodeGroups k h e1 e2 ((0 + g - 1) / g) 0 p r = some ([], r) ∧
      (0 < n → r.rest.length < cb → decodeGroups k h e1 e2 ((n + g - 1) / g) n p r = none) ∧
      (0 < n → cb ≤ r.rest.length → decodeGroups k h e1 e2 ((n + g - 1) / g) n p r =
        (decodeSlots k h e1 e2
            ((List.range (min g n)).map fun j => beValue (r.rest.take cb) / 2 ^ (b * (g - 1 - j)) % 2 ^ b)
            p { pos := r.pos + cb, rest := r.rest.drop cb }).bind fun (vs, p, r) =>
          (decodeGroups k h e1 e2 ((n - min g n + g - 1) / g) (n - min g n) p r).map fun (ws, r) => (vs ++ ws, r))) ∧
    (∀ (h : HashPair k.bits) (e1 e2 c : Nat) (cs : List Nat) (p : PredictionState k.bits) (r : Reader),
      decodeSlots k h e1 e2 [] p r = some ([], p, r) ∧
      decodeSlots k h e1 e2 (c :: cs) p r =
        (decodeValue k h e1 e2 c p r).bind fun (v, p, r) =>
          (decodeSlots k h e1 e2 cs p r).map fun (vs, p, r) => (v :: vs, p, r))

/-! ### Hazards -/

/-- 70_reset_and_hazards.md R224, R226, 20_memory.md R51: an agent's write of a byte takes effect; while BUSY it is noted
against the command's regions, those that its word's command declares, and while IDLE it does nothing else. At any address,
with no mem_ok check and a byte at a time, is the model's choice (log 14), and a device's byte is refused (log 12). -/
def Obligations.AgentWriteWhileBusyIsNoted : Prop :=
  (∀ s rest a b job, Turn s (.memWrite a b) rest → s.engine = .busy job → s.platform.devices = [] →
    ∃ t job', step s = .next t ∧ t.engine = .busy job' ∧ job'.snap = job.snap ∧
      (job'.inputTouched = true ↔ job.inputTouched = true ∨ job.regions.inputCovers a.toNat = true) ∧
      (∀ x, x ∈ job'.outputTouched ↔ x ∈ job.outputTouched ∨ (x = a ∧ job.regions.outputCovers a.toNat = true)) ∧
      (∀ x, t.byte x = if x = a.toNat then b else s.byte x) ∧
      { t with engine := s.engine, memory := s.memory, inputs := s.inputs } = s) ∧
  (∀ s rest a b, Turn s (.memWrite a b) rest → s.engine = .idle → s.platform.devices = [] →
    ∃ t, step s = .next t ∧ (∀ x, t.byte x = if x = a.toNat then b else s.byte x) ∧
      { t with memory := s.memory } = s.turned rest) ∧
  (∀ s rest a b, Turn s (.memWrite a b) rest → (∃ d ∈ s.platform.devices, d.holds a.toNat) →
    step s = .refused .deviceAccess) ∧
  (∀ job : Job, (∀ i, decodeWord job.snap.cmd = .command i → job.regions = regionsOf (shapeOf i) job.snap) ∧
    (∀ e, decodeWord job.snap.cmd = .illegal e → job.regions = ⟨[], []⟩))

/-- 70_reset_and_hazards.md R224: a command whose input an agent wrote still completes: ERRCODE is 0 or a code it can raise (60_exceptions.md R190, R200),
and it writes no byte outside its output regions. -/
def Obligations.DisturbedCommandStillCompletes : Prop :=
  ∀ i s job t, s.engine = .busy job → job.inputTouched = true → job.outputTouched = [] → exec i s = .next t →
    t.engine = .idle ∧ t.status.done = true ∧ ConfigKept s t ∧
    (t.status.err = true ↔ t.status.errcode ≠ 0#4) ∧
    (t.status.errcode = 0#4 ∨ i ≠ .nop ∧ t.status.errcode ∈ [2#4, 3#4, 4#4, 8#4] ∨
      (i = .pdecomp32 ∨ i = .pdecomp64) ∧ t.status.errcode ∈ [5#4, 6#4, 7#4]) ∧
    BytesKeptOutside (regionsOf (shapeOf i) job.snap).outputs s t

/-- 70_reset_and_hazards.md R225: an agent's read of an output byte while BUSY gives the draw's value (log 6), whatever is
stored there, and does not disturb the command; 20_memory.md R51: a read of any other byte, and of every byte while IDLE,
gives what is stored there and changes nothing (at any address, with no mem_ok check: log 14; the reader's latch: log 19). -/
def Obligations.AgentReadOfOutputWhileBusyIsFree : Prop :=
  (∀ s rest a job, Turn s (.memRead a) rest → s.engine = .busy job → s.platform.devices = [] →
    job.regions.outputCovers a.toNat = true →
    step s = .next { s.turned rest with
      readData := 0#24 ++ Config.freeByte s.draws a.toNat, draws := s.draws + 1 }) ∧
  (∀ s rest a, Turn s (.memRead a) rest → s.platform.devices = [] →
    (∀ job, s.engine = .busy job → job.regions.outputCovers a.toNat = false) →
    step s = .next { s.turned rest with readData := 0#24 ++ s.byte a.toNat })

/-- 70_reset_and_hazards.md R226: output bytes an agent wrote while BUSY hold an unspecified value (the draw's: log 6), and are
the only ones that differ from the undisturbed command; its status and results are as its rule gives them. That this holds of
error completions too, where 60_exceptions.md R202 leaves memory unchanged, is the model's reading (DEDUCED, log 11). -/
def Obligations.AgentWrittenOutputAloneIsUnspecified : Prop :=
  ∀ i s job t, s.engine = .busy job → job.inputTouched = false →
    exec i { s with engine := .busy { job with outputTouched := [] } } = .next t →
    ∃ u, exec i s = .next u ∧ u.status = t.status ∧ u.resLen = t.resLen ∧ u.resCount = t.resCount ∧ u.resCfg = t.resCfg ∧
      (∀ x, (∀ a ∈ job.outputTouched, a.toNat ≠ x) → u.byte x = t.byte x) ∧
      ∀ a ∈ job.outputTouched, u.byte a.toNat = Config.freeByte s.draws a.toNat

/-- 70_reset_and_hazards.md R227, 20_memory.md R65: a command runs on its snapshot alone: other values in the configuration
registers change nothing of what it does. -/
def Obligations.CommandRunsOnItsSnapshot : Prop :=
  ∀ i s t hc sa sl da dc ps, exec i s = .next t →
    exec i { s with hashCfg := hc, srcAddr := sa, srcLen := sl, dstAddr := da, dstCap := dc, planeStride := ps } =
      .next { t with hashCfg := hc, srcAddr := sa, srcLen := sl, dstAddr := da, dstCap := dc, planeStride := ps }

/-! ### Rules of the whole machine -/

/-- 20_memory.md R60: whatever its outcome, a command changes no byte outside its declared output regions, and none inside
an input region (bytes that an agent wrote while BUSY apart, R226); 10_state.md R35: undisturbed, it writes no byte at DST + k
with k ≥ CAP, and none below DST. -/
def Obligations.CommandWritesOnlyItsOutputs : Prop :=
  ∀ i s job t, s.engine = .busy job → exec i s = .next t →
    (∀ x, (regionsOf (shapeOf i) job.snap).outputCovers x = false → (∀ a ∈ job.outputTouched, a.toNat ≠ x) →
      t.byte x = s.byte x) ∧
    (job.undisturbed → ∀ x, (regionsOf (shapeOf i) job.snap).inputCovers x = true → t.byte x = s.byte x) ∧
    (job.undisturbed → ∀ x, (x < job.snap.dstAddr.toNat ∨ job.snap.dstAddr.toNat + job.snap.dstCap.toNat ≤ x) →
      t.byte x = s.byte x)

/-- 20_memory.md R60, 41_predictor.md R155, 10_state.md R43: what a command does depends on its snapshot and its input bytes
alone: with other bytes elsewhere and another internal state it completes alike and writes the same bytes. -/
def Obligations.CommandDependsOnlyOnItsInputs : Prop :=
  ∀ i s job t m x, InFlight s job → exec i s = .next t →
    (∀ a, (regionsOf (shapeOf i) job.snap).inputCovers a = true → readByte m a = s.byte a) →
    ∃ u, exec i { s with memory := m, internal := x } = .next u ∧ u.status = t.status ∧
      u.resLen = t.resLen ∧ u.resCount = t.resCount ∧ u.resCfg = t.resCfg ∧
      ∀ a, u.byte a = t.byte a ∨ (u.byte a = readByte m a ∧ t.byte a = s.byte a)

/-- 10_state.md R43, 93 I16: the PredictionState and the cursor between commands are never observed: a step from another
internal state gives the same next state but for the internal state. -/
def Obligations.InternalStateIsNeverObserved : Prop :=
  ∀ s t x, step s = .next t → ∃ y, step { s with internal := x } = .next { t with internal := y }

/-- 10_state.md R26, R28, R30; 60_exceptions.md R190; 70_reset_and_hazards.md R228: every step keeps the machine's invariant. -/
def Obligations.EveryStepKeepsTheInvariant : Prop :=
  ∀ s t, s.Inv → step s = .next t → t.Inv

/-- The invariant holds after reset (10_state.md R46). -/
def Obligations.ResetMeetsTheInvariant : Prop := State.reset.Inv

/-- 10_state.md R29: OVERRUN, once 1, stays 1 through every step but a STATUS write with bit 3 and a reset. -/
def Obligations.OverrunIsSticky : Prop :=
  ∀ s t, step s = .next t → s.status.overrun = true → t.status.overrun = false →
    ∃ op rest, s.inputs = op :: rest ∧
      (op = .rst ∨ op = .powerGate false ∨
        (∃ x, op = .write (s.platform.regBase + 0x08) 4 x ∧ x.getLsbD 3 = true) ∨
        (∃ x, op = .write (s.platform.regBase + 0x04) 4 x ∧ x.getLsbD 1 = true))

/-- 10_state.md R26, R27; 70_reset_and_hazards.md R221, R231: the only events that end BUSY are the completion, which sets
DONE, and a reset, by the reset input or by CTRL, which leaves DONE 0. -/
def Obligations.OnlyCompletionOrResetEndsBusy : Prop :=
  ∀ s t job, s.engine = .busy job → step s = .next t → t.engine = .idle →
    (s.engineTurn = true ∧ t.status.done = true) ∨
    (RegistersReset t ∧ t.status.done = false ∧ ∃ op rest, Turn s op rest ∧
      (op = .rst ∨ ∃ x, op = .write (s.platform.regBase + 0x04) 4 x ∧ x.getLsbD 1 = true))

/-- 70_reset_and_hazards.md R231 (with LATENCY as log 3 counts it): within one step more than the command's wait, a busy
engine is idle again, by completion or by reset, or a step was refused on the way. -/
def Obligations.BusyEndsWithinItsWait : Prop :=
  ∀ s job, s.engine = .busy job →
    ∃ k, k ≤ job.wait + 1 ∧ ∀ t, runSteps k s = .next t → t.engine = .idle

/-- 42_host_access.md R180, 60_exceptions.md R205: on the engine's turn, on a platform without devices, the command
completes, whatever its word and operands are. -/
def Obligations.EngineStepAlwaysCompletes : Prop :=
  ∀ s, s.platform.wf = true → s.platform.devices = [] → s.engineTurn = true →
    ∃ t, step s = .next t ∧ t.engine = .idle ∧ t.status.done = true ∧ ConfigKept s t

/-- 60_exceptions.md R205, 93 I25: the machine never stops with a fault, and it refuses only what the spec refuses or gives
no meaning; `deviceRegion` is the engine step's alone (20_memory.md R57), never a reset's or another transaction's. -/
def Obligations.NoStepFaults : Prop :=
  (∀ s f, step s ≠ .fault f) ∧
  (∀ s r, s.platform.wf = true → s.platform.devices = [] → step s = .refused r →
    r = .outsideWindow ∨ r = .windowAccessUndefined ∨ r = .powerGatedWhileBusy) ∧
  (∀ s r, s.platform.wf = true → step s = .refused r → s.engineTurn = true → r = .deviceRegion) ∧
  (∀ s r, s.platform.wf = true → step s = .refused r → s.engineTurn = false →
    r = .outsideWindow ∨ r = .windowAccessUndefined ∨ r = .powerGatedWhileBusy ∨ r = .deviceAccess)

/-- 00_scope.md R6, R7: a platform with an odd E_MAX, or one above 30, is rejected, and no step changes the platform's
parameters. -/
def Obligations.PlatformIsCheckedAndFixed : Prop :=
  (∀ s, (s.platform.eMax % 2 = 1 ∨ 30 < s.platform.eMax) → step s = .refused .configurationRejected) ∧
  (∀ s t, step s = .next t → t.platform = s.platform)
end

