-- ==== Sys2Proof/Laws/State.lean ====
section
/-! SUPPORT. One lemma per field per update of State: acceptance, completion, reset, and a transaction's turn. -/

namespace Sys2Proof.Machine

/-! ### Acceptance -/

@[simp] theorem acceptWith_platform (w : Nat) (x : Word) (s : State) : (acceptWith w x s).platform = s.platform := rfl
@[simp] theorem acceptWith_irqEn (w : Nat) (x : Word) (s : State) : (acceptWith w x s).irqEn = s.irqEn := rfl
@[simp] theorem acceptWith_status (w : Nat) (x : Word) (s : State) : (acceptWith w x s).status = s.status.accepted := rfl
@[simp] theorem acceptWith_cmd (w : Nat) (x : Word) (s : State) : (acceptWith w x s).cmd = x := rfl
@[simp] theorem acceptWith_hashCfg (w : Nat) (x : Word) (s : State) : (acceptWith w x s).hashCfg = s.hashCfg := rfl
@[simp] theorem acceptWith_srcAddr (w : Nat) (x : Word) (s : State) : (acceptWith w x s).srcAddr = s.srcAddr := rfl
@[simp] theorem acceptWith_srcLen (w : Nat) (x : Word) (s : State) : (acceptWith w x s).srcLen = s.srcLen := rfl
@[simp] theorem acceptWith_dstAddr (w : Nat) (x : Word) (s : State) : (acceptWith w x s).dstAddr = s.dstAddr := rfl
@[simp] theorem acceptWith_dstCap (w : Nat) (x : Word) (s : State) : (acceptWith w x s).dstCap = s.dstCap := rfl
@[simp] theorem acceptWith_planeStride (w : Nat) (x : Word) (s : State) : (acceptWith w x s).planeStride = s.planeStride := rfl
@[simp] theorem acceptWith_resLen (w : Nat) (x : Word) (s : State) : (acceptWith w x s).resLen = 0#32 := rfl
@[simp] theorem acceptWith_resCount (w : Nat) (x : Word) (s : State) : (acceptWith w x s).resCount = 0#32 := rfl
@[simp] theorem acceptWith_resCfg (w : Nat) (x : Word) (s : State) : (acceptWith w x s).resCfg = ResCfg.zero := rfl
@[simp] theorem acceptWith_engine (w : Nat) (x : Word) (s : State) : (acceptWith w x s).engine = .busy { snap := s.snapshot x, inputTouched := false, outputTouched := [], wait := w } := rfl
@[simp] theorem acceptWith_internal (w : Nat) (x : Word) (s : State) : (acceptWith w x s).internal = s.internal := rfl
@[simp] theorem acceptWith_memory (w : Nat) (x : Word) (s : State) : (acceptWith w x s).memory = s.memory := rfl
@[simp] theorem acceptWith_inputs (w : Nat) (x : Word) (s : State) : (acceptWith w x s).inputs = s.inputs := rfl
@[simp] theorem acceptWith_readData (w : Nat) (x : Word) (s : State) : (acceptWith w x s).readData = s.readData := rfl
@[simp] theorem acceptWith_delays (w : Nat) (x : Word) (s : State) : (acceptWith w x s).delays = s.delays := rfl
@[simp] theorem acceptWith_draws (w : Nat) (x : Word) (s : State) : (acceptWith w x s).draws = s.draws := rfl

@[simp] theorem accept_platform (x : Word) (s : State) : (accept x s).platform = s.platform := rfl
@[simp] theorem accept_irqEn (x : Word) (s : State) : (accept x s).irqEn = s.irqEn := rfl
@[simp] theorem accept_status (x : Word) (s : State) : (accept x s).status = s.status.accepted := rfl
@[simp] theorem accept_cmd (x : Word) (s : State) : (accept x s).cmd = x := rfl
@[simp] theorem accept_hashCfg (x : Word) (s : State) : (accept x s).hashCfg = s.hashCfg := rfl
@[simp] theorem accept_srcAddr (x : Word) (s : State) : (accept x s).srcAddr = s.srcAddr := rfl
@[simp] theorem accept_srcLen (x : Word) (s : State) : (accept x s).srcLen = s.srcLen := rfl
@[simp] theorem accept_dstAddr (x : Word) (s : State) : (accept x s).dstAddr = s.dstAddr := rfl
@[simp] theorem accept_dstCap (x : Word) (s : State) : (accept x s).dstCap = s.dstCap := rfl
@[simp] theorem accept_planeStride (x : Word) (s : State) : (accept x s).planeStride = s.planeStride := rfl
@[simp] theorem accept_resLen (x : Word) (s : State) : (accept x s).resLen = 0#32 := rfl
@[simp] theorem accept_resCount (x : Word) (s : State) : (accept x s).resCount = 0#32 := rfl
@[simp] theorem accept_resCfg (x : Word) (s : State) : (accept x s).resCfg = ResCfg.zero := rfl
@[simp] theorem accept_engine (x : Word) (s : State) : (accept x s).engine = .busy { snap := s.snapshot x, inputTouched := false, outputTouched := [], wait := s.delays.headD 0 } := rfl
@[simp] theorem accept_internal (x : Word) (s : State) : (accept x s).internal = s.internal := rfl
@[simp] theorem accept_memory (x : Word) (s : State) : (accept x s).memory = s.memory := rfl
@[simp] theorem accept_inputs (x : Word) (s : State) : (accept x s).inputs = s.inputs := rfl
@[simp] theorem accept_readData (x : Word) (s : State) : (accept x s).readData = s.readData := rfl
@[simp] theorem accept_delays (x : Word) (s : State) : (accept x s).delays = s.delays.tail := rfl
@[simp] theorem accept_draws (x : Word) (s : State) : (accept x s).draws = s.draws := rfl

/-! ### Completion -/

@[simp] theorem complete_platform (sh : Shape) (s : State) (job : Job) (c : Completion) : (complete sh s job c).platform = s.platform := rfl
@[simp] theorem complete_irqEn (sh : Shape) (s : State) (job : Job) (c : Completion) : (complete sh s job c).irqEn = s.irqEn := rfl
@[simp] theorem complete_status (sh : Shape) (s : State) (job : Job) (c : Completion) : (complete sh s job c).status = s.status.completed (settled sh s job c).error := rfl
@[simp] theorem complete_cmd (sh : Shape) (s : State) (job : Job) (c : Completion) : (complete sh s job c).cmd = s.cmd := rfl
@[simp] theorem complete_hashCfg (sh : Shape) (s : State) (job : Job) (c : Completion) : (complete sh s job c).hashCfg = s.hashCfg := rfl
@[simp] theorem complete_srcAddr (sh : Shape) (s : State) (job : Job) (c : Completion) : (complete sh s job c).srcAddr = s.srcAddr := rfl
@[simp] theorem complete_srcLen (sh : Shape) (s : State) (job : Job) (c : Completion) : (complete sh s job c).srcLen = s.srcLen := rfl
@[simp] theorem complete_dstAddr (sh : Shape) (s : State) (job : Job) (c : Completion) : (complete sh s job c).dstAddr = s.dstAddr := rfl
@[simp] theorem complete_dstCap (sh : Shape) (s : State) (job : Job) (c : Completion) : (complete sh s job c).dstCap = s.dstCap := rfl
@[simp] theorem complete_planeStride (sh : Shape) (s : State) (job : Job) (c : Completion) : (complete sh s job c).planeStride = s.planeStride := rfl
@[simp] theorem complete_resLen (sh : Shape) (s : State) (job : Job) (c : Completion) : (complete sh s job c).resLen = (settled sh s job c).resLen := rfl
@[simp] theorem complete_resCount (sh : Shape) (s : State) (job : Job) (c : Completion) : (complete sh s job c).resCount = (settled sh s job c).resCount := rfl
@[simp] theorem complete_resCfg (sh : Shape) (s : State) (job : Job) (c : Completion) : (complete sh s job c).resCfg = (settled sh s job c).resCfg := rfl
@[simp] theorem complete_engine (sh : Shape) (s : State) (job : Job) (c : Completion) : (complete sh s job c).engine = .idle := rfl
@[simp] theorem complete_internal (sh : Shape) (s : State) (job : Job) (c : Completion) : (complete sh s job c).internal = Config.freeInternal s.draws := rfl
@[simp] theorem complete_memory (sh : Shape) (s : State) (job : Job) (c : Completion) : (complete sh s job c).memory = (settled sh s job c).memory := rfl
@[simp] theorem complete_inputs (sh : Shape) (s : State) (job : Job) (c : Completion) : (complete sh s job c).inputs = s.inputs := rfl
@[simp] theorem complete_readData (sh : Shape) (s : State) (job : Job) (c : Completion) : (complete sh s job c).readData = s.readData := rfl
@[simp] theorem complete_delays (sh : Shape) (s : State) (job : Job) (c : Completion) : (complete sh s job c).delays = s.delays := rfl
@[simp] theorem complete_draws (sh : Shape) (s : State) (job : Job) (c : Completion) : (complete sh s job c).draws = s.draws + 1 := rfl

/-! ### Reset -/

@[simp] theorem resetTo_platform (m : Memory) (s : State) : (resetTo m s).platform = s.platform := rfl
@[simp] theorem resetTo_irqEn (m : Memory) (s : State) : (resetTo m s).irqEn = State.reset.irqEn := rfl
@[simp] theorem resetTo_status (m : Memory) (s : State) : (resetTo m s).status = State.reset.status := rfl
@[simp] theorem resetTo_cmd (m : Memory) (s : State) : (resetTo m s).cmd = State.reset.cmd := rfl
@[simp] theorem resetTo_hashCfg (m : Memory) (s : State) : (resetTo m s).hashCfg = State.reset.hashCfg := rfl
@[simp] theorem resetTo_srcAddr (m : Memory) (s : State) : (resetTo m s).srcAddr = State.reset.srcAddr := rfl
@[simp] theorem resetTo_srcLen (m : Memory) (s : State) : (resetTo m s).srcLen = State.reset.srcLen := rfl
@[simp] theorem resetTo_dstAddr (m : Memory) (s : State) : (resetTo m s).dstAddr = State.reset.dstAddr := rfl
@[simp] theorem resetTo_dstCap (m : Memory) (s : State) : (resetTo m s).dstCap = State.reset.dstCap := rfl
@[simp] theorem resetTo_planeStride (m : Memory) (s : State) : (resetTo m s).planeStride = State.reset.planeStride := rfl
@[simp] theorem resetTo_resLen (m : Memory) (s : State) : (resetTo m s).resLen = State.reset.resLen := rfl
@[simp] theorem resetTo_resCount (m : Memory) (s : State) : (resetTo m s).resCount = State.reset.resCount := rfl
@[simp] theorem resetTo_resCfg (m : Memory) (s : State) : (resetTo m s).resCfg = State.reset.resCfg := rfl
@[simp] theorem resetTo_engine (m : Memory) (s : State) : (resetTo m s).engine = State.reset.engine := rfl
@[simp] theorem resetTo_internal (m : Memory) (s : State) : (resetTo m s).internal = Config.freeInternal s.draws := rfl
@[simp] theorem resetTo_memory (m : Memory) (s : State) : (resetTo m s).memory = m := rfl
@[simp] theorem resetTo_inputs (m : Memory) (s : State) : (resetTo m s).inputs = s.inputs := rfl
@[simp] theorem resetTo_readData (m : Memory) (s : State) : (resetTo m s).readData = s.readData := rfl
@[simp] theorem resetTo_delays (m : Memory) (s : State) : (resetTo m s).delays = s.delays := rfl
@[simp] theorem resetTo_draws (m : Memory) (s : State) : (resetTo m s).draws = s.draws + 1 := rfl

/-! ### A transaction's turn -/

@[simp] theorem turned_platform (s : State) (rest : List HostOp) : (s.turned rest).platform = s.platform := rfl
@[simp] theorem turned_irqEn (s : State) (rest : List HostOp) : (s.turned rest).irqEn = s.irqEn := rfl
@[simp] theorem turned_status (s : State) (rest : List HostOp) : (s.turned rest).status = s.status := rfl
@[simp] theorem turned_cmd (s : State) (rest : List HostOp) : (s.turned rest).cmd = s.cmd := rfl
@[simp] theorem turned_hashCfg (s : State) (rest : List HostOp) : (s.turned rest).hashCfg = s.hashCfg := rfl
@[simp] theorem turned_srcAddr (s : State) (rest : List HostOp) : (s.turned rest).srcAddr = s.srcAddr := rfl
@[simp] theorem turned_srcLen (s : State) (rest : List HostOp) : (s.turned rest).srcLen = s.srcLen := rfl
@[simp] theorem turned_dstAddr (s : State) (rest : List HostOp) : (s.turned rest).dstAddr = s.dstAddr := rfl
@[simp] theorem turned_dstCap (s : State) (rest : List HostOp) : (s.turned rest).dstCap = s.dstCap := rfl
@[simp] theorem turned_planeStride (s : State) (rest : List HostOp) : (s.turned rest).planeStride = s.planeStride := rfl
@[simp] theorem turned_resLen (s : State) (rest : List HostOp) : (s.turned rest).resLen = s.resLen := rfl
@[simp] theorem turned_resCount (s : State) (rest : List HostOp) : (s.turned rest).resCount = s.resCount := rfl
@[simp] theorem turned_resCfg (s : State) (rest : List HostOp) : (s.turned rest).resCfg = s.resCfg := rfl
@[simp] theorem turned_engine (s : State) (rest : List HostOp) : (s.turned rest).engine = s.engine.tick := rfl
@[simp] theorem turned_internal (s : State) (rest : List HostOp) : (s.turned rest).internal = s.internal := rfl
@[simp] theorem turned_memory (s : State) (rest : List HostOp) : (s.turned rest).memory = s.memory := rfl
@[simp] theorem turned_inputs (s : State) (rest : List HostOp) : (s.turned rest).inputs = rest := rfl
@[simp] theorem turned_readData (s : State) (rest : List HostOp) : (s.turned rest).readData = s.readData := rfl
@[simp] theorem turned_delays (s : State) (rest : List HostOp) : (s.turned rest).delays = s.delays := rfl
@[simp] theorem turned_draws (s : State) (rest : List HostOp) : (s.turned rest).draws = s.draws := rfl

/-! ### STATUS -/

@[simp] theorem accepted_done (st : Status) : st.accepted.done = false := rfl
@[simp] theorem accepted_err (st : Status) : st.accepted.err = false := rfl
@[simp] theorem accepted_overrun (st : Status) : st.accepted.overrun = st.overrun := rfl
@[simp] theorem accepted_errcode (st : Status) : st.accepted.errcode = 0#4 := rfl
@[simp] theorem completed_done (st : Status) (e : Option ErrorCode) : (st.completed e).done = true := rfl
@[simp] theorem completed_err (st : Status) (e : Option ErrorCode) : (st.completed e).err = e.isSome := rfl
@[simp] theorem completed_overrun (st : Status) (e : Option ErrorCode) : (st.completed e).overrun = st.overrun := rfl
@[simp] theorem completed_errcode (st : Status) (e : Option ErrorCode) : (st.completed e).errcode = errcodeOf e := rfl
@[simp] theorem overran_done (st : Status) : st.overran.done = st.done := rfl
@[simp] theorem overran_err (st : Status) : st.overran.err = st.err := rfl
@[simp] theorem overran_overrun (st : Status) : st.overran.overrun = true := rfl
@[simp] theorem overran_errcode (st : Status) : st.overran.errcode = st.errcode := rfl
@[simp] theorem clear_done (st : Status) (x : Word) : (st.clear x).done = (if x.getLsbD 1 then false else st.done) := rfl
@[simp] theorem clear_err (st : Status) (x : Word) : (st.clear x).err = (if x.getLsbD 2 then false else st.err) := rfl
@[simp] theorem clear_errcode (st : Status) (x : Word) :
    (st.clear x).errcode = (if x.getLsbD 2 then 0#4 else st.errcode) := rfl
@[simp] theorem clear_overrun (st : Status) (x : Word) :
    (st.clear x).overrun = (if x.getLsbD 3 then false else st.overrun) := rfl

/-! ### The engine -/

@[simp] theorem isBusy_idle : Engine.idle.isBusy = false := rfl
@[simp] theorem isBusy_busy (job : Job) : (Engine.busy job).isBusy = true := rfl
@[simp] theorem tick_idle : Engine.idle.tick = .idle := rfl
@[simp] theorem tick_busy (job : Job) : (Engine.busy job).tick = .busy { job with wait := job.wait - 1 } := rfl
@[simp] theorem noteWrite_idle (a : Word) : Engine.idle.noteWrite a = .idle := rfl
@[simp] theorem noteWrite_busy (a : Word) (job : Job) : (Engine.busy job).noteWrite a = .busy (job.noteWrite a) := rfl
@[simp] theorem job_noteWrite_snap (job : Job) (a : Word) : (job.noteWrite a).snap = job.snap := rfl
@[simp] theorem job_noteWrite_wait (job : Job) (a : Word) : (job.noteWrite a).wait = job.wait := rfl

/-- ERR and ERRCODE of a completion agree (10_state.md R28). -/
theorem errcodeOf_eq_zero (e : Option ErrorCode) : errcodeOf e = 0#4 ↔ e = none := by
  rcases e with _ | e
  · simp [errcodeOf]
  · cases e <;> simp [errcodeOf, ErrorCode.number]

/-- No completion reports a code above 8 (60_exceptions.md R190). -/
theorem errcodeOf_toNat_le (e : Option ErrorCode) : (errcodeOf e).toNat ≤ 8 := by
  rcases e with _ | e
  · decide
  · cases e <;> decide

/-- A completion keeps what no command writes. -/
theorem complete_configKept (sh : Shape) (s : State) (job : Job) (c : Completion) : ConfigKept s (complete sh s job c) := by
  constructor <;> rfl

/-- Without an agent's interference a completion is as the command's rule gives it. -/
theorem settled_undisturbed {job : Job} (h : job.undisturbed) (sh : Shape) (s : State) (c : Completion) :
    settled sh s job c = c := by
  obtain ⟨h1, h2⟩ := h
  simp [settled, h1, h2, freeTouched]

/-- RES_CFG's word as a number: E1 in [4:0], E2 in [12:8] (10_state.md R39). -/
theorem resCfg_toWord (c : ResCfg) : c.toWord = BitVec.ofNat 32 (cfgNumber c.e1.toNat c.e2.toNat) := by
  have h1 := c.e1.isLt
  have h2 := c.e2.isLt
  apply BitVec.eq_of_toNat_eq
  simp only [ResCfg.toWord, cfgNumber, BitVec.toNat_append, BitVec.toNat_ofNat]
  simp only [Nat.shiftLeft_eq, Nat.zero_mod, Nat.zero_mul, Nat.zero_or]
  rw [← Nat.shiftLeft_eq, ← Nat.shiftLeft_add_eq_or_of_lt (by omega)]
  simp [Nat.shiftLeft_eq]; omega

/-- The word of exponents that fit their fields. -/
theorem cfgNumber_ofExponents {e1 e2 : Nat} (h1 : e1 < 32) (h2 : e2 < 32) :
    cfgNumber (ResCfg.ofExponents e1 e2).e1.toNat (ResCfg.ofExponents e1 e2).e2.toNat = cfgNumber e1 e2 := by
  simp [ResCfg.ofExponents, Nat.mod_eq_of_lt h1, Nat.mod_eq_of_lt h2]

/-- How an undisturbed command completes. -/
theorem complete_completed {job : Job} (h : job.undisturbed) (sh : Shape) (s : State) (c : Completion) :
    Completed (complete sh s job c) (errcodeOf c.error) c.resLen c.resCount (cfgNumber c.resCfg.e1.toNat c.resCfg.e2.toNat) where
  idle := rfl
  done := rfl
  err := by
    rw [complete_status, settled_undisturbed h, completed_err]
    rcases c.error with _ | e
    · rfl
    · cases e <;> rfl
  errcode := by simp [settled_undisturbed h]
  resLen := by simp [settled_undisturbed h]
  resCount := by simp [settled_undisturbed h]
  resCfg := by simp [readReg, settled_undisturbed h, resCfg_toWord]

end Sys2Proof.Machine
end

