-- ==== Sys2Proof/Laws/Memory.lean ====
section
/-! SUPPORT. Memory: a read after a write, what a write leaves alone, and that every memory operation keeps the canonical
form. The same for the lists of differences that the predictor's tables are. -/

namespace Sys2Proof.Machine

/-! ### Lists of differences -/

section Sparse
variable {β : Type} (d : β)

@[simp] theorem Sparse.get_nil (a : Nat) : Sparse.get d [] a = d := rfl

theorem Sparse.get_cons (k : Nat) (x : β) (m : List (Nat × β)) (a : Nat) :
    Sparse.get d ((k, x) :: m) a = if k = a then x else Sparse.get d m a := rfl

theorem Sparse.get_erase (m : List (Nat × β)) (a k : Nat) :
    Sparse.get d (Sparse.erase m a) k = if k = a then d else Sparse.get d m k := by
  induction m with
  | nil => simp [Sparse.erase]
  | cons c m ih =>
    obtain ⟨j, x⟩ := c
    simp only [Sparse.erase]
    split <;> simp only [Sparse.get_cons, ih] <;> grind

theorem Sparse.get_insert_erase (m : List (Nat × β)) (a k : Nat) (b : β) :
    Sparse.get d (Sparse.insert (Sparse.erase m a) a b) k = if k = a then b else Sparse.get d m k := by
  induction m with
  | nil => simp [Sparse.erase, Sparse.insert, Sparse.get_cons, eq_comm]
  | cons c m ih =>
    obtain ⟨j, x⟩ := c
    simp only [Sparse.erase]
    split
    · rw [ih, Sparse.get_cons]; grind
    · simp only [Sparse.insert]
      split
      · simp only [Sparse.get_cons, Sparse.get_erase]; grind
      · simp only [Sparse.get_cons, ih]; grind

/-- Reading after a write, on every list. -/
theorem Sparse.get_put [DecidableEq β] (m : List (Nat × β)) (a k : Nat) (b : β) :
    Sparse.get d (Sparse.put d m a b) k = if k = a then b else Sparse.get d m k := by
  unfold Sparse.put
  split
  · rename_i h; rw [Sparse.get_erase, h]
  · exact Sparse.get_insert_erase d m a k b

theorem Sparse.mem_erase {m : List (Nat × β)} {a : Nat} {c : Nat × β} :
    c ∈ Sparse.erase m a ↔ c ∈ m ∧ c.1 ≠ a := by
  induction m with
  | nil => simp [Sparse.erase]
  | cons e m ih =>
    obtain ⟨j, x⟩ := e
    simp only [Sparse.erase]
    split <;> simp only [List.mem_cons, ih] <;> grind

theorem Sparse.mem_insert {m : List (Nat × β)} {a : Nat} {b : β} {c : Nat × β} :
    c ∈ Sparse.insert m a b ↔ c = (a, b) ∨ c ∈ m := by
  induction m with
  | nil => simp [Sparse.insert]
  | cons e m ih =>
    obtain ⟨j, x⟩ := e
    simp only [Sparse.insert]
    split
    · simp only [List.mem_cons]
    · simp only [List.mem_cons, ih]
      exact or_left_comm

theorem Sparse.mem_put [DecidableEq β] {m : List (Nat × β)} {a : Nat} {b : β} {c : Nat × β}
    (h : c ∈ Sparse.put d m a b) : c = (a, b) ∨ c ∈ m := by
  unfold Sparse.put at h
  split at h
  · exact .inr (Sparse.mem_erase.1 h).1
  · rcases Sparse.mem_insert.1 h with h | h
    · exact .inl h
    · exact .inr (Sparse.mem_erase.1 h).1

theorem Sparse.pairwise_erase {m : List (Nat × β)} (h : m.Pairwise fun x y => x.1 < y.1) (a : Nat) :
    (Sparse.erase m a).Pairwise fun x y => x.1 < y.1 := by
  induction m with
  | nil => simp [Sparse.erase]
  | cons e m ih =>
    obtain ⟨j, x⟩ := e
    rw [List.pairwise_cons] at h
    simp only [Sparse.erase]
    split
    · exact ih h.2
    · exact List.pairwise_cons.2 ⟨fun c hc => h.1 c (Sparse.mem_erase.1 hc).1, ih h.2⟩

theorem Sparse.pairwise_insert {m : List (Nat × β)} (h : m.Pairwise fun x y => x.1 < y.1) {a : Nat} (b : β)
    (ha : ∀ c ∈ m, c.1 ≠ a) : (Sparse.insert m a b).Pairwise fun x y => x.1 < y.1 := by
  induction m with
  | nil => simp [Sparse.insert]
  | cons e m ih =>
    obtain ⟨j, x⟩ := e
    have h' := List.pairwise_cons.1 h
    simp only [Sparse.insert]
    split
    · refine List.pairwise_cons.2 ⟨fun c hc => ?_, h⟩
      rcases List.mem_cons.1 hc with rfl | hc
      · assumption
      · exact Nat.lt_trans ‹_› (h'.1 c hc)
    · refine List.pairwise_cons.2 ⟨fun c hc => ?_, ih h'.2 fun c hc => ha c (List.mem_cons_of_mem _ hc)⟩
      rcases Sparse.mem_insert.1 hc with rfl | hc
      · have := ha (j, x) (List.mem_cons_self)
        simp only [ne_eq] at this ⊢
        omega
      · exact h'.1 c hc

/-- A write keeps the canonical form. -/
theorem Sparse.wf_put [DecidableEq β] {m : List (Nat × β)} (h : Sparse.wf d m) (a : Nat) (b : β) :
    Sparse.wf d (Sparse.put d m a b) := by
  refine ⟨?_, fun c hc => ?_⟩
  · unfold Sparse.put
    split
    · exact Sparse.pairwise_erase h.1 a
    · exact Sparse.pairwise_insert (Sparse.pairwise_erase h.1 a) b fun c hc => (Sparse.mem_erase.1 hc).2
  · unfold Sparse.put at hc
    split at hc
    · exact h.2 c (Sparse.mem_erase.1 hc).1
    · rcases Sparse.mem_insert.1 hc with rfl | hc
      · assumption
      · exact h.2 c (Sparse.mem_erase.1 hc).1

end Sparse

/-! ### One byte -/

/-- Reading a byte after writing a byte. -/
theorem readByte_writeByte (m : Memory) (a k : Nat) (b : Byte) :
    readByte (writeByte m a b) k = if k = a then b else readByte m k := Sparse.get_put _ m a k b

@[simp] theorem readByte_writeByte_same (m : Memory) (a : Nat) (b : Byte) : readByte (writeByte m a b) a = b := by
  simp [readByte_writeByte]

theorem readByte_writeByte_other (m : Memory) {a k : Nat} (h : k ≠ a) (b : Byte) :
    readByte (writeByte m a b) k = readByte m k := by
  simp [readByte_writeByte, h]

/-- Writing a byte that exists keeps the canonical form. -/
theorem writeByte_wf {m : Memory} (h : Memory.wf m) {a : Nat} (ha : a < addressCount) (b : Byte) :
    Memory.wf (writeByte m a b) := by
  refine ⟨Sparse.wf_put _ h.1 a b, fun c hc => ?_⟩
  rcases Sparse.mem_put _ hc with rfl | hc
  · exact ha
  · exact h.2 c hc

/-! ### The counting loop -/

@[simp] theorem loop_zero {σ : Type} (f : Nat → σ → σ) (s : σ) : loop f 0 s = s := rfl

theorem loop_succ {σ : Type} (f : Nat → σ → σ) (n : Nat) (s : σ) : loop f (n + 1) s = f n (loop f n s) := rfl

/-- What every turn keeps, the loop keeps. -/
theorem loop_keeps {σ : Type} {P : σ → Prop} {f : Nat → σ → σ} {n : Nat} (hf : ∀ i s, i < n → P s → P (f i s)) {s : σ}
    (h : P s) : P (loop f n s) := by
  induction n with
  | zero => exact h
  | succ n ih => exact hf n _ (Nat.lt_succ_self n) (ih fun i s hi => hf i s (Nat.lt_succ_of_lt hi))

/-- What only one turn changes, that turn decides. -/
theorem loop_get {σ β : Type} {g : σ → β} {f : Nat → σ → σ} {n i : Nat} (hi : i < n)
    (hf : ∀ j s, j < n → j ≠ i → g (f j s) = g s) (s : σ) : g (loop f n s) = g (f i (loop f i s)) := by
  induction n with
  | zero => omega
  | succ n ih =>
    rw [loop_succ]
    by_cases h : i = n
    · rw [h]
    · rw [hf n _ (Nat.lt_succ_self n) (Ne.symm h)]
      exact ih (by omega) fun j s hj hne => hf j s (by omega) hne

/-! ### Wider writes -/

theorem readByte_memWrite_other (m : Memory) {a n : Nat} (v : Nat) {k : Nat} (h : k < a ∨ a + n ≤ k) :
    readByte (memWrite m a n v) k = readByte m k := by
  unfold memWrite
  refine loop_keeps (P := fun m' => readByte m' k = readByte m k) (fun i s hi hs => ?_) rfl
  rw [readByte_writeByte_other _ (by omega), hs]

theorem readByte_memWrite (m : Memory) {a n v j : Nat} (h : j < n) : readByte (memWrite m a n v) (a + j) = byteOf v j := by
  unfold memWrite
  rw [loop_get (g := fun m => readByte m (a + j)) h (fun i s hi hne => readByte_writeByte_other _ (by omega) _)]
  simp

theorem memWrite_wf {m : Memory} (h : Memory.wf m) {a n : Nat} (ha : n = 0 ∨ a + n ≤ addressCount) (v : Nat) :
    Memory.wf (memWrite m a n v) := by
  unfold memWrite
  exact loop_keeps (P := Memory.wf) (fun i s hi hs => writeByte_wf hs (by omega) _) h

theorem readByte_writeBytes_other (m : Memory) {a : Nat} (bs : List Byte) {k : Nat} (h : k < a ∨ a + bs.length ≤ k) :
    readByte (writeBytes m a bs) k = readByte m k := by
  induction bs generalizing m a with
  | nil => rfl
  | cons b bs ih =>
    simp only [List.length_cons] at h
    rw [writeBytes, ih _ (by omega), readByte_writeByte_other _ (by omega)]

theorem readByte_writeBytes (m : Memory) {a : Nat} (bs : List Byte) {j : Nat} (h : j < bs.length) :
    readByte (writeBytes m a bs) (a + j) = bs[j] := by
  induction bs generalizing m a j with
  | nil => simp at h
  | cons b bs ih =>
    rw [writeBytes]
    cases j with
    | zero => rw [readByte_writeBytes_other _ _ (by omega)]; simp
    | succ j =>
      have := ih (writeByte m a b) (a := a + 1) (j := j) (by simpa using h)
      rw [show a + (j + 1) = a + 1 + j by omega, this]; simp

theorem writeBytes_wf {m : Memory} (h : Memory.wf m) {a : Nat} {bs : List Byte}
    (ha : bs = [] ∨ a + bs.length ≤ addressCount) : Memory.wf (writeBytes m a bs) := by
  induction bs generalizing m a with
  | nil => exact h
  | cons b bs ih =>
    simp only [List.length_cons, reduceCtorEq, false_or] at ha
    exact ih (writeByte_wf h (by omega) b) (by omega)

theorem readByte_writeElements_other (k : Width) (m : Memory) {a : Nat} (vs : List (BitVec k.bits)) {x : Nat}
    (h : x < a ∨ a + vs.length * k.bytes ≤ x) : readByte (writeElements k m a vs) x = readByte m x := by
  induction vs generalizing m a with
  | nil => rfl
  | cons v vs ih =>
    rw [List.length_cons, Nat.add_mul] at h
    rw [writeElements, ih _ (by omega), readByte_memWrite_other _ _ (by omega)]

theorem writeElements_wf (k : Width) {m : Memory} (h : Memory.wf m) {a : Nat} {vs : List (BitVec k.bits)}
    (ha : vs = [] ∨ a + vs.length * k.bytes ≤ addressCount) : Memory.wf (writeElements k m a vs) := by
  induction vs generalizing m a with
  | nil => exact h
  | cons v vs ih =>
    simp only [List.length_cons, reduceCtorEq, false_or, Nat.add_mul] at ha
    exact ih (memWrite_wf h (by omega) _) (by omega)

/-! ### Free bytes -/

/-- A byte of a freed range that exists and is not kept holds the draw's value; every other byte reads as before. -/
theorem readByte_freeBytes (m : Memory) (d a n : Nat) (keep : Nat → Bool) (k : Nat) :
    readByte (freeBytes m d a n keep) k =
      if a ≤ k ∧ k < a + n ∧ k < addressCount ∧ keep k = false then Config.freeByte d k else readByte m k := by
  unfold freeBytes
  induction n with
  | zero => simp; omega
  | succ n ih =>
    rw [loop_succ]
    split
    · rename_i h
      simp only [Bool.and_eq_true, decide_eq_true_eq, Bool.not_eq_true'] at h
      rw [readByte_writeByte, ih]
      by_cases hk : k = a + n
      · subst hk; simp [h]
      · simp only [hk, if_false]
        exact if_congr ⟨fun hc => ⟨hc.1, by omega, hc.2.2⟩, fun hc => ⟨hc.1, by omega, hc.2.2⟩⟩ rfl rfl
    · rename_i h
      rw [ih]
      by_cases hk : k = a + n
      · subst hk
        simp only [Bool.and_eq_true, decide_eq_true_eq, Bool.not_eq_true'] at h
        rw [if_neg (by omega), if_neg (fun hc => h ⟨hc.2.2.1, hc.2.2.2⟩)]
      · exact if_congr ⟨fun hc => ⟨hc.1, by omega, hc.2.2⟩, fun hc => ⟨hc.1, by omega, hc.2.2⟩⟩ rfl rfl

theorem freeBytes_wf {m : Memory} (h : Memory.wf m) (d a n : Nat) (keep : Nat → Bool) :
    Memory.wf (freeBytes m d a n keep) := by
  unfold freeBytes
  refine loop_keeps (P := Memory.wf) (fun i s hi hs => ?_) h
  split
  · rename_i hc
    simp only [Bool.and_eq_true, decide_eq_true_eq] at hc
    exact writeByte_wf hs hc.1 _
  · exact hs

theorem freeRegion_wf {m : Memory} (h : Memory.wf m) (d a n : Nat) : Memory.wf (freeRegion m d a n) :=
  freeBytes_wf h d a n _

theorem freeRegions_wf {m : Memory} (h : Memory.wf m) (d : Nat) (keep : Nat → Bool) (rs : List Region) :
    Memory.wf (freeRegions m d keep rs) := by
  induction rs generalizing m with
  | nil => exact h
  | cons r rs ih => exact ih (freeBytes_wf h d _ _ keep)

/-- A byte that no freed region covers, or that is kept, reads as before. -/
theorem readByte_freeRegions_other (m : Memory) (d : Nat) (keep : Nat → Bool) (rs : List Region) (k : Nat)
    (h : (rs.any fun r => r.covers k) = false ∨ keep k = true) : readByte (freeRegions m d keep rs) k = readByte m k := by
  induction rs generalizing m with
  | nil => rfl
  | cons r rs ih =>
    simp only [List.any_cons, Bool.or_eq_false_iff] at h
    rw [freeRegions, ih _ (h.imp And.right id), readByte_freeBytes, if_neg]
    rintro ⟨h1, h2, -, h4⟩
    rcases h with h | h
    · simp [Region.covers, h1, h2] at h
    · simp [h] at h4

/-- A byte that some freed region covers, that exists and is not kept, holds the draw's value. -/
theorem readByte_freeRegions (m : Memory) (d : Nat) (keep : Nat → Bool) (rs : List Region) (k : Nat)
    (h : (rs.any fun r => r.covers k) = true) (hk : k < addressCount) (hkeep : keep k = false) :
    readByte (freeRegions m d keep rs) k = Config.freeByte d k := by
  induction rs generalizing m with
  | nil => simp at h
  | cons r rs ih =>
    rw [freeRegions]
    by_cases hr : (rs.any fun r => r.covers k) = true
    · exact ih _ hr
    · rw [readByte_freeRegions_other _ _ _ _ _ (.inl (by simpa using hr)), readByte_freeBytes, if_pos]
      rw [List.any_cons, Bool.or_eq_true] at h
      have := h.resolve_right hr
      simp only [Region.covers, Bool.and_eq_true, decide_eq_true_eq] at this
      exact ⟨this.1, this.2, hk, hkeep⟩

theorem freeTouched_wf {m : Memory} (h : Memory.wf m) (d : Nat) (as : List Word) : Memory.wf (freeTouched m d as) := by
  induction as generalizing m with
  | nil => exact h
  | cons a as ih => exact ih (writeByte_wf h (by have := a.isLt; simp [addressCount]; omega) _)

/-- A byte that is not among the touched ones reads as before. -/
theorem readByte_freeTouched_other (m : Memory) (d : Nat) (as : List Word) {k : Nat} (h : ∀ a ∈ as, a.toNat ≠ k) :
    readByte (freeTouched m d as) k = readByte m k := by
  induction as generalizing m with
  | nil => rfl
  | cons a as ih =>
    rw [freeTouched, ih _ fun b hb => h b (List.mem_cons_of_mem _ hb),
      readByte_writeByte_other _ (Ne.symm (h a List.mem_cons_self))]

end Sys2Proof.Machine
end

