-- ==== Sys2Proof/Laws/Ops.lean ====
section
/-! SUPPORT. What the shared operations can do, said once each: the prechecks, running a command, completing one, reset,
a transaction, and the step. -/

namespace Sys2Proof.Machine

/-! ### Prechecks -/

/-- A transposer precheck passes only if all four checks do (40_plane_transposer.md R101). -/
theorem precheckPlanes_eq_none {p : Platform} {r : Regions} {x cap : Nat} :
    precheckPlanes p r x cap = none ↔
      r.outOfRange = false ∧ r.overlapping = false ∧ x ≤ cap ∧ r.meetsAbsent p = false := by
  unfold precheckPlanes
  grind

/-- A predictor precheck passes only if all three checks do (41_predictor.md precheck_P). -/
theorem precheckStream_eq_none {p : Platform} {r : Regions} :
    precheckStream p r = none ↔ r.outOfRange = false ∧ r.overlapping = false ∧ r.meetsAbsent p = false := by
  unfold precheckStream
  grind

/-- Where the regions are in range, every address they cover exists (20_memory.md R58). -/
theorem covered_lt {r : Regions} (h : r.outOfRange = false) {q : Region} (hq : q ∈ r.inputs ++ r.outputs) {a : Nat}
    (ha : q.covers a = true) : a < addressCount := by
  have := List.any_eq_false.1 h q hq
  simp only [Bool.not_eq_true', Region.valid, Bool.or_eq_true, decide_eq_true_eq, Bool.not_eq_false] at this
  simp only [Region.covers, Bool.and_eq_true, decide_eq_true_eq] at ha
  omega

/-- Two regions that both cover an address overlap (20_memory.md R59). -/
theorem overlaps_of_covers {r q : Region} {a : Nat} (hr : r.covers a = true) (hq : q.covers a = true) :
    r.overlaps q = true := by
  simp only [Region.covers, Region.overlaps, Bool.and_eq_true, decide_eq_true_eq] at *
  omega

/-- A region covers the addresses it holds (20_memory.md R58). -/
theorem covers_iff (r : Region) (a : Nat) : r.covers a = true ↔ r.holds a := by
  simp [Region.covers, Region.holds]

/-- Two regions overlap exactly when they share an address (20_memory.md R59). -/
theorem overlaps_iff (r q : Region) : r.overlaps q = true ↔ r.shares q := by
  constructor
  · intro h
    simp only [Region.overlaps, Bool.and_eq_true, decide_eq_true_eq] at h
    exact ⟨max r.start q.start, by unfold Region.holds; omega, by unfold Region.holds; omega⟩
  · rintro ⟨a, hr, hq⟩
    exact overlaps_of_covers ((covers_iff r a).2 hr) ((covers_iff q a).2 hq)

/-- The RANGE check (60_exceptions.md R192). -/
theorem outOfRange_iff (r : Regions) : r.outOfRange = true ↔ r.passesEnd := by
  simp only [Regions.outOfRange, Regions.passesEnd, List.any_eq_true, Region.valid]
  refine exists_congr fun q => and_congr_right fun _ => ?_
  rw [Bool.not_eq_true', Bool.or_eq_false_iff, decide_eq_false_iff_not, decide_eq_false_iff_not, addressCount]
  omega

/-- Two regions of a list overlap exactly when the list is not pairwise disjoint. -/
theorem anyPairOverlaps_iff (l : List Region) :
    anyPairOverlaps l = true ↔ ¬ l.Pairwise fun o q => ¬ o.shares q := by
  induction l with
  | nil => simp [anyPairOverlaps]
  | cons r l ih =>
    simp only [anyPairOverlaps, Bool.or_eq_true, ih, List.any_eq_true, overlaps_iff, List.pairwise_cons, not_and_or]
    simp

/-- The OVERLAP check (60_exceptions.md R193). -/
theorem overlapping_iff (r : Regions) : r.overlapping = true ↔ r.collide := by
  simp [Regions.overlapping, Regions.collide, overlaps_iff, anyPairOverlaps_iff]

/-- The BUS_ERROR check (60_exceptions.md R199). -/
theorem meetsAbsent_iff (r : Regions) (p : Platform) : r.meetsAbsent p = true ↔ r.missAddress p := by
  simp only [Regions.meetsAbsent, Regions.missAddress, List.any_eq_true, overlaps_iff]

/-- A command meets a device exactly when a region of it holds a device's address (20_memory.md R57). -/
theorem meetsDevice_iff (r : Regions) (p : Platform) : r.meetsDevice p = true ↔ r.holdDevice p := by
  simp only [Regions.meetsDevice, Regions.holdDevice, List.any_eq_true, overlaps_iff]

/-- Where nothing overlaps, no byte is both input and output (20_memory.md R59, R60). -/
theorem disjoint_of_not_overlapping {r : Regions} (h : r.overlapping = false) {a : Nat} (hi : r.inputCovers a = true) :
    r.outputCovers a = false := by
  simp only [Regions.overlapping, Bool.or_eq_false_iff] at h
  by_contra hc
  simp only [Regions.inputCovers, Regions.outputCovers, Bool.not_eq_false, List.any_eq_true] at hi hc
  obtain ⟨i, hi, hia⟩ := hi
  obtain ⟨o, ho, hoa⟩ := hc
  have := List.any_eq_false.1 h.1 i hi
  exact this (List.any_eq_true.2 ⟨o, ho, overlaps_of_covers hia hoa⟩)

/-! ### Running a command -/

section RunCommand
variable {sh : Shape} {s t : State} {failed : Snapshot → ErrorCode → Completion} {body : Snapshot → Completion}

/-- All that a command can do when it answers a next state: complete with the error of its precheck, or with its body. -/
theorem runCommand_cases (h : runCommand sh s failed body = .next t) :
    ∃ job, s.engine = .busy job ∧
      ((∃ e, precheck sh s.platform job.snap = some e ∧ t = complete sh s job (failed job.snap e)) ∨
        (precheck sh s.platform job.snap = none ∧ (regionsOf sh job.snap).meetsDevice s.platform = false ∧
          t = complete sh s job (body job.snap))) := by
  unfold runCommand at h
  split at h
  · cases h
  · rename_i job hj
    refine ⟨job, hj, ?_⟩
    split at h
    · rename_i e he
      cases h
      exact .inl ⟨e, he, rfl⟩
    · rename_i hn
      split at h
      · cases h
      · rename_i hd
        cases h
        exact .inr ⟨hn, by simpa using hd, rfl⟩

/-- A command that runs to its own effect completes with its body. -/
theorem runCommand_runs {job : Job} (h : Runs s sh job) : runCommand sh s failed body = .next (complete sh s job (body job.snap)) := by
  simp [runCommand, h.busy, h.checked, h.noDevice]

/-- A command whose precheck raises completes with that error. -/
theorem runCommand_raises {job : Job} (h : s.engine = .busy job) {e : ErrorCode}
    (he : precheck sh s.platform job.snap = some e) :
    runCommand sh s failed body = .next (complete sh s job (failed job.snap e)) := by
  simp [runCommand, h, he]

/-- A command whose precheck passes and whose regions meet a device is refused (20_memory.md R57). -/
theorem runCommand_device {job : Job} (h : s.engine = .busy job) (he : precheck sh s.platform job.snap = none)
    (hd : (regionsOf sh job.snap).meetsDevice s.platform = true) : runCommand sh s failed body = .refused .deviceRegion := by
  simp [runCommand, h, he, hd]

/-- With no command in flight a meaning has nothing to perform. -/
theorem runCommand_idle (h : s.engine = .idle) : runCommand sh s failed body = .fault .noCommandInFlight := by
  simp [runCommand, h]

end RunCommand

/-! ### Reset -/

/-- All that a reset does (70_reset_and_hazards.md R220, R221). -/
theorem resetBlock_cases (s : State) :
    (s.engine = .idle ∧ resetBlock s = resetTo s.memory s) ∨
      (∃ job, s.engine = .busy job ∧ resetBlock s = resetTo (abortedMemory s job) s) := by
  unfold resetBlock
  split
  · exact .inl ⟨‹_›, rfl⟩
  · exact .inr ⟨_, ‹_›, rfl⟩

/-- A reset of an idle block. -/
theorem resetBlock_idle {s : State} (h : s.engine = .idle) : resetBlock s = resetTo s.memory s := by simp [resetBlock, h]

/-- A reset while BUSY aborts the command. -/
theorem resetBlock_busy {s : State} {job : Job} (h : s.engine = .busy job) :
    resetBlock s = resetTo (abortedMemory s job) s := by simp [resetBlock, h]

/-! ### The step -/

/-- All that a step can do: an engine step, nothing, or one transaction. -/
theorem step_cases {s t : State} (h : step s = .next t) :
    s.platform.wf = true ∧
      ((∃ job, s.engine = .busy job ∧ s.engineTurn = true ∧
          ((∃ i, decodeWord job.snap.cmd = .command i ∧ exec i s = .next t) ∨
            (∃ why, decodeWord job.snap.cmd = .illegal why ∧ illegalCommand s = .next t))) ∨
        (s.engineTurn = false ∧ s.inputs = [] ∧ t = s) ∨
        (∃ op rest, Turn s op rest ∧ hostStep op (s.turned rest) = .next t)) := by
  unfold step stepAgents at h
  split at h
  · rename_i hp
    refine ⟨hp, ?_⟩
    split at h
    · rename_i ht
      unfold engineStep at h
      split at h
      · rename_i hi
        simp [State.engineTurn, hi] at ht
      · rename_i job hj
        refine .inl ⟨job, hj, ht, ?_⟩
        split at h
        · exact .inl ⟨_, ‹_›, h⟩
        · exact .inr ⟨_, ‹_›, h⟩
    · rename_i ht
      have ht' : s.engineTurn = false := by simpa using ht
      unfold hostTurn at h
      split at h
      · cases h; exact .inr (.inl ⟨ht', ‹_›, rfl⟩)
      · rename_i op rest ho
        exact .inr (.inr ⟨op, rest, ⟨hp, ht', ho⟩, h⟩)
  · cases h

/-- On the outside world's turn the step is its oldest transaction. -/
theorem step_of_turn {s : State} {op : HostOp} {rest : List HostOp} (h : Turn s op rest) :
    step s = hostStep op (s.turned rest) := by
  simp [step, stepAgents, h.platformWf, h.notEngine, hostTurn, h.oldest, State.turned]

/-- All that a transaction can do. -/
theorem hostStep_write_cases {s t : State} {addr size : Nat} {x : Word} (h : hostStep (.write addr size x) s = .next t) :
    ∃ o, windowAccess s.platform addr size = .slot o ∧ t = writeSlot x s o := by
  simp only [hostStep, hostWrite] at h
  split at h
  · cases h
    exact ⟨_, ‹_›, rfl⟩
  · cases h

/-- A 32-bit access to a register's own address reaches that register (10_state.md R22, 20_memory.md R67). -/
theorem windowAccess_register (p : Platform) (r : RegName) : windowAccess p (p.regBase + r.offset) 4 = .slot r.offset := by
  cases r <;> simp [windowAccess, RegName.offset]

@[simp] theorem regAt_offset (r : RegName) : regAt r.offset = some r := by cases r <;> rfl

/-- A word-aligned 32-bit access inside the window reaches its slot (20_memory.md R67). -/
theorem windowAccess_slot (p : Platform) {o : Nat} (h : o < 256) (h4 : o % 4 = 0) :
    windowAccess p (p.regBase + o) 4 = .slot o := by
  simp [windowAccess, h4]
  omega

/-- A host write's turn at a word-aligned offset (42_host_access.md R171). -/
theorem step_write_slot {s : State} {o : Nat} {x : Word} {rest : List HostOp}
    (h : Turn s (.write (s.platform.regBase + o) 4 x) rest) (ho : o < 256) (h4 : o % 4 = 0) :
    step s = .next (writeSlot x (s.turned rest) o) := by
  rw [step_of_turn h]
  simp [hostStep, hostWrite, windowAccess_slot s.platform ho h4]

/-- A host write's turn at a register (42_host_access.md R171). -/
theorem step_write_register {s : State} {r : RegName} {x : Word} {rest : List HostOp}
    (h : Turn s (.write (s.platform.regBase + r.offset) 4 x) rest) : step s = .next (writeReg x (s.turned rest) r) := by
  rw [step_write_slot h (by cases r <;> decide) (by cases r <;> rfl)]
  simp [writeSlot]

/-- A host read's turn at a word-aligned offset (42_host_access.md R170). -/
theorem step_read_slot {s : State} {o : Nat} {rest : List HostOp}
    (h : Turn s (.read (s.platform.regBase + o) 4) rest) (ho : o < 256) (h4 : o % 4 = 0) :
    step s = .next { s.turned rest with readData := readSlot (s.turned rest) o } := by
  rw [step_of_turn h]
  simp [hostStep, hostRead, windowAccess_slot s.platform ho h4]

/-- A POLL's turn at a word-aligned offset: one read, and pending still where its value is not met (30_encoding.md R88). -/
theorem step_poll_slot {s : State} {o : Nat} {mask value : Word} {rest : List HostOp}
    (h : Turn s (.poll (s.platform.regBase + o) mask value) rest) (ho : o < 256) (h4 : o % 4 = 0) :
    step s = .next (if readSlot (s.turned rest) o &&& mask = value then
        { s.turned rest with readData := readSlot (s.turned rest) o }
      else { s.turned (.poll (s.platform.regBase + o) mask value :: rest) with
        readData := readSlot (s.turned rest) o }) := by
  rw [step_of_turn h]
  simp only [hostStep, hostPoll, turned_platform, windowAccess_slot s.platform ho h4]
  split <;> rfl

/-- A transaction's turn leaves every register as it reads. -/
theorem readReg_turned (s : State) (rest : List HostOp) (r : RegName) : readReg (s.turned rest) r = readReg s r := by
  cases r <;> simp only [readReg, turned_irqEn, turned_status, turned_cmd, turned_hashCfg, turned_srcAddr, turned_srcLen,
    turned_dstAddr, turned_dstCap, turned_planeStride, turned_resLen, turned_resCount, turned_resCfg]
  simp only [State.busy, turned_engine]
  cases s.engine <;> rfl

/-- A reserved offset holds no register (10_state.md R40). -/
theorem regAt_reserved {o : Nat} (h : 0x34 ≤ o) : regAt o = none := by
  unfold regAt
  split <;> first | rfl | omega

/-- On the engine's turn the step is the engine's. -/
theorem step_of_engineTurn {s : State} (hp : s.platform.wf = true) (ht : s.engineTurn = true) : step s = engineStep s := by
  simp [step, stepAgents, hp, ht]

/-- The engine moves when a command is in flight and its wait is over or nothing else is pending. -/
theorem engineTurn_of_busy {s : State} {job : Job} (h : s.engine = .busy job) (hw : job.wait = 0 ∨ s.inputs = []) :
    s.engineTurn = true := by
  rcases hw with hw | hw <;> simp [State.engineTurn, h, hw]

end Sys2Proof.Machine
end

