-- ==== Sys2Proof/Laws/Exec.lean ====
section
/-! SUPPORT. Every command as one run of the shared operation: what it does when its precheck raises, and its body. -/

namespace Sys2Proof.Machine

/-- What a command's completion is when its precheck raises. -/
def failedOf (i : Instr) (s : State) : Snapshot → ErrorCode → Completion :=
  match i with
  | .nop | .pcomp32 | .pdecomp32 | .pcomp64 | .pdecomp64 => fun _ e => Completion.bare e s.memory
  | .split3w32 | .merge3w32 | .split3w64 | .merge3w64 | .splitb2 | .mergeb2 | .splitb4 | .mergeb4 | .splitb8 | .mergeb8 =>
    transposerFailed (shapeOf i) s.memory

/-- What moves the bytes of a transposer command. -/
def moveOf (i : Instr) : Snapshot → Memory → Memory :=
  match i with
  | .nop | .pcomp32 | .pdecomp32 | .pcomp64 | .pdecomp64 => fun _ m => m
  | .split3w32 => split3 4
  | .merge3w32 => merge3 4
  | .split3w64 => split3 8
  | .merge3w64 => merge3 8
  | .splitb2 => splitBytes 2
  | .mergeb2 => mergeBytes 2
  | .splitb4 => splitBytes 4
  | .mergeb4 => mergeBytes 4
  | .splitb8 => splitBytes 8
  | .mergeb8 => mergeBytes 8

/-- P·n·S, the bytes a transposer command writes (40_plane_transposer.md R102). -/
def movedBytes (sh : Shape) (j : Snapshot) : Nat :=
  match sh with
  | .split p z | .merge p z => p * j.n * z
  | _ => 0

/-- What a command's completion is once its precheck passed. -/
def bodyOf (i : Instr) (s : State) : Snapshot → Completion :=
  match i with
  | .pcomp32 => compressBody .w32 s
  | .pcomp64 => compressBody .w64 s
  | .pdecomp32 => decompressBody .w32 s
  | .pdecomp64 => decompressBody .w64 s
  | .nop | .split3w32 | .merge3w32 | .split3w64 | .merge3w64 | .splitb2 | .mergeb2 | .splitb4 | .mergeb4 | .splitb8 | .mergeb8 =>
    fun j =>
      { error := none, resLen := BitVec.ofNat 32 (movedBytes (shapeOf i) j)
        resCount := if i = .nop then 0#32 else j.srcLen, resCfg := ResCfg.zero, memory := moveOf i j s.memory }

/-- Every command is one run of the shared operation. -/
theorem exec_eq (i : Instr) (s : State) : exec i s = runCommand (shapeOf i) s (failedOf i s) (bodyOf i s) := by
  cases i <;> first
    | rfl
    | simp [exec, execSplitb2, execSplitb4, execSplitb8, execMergeb2, execMergeb4, execMergeb8, transpose, failedOf, bodyOf,
        shapeOf, movedBytes, moveOf]

/-- A precheck error leaves memory as it was (60_exceptions.md R202). -/
@[simp] theorem failedOf_memory (i : Instr) (s : State) (j : Snapshot) (e : ErrorCode) : (failedOf i s j e).memory = s.memory := by
  cases i <;> cases e <;> rfl

/-- A command whose precheck raises reports that error. -/
@[simp] theorem failedOf_error (i : Instr) (s : State) (j : Snapshot) (e : ErrorCode) : (failedOf i s j e).error = some e := by
  cases i <;> cases e <;> rfl

/-- All that a command can do when it answers a next state (60_exceptions.md R194, R201). -/
theorem exec_cases {i : Instr} {s t : State} (h : exec i s = .next t) :
    ∃ job, s.engine = .busy job ∧
      ((∃ e, precheck (shapeOf i) s.platform job.snap = some e ∧
          t = complete (shapeOf i) s job (failedOf i s job.snap e)) ∨
        (precheck (shapeOf i) s.platform job.snap = none ∧
          (regionsOf (shapeOf i) job.snap).meetsDevice s.platform = false ∧
          t = complete (shapeOf i) s job (bodyOf i s job.snap))) :=
  runCommand_cases (exec_eq i s ▸ h)

end Sys2Proof.Machine
end

