-- ==== Sys2Proof/Laws/Transposer.lean ====
section
/-! SUPPORT. What the plane transposer's loops do to memory (40_plane_transposer.md section 3): one lemma about a grid of
writes whose cells do not meet, and the cells of each command. -/

namespace Sys2Proof.Machine

/-! ### Bytes of a value -/

theorem byteOf_zero (v : Nat) : byteOf v 0 = BitVec.ofNat 8 v := by simp [byteOf]

theorem byteOf_succ (v k : Nat) : byteOf v (k + 1) = byteOf (v / 256) k := by
  simp only [byteOf, Nat.shiftRight_eq_div_pow, Nat.div_div_eq_div_mul]
  rw [show 2 ^ (8 * (k + 1)) = 256 * 2 ^ (8 * k) by rw [Nat.mul_add, Nat.pow_add]; ring]

/-- Byte b of the value that MemRead gives is the byte at a + b (00_scope.md R9, 20_memory.md R52). -/
theorem byteOf_memRead (m : Memory) (a : Nat) {n b : Nat} (h : b < n) : byteOf (memRead m a n) b = readByte m (a + b) := by
  induction n generalizing a b with
  | zero => omega
  | succ n ih =>
    rw [memRead]
    cases b with
    | zero =>
      rw [byteOf_zero]
      apply BitVec.eq_of_toNat_eq
      have := (readByte m a).isLt
      simp only [BitVec.toNat_ofNat, Nat.add_zero]
      omega
    | succ b =>
      have := (readByte m a).isLt
      rw [byteOf_succ, show ((readByte m a).toNat + 256 * memRead m (a + 1) n) / 256 = memRead m (a + 1) n by omega,
        ih (a + 1) (by omega)]
      congr 1
      omega

@[simp] theorem memRead_one (m : Memory) (a : Nat) : memRead m a 1 = (readByte m a).toNat := by simp [memRead]

theorem memRead_lt (m : Memory) (a n : Nat) : memRead m a n < 2 ^ (8 * n) := by
  induction n generalizing a with
  | zero => simp [memRead]
  | succ n ih =>
    have h1 := (readByte m a).isLt
    have h2 := ih (a + 1)
    rw [memRead, show 2 ^ (8 * (n + 1)) = 256 * 2 ^ (8 * n) by rw [Nat.mul_add, Nat.pow_add]; ring]
    omega

/-- MemRead depends on the bytes it reads alone. -/
theorem memRead_congr {m m' : Memory} {a n : Nat} (h : ∀ b, b < n → readByte m' (a + b) = readByte m (a + b)) :
    memRead m' a n = memRead m a n := by
  induction n generalizing a with
  | zero => rfl
  | succ n ih =>
    rw [memRead, memRead, show readByte m' a = readByte m a from h 0 (by omega),
      ih fun b hb => by have := h (b + 1) (by omega); rwa [show a + (b + 1) = a + 1 + b by omega] at this]

@[simp] theorem byteOf_byte (b : Byte) : byteOf b.toNat 0 = b := by simp [byteOf_zero]

/-- The value of a merge: plane b supplies byte b (40_plane_transposer.md R108, R110, R112). -/
theorem mergedValue_eq (j : Snapshot) (m : Memory) (i n : Nat) :
    mergedValue n j m i < 2 ^ (8 * n) ∧ ∀ b, b < n → byteOf (mergedValue n j m i) b = readByte m (j.src + b * j.pitch + i) := by
  induction n with
  | zero => simp [mergedValue]
  | succ n ih =>
    obtain ⟨hlt, hb⟩ := ih
    have hr := (readByte m (j.src + n * j.pitch + i)).isLt
    have heq : mergedValue (n + 1) j m i =
        (readByte m (j.src + n * j.pitch + i)).toNat * 2 ^ (8 * n) + mergedValue n j m i := by
      rw [mergedValue, loop_succ, memRead_one, ← mergedValue, Nat.or_comm, Nat.shiftLeft_eq,
        Nat.mul_comm, Nat.two_pow_add_eq_or_of_lt hlt]
    rw [heq]
    refine ⟨?_, fun b hbn => ?_⟩
    · rw [show 2 ^ (8 * (n + 1)) = 256 * 2 ^ (8 * n) by rw [Nat.mul_add, Nat.pow_add]; ring]
      nlinarith
    · by_cases hbe : b = n
      · subst hbe
        simp only [byteOf, Nat.shiftRight_eq_div_pow]
        rw [Nat.mul_comm, Nat.mul_add_div (by positivity), Nat.div_eq_of_lt hlt]
        simp
      · rw [← hb b (by omega)]
        simp only [byteOf, Nat.shiftRight_eq_div_pow]
        apply BitVec.eq_of_toNat_eq
        simp only [BitVec.toNat_ofNat]
        obtain ⟨c, hc⟩ : ∃ c, 8 * n = 8 * b + 8 + c := ⟨8 * n - (8 * b + 8), by omega⟩
        rw [hc, Nat.pow_add, Nat.pow_add,
          show (readByte m (j.src + n * j.pitch + i)).toNat * (2 ^ (8 * b) * 2 ^ 8 * 2 ^ c) =
            2 ^ (8 * b) * (2 ^ 8 * ((readByte m (j.src + n * j.pitch + i)).toNat * 2 ^ c)) by ring,
          Nat.mul_add_div (by positivity)]
        omega

/-! ### A grid of writes -/

/-- `n` rows of `planes` writes, each of `size` bytes, whose values may depend on memory at the row's start and now. -/
def gridWrite (planes size : Nat) (out : Nat → Nat → Nat) (val : Memory → Memory → Nat → Nat → Nat) (n : Nat) (m : Memory) : Memory :=
  loop (fun i m => loop (fun p m' => memWrite m' (out i p) size (val m m' i p)) planes m) n m

/-- Two memories agree outside `outside`. -/
def AgreeOff (outside : Nat → Prop) (m m' : Memory) : Prop := ∀ x, ¬ outside x → readByte m' x = readByte m x

section Grid
variable {planes size n : Nat} {out : Nat → Nat → Nat} {val : Memory → Memory → Nat → Nat → Nat} {Out : Nat → Prop}

theorem memWrite_agree {m m' : Memory} (h : AgreeOff Out m m') {a v : Nat} (ha : ∀ b, b < size → Out (a + b)) :
    AgreeOff Out m (memWrite m' a size v) := by
  intro x hx
  rw [readByte_memWrite_other, h x hx]
  by_contra hc
  exact hx (by have := ha (x - a) (by omega); rwa [show a + (x - a) = x by omega] at this)

/-- A grid of writes changes nothing outside its cells. -/
theorem gridWrite_agree (hout : ∀ i p b, i < n → p < planes → b < size → Out (out i p + b)) (m : Memory) :
    AgreeOff Out m (gridWrite planes size out val n m) := by
  unfold gridWrite
  refine loop_keeps (P := AgreeOff Out m) (fun i s hi hs => ?_) fun _ _ => rfl
  exact loop_keeps (P := AgreeOff Out m) (fun p s' hp hs' => memWrite_agree hs' fun b hb => hout i p b hi hp hb) hs

/-- Where no two cells meet and the values depend on bytes outside the cells alone, cell (i, p) holds value (i, p). -/
theorem gridWrite_cell {m : Memory} {v : Nat → Nat → Nat}
    (hout : ∀ i p b, i < n → p < planes → b < size → Out (out i p + b))
    (hcell : ∀ i p b j q, i < n → p < planes → b < size → j < n → q < planes → (j ≠ i ∨ q ≠ p) →
      out i p + b < out j q ∨ out j q + size ≤ out i p + b)
    (hval : ∀ i p s s', i < n → p < planes → AgreeOff Out m s → AgreeOff Out m s' → val s s' i p = v i p)
    {i p b : Nat} (hi : i < n) (hp : p < planes) (hb : b < size) :
    readByte (gridWrite planes size out val n m) (out i p + b) = byteOf (v i p) b := by
  have hagree : ∀ k, k ≤ n → AgreeOff Out m (gridWrite planes size out val k m) :=
    fun k hk => gridWrite_agree (fun i p b hi' => hout i p b (by omega)) m
  unfold gridWrite
  rw [loop_get (g := fun s => readByte s (out i p + b)) hi]
  · have hrow := hagree i (by omega)
    unfold gridWrite at hrow
    generalize loop _ i m = s at hrow ⊢
    have hinner : ∀ k, k ≤ planes → AgreeOff Out m (loop (fun p m' => memWrite m' (out i p) size (val s m' i p)) k s) :=
      fun k hk => loop_keeps (P := AgreeOff Out m)
        (fun p s' hp' hs' => memWrite_agree hs' fun b hb => hout i p b hi (by omega) hb) hrow
    rw [loop_get (g := fun s => readByte s (out i p + b)) hp]
    · rw [readByte_memWrite _ hb, hval i p _ _ hi hp hrow (hinner p (by omega))]
    · intro q s' hq hne
      exact readByte_memWrite_other _ _ (hcell i p b i q hi hp hb hi hq (.inr hne))
  · intro j s hj hne
    refine loop_keeps (P := fun s' => readByte s' (out i p + b) = readByte s (out i p + b)) (fun q s' hq hs' => ?_) rfl
    rw [readByte_memWrite_other _ _ (hcell i p b j q hi hp hb hj hq (.inl hne)), hs']

/-- A grid of writes to bytes that exist keeps memory canonical. -/
theorem gridWrite_wf {m : Memory} (h : Memory.wf m)
    (hout : ∀ i p, i < n → p < planes → size = 0 ∨ out i p + size ≤ addressCount) :
    Memory.wf (gridWrite planes size out val n m) := by
  unfold gridWrite
  refine loop_keeps (P := Memory.wf) (fun i s hi hs => ?_) h
  exact loop_keeps (P := Memory.wf) (fun p s' hp hs' => memWrite_wf hs' (hout i p hi hp) _) hs

end Grid

/-! ### The commands as grids -/

theorem split3_eq (size : Nat) (j : Snapshot) (m : Memory) :
    split3 size j m = gridWrite 3 size (fun i p => j.dst + p * j.pitch + i * size)
      (fun _ m' i p => memRead m' (j.src + (3 * i + p) * size) size) j.n m := rfl

theorem merge3_eq (size : Nat) (j : Snapshot) (m : Memory) :
    merge3 size j m = gridWrite 3 size (fun i p => j.dst + (3 * i + p) * size)
      (fun _ m' i p => memRead m' (j.src + p * j.pitch + i * size) size) j.n m := rfl

theorem splitBytes_eq (k : Nat) (j : Snapshot) (m : Memory) :
    splitBytes k j m = gridWrite k 1 (fun i p => j.dst + p * j.pitch + i)
      (fun m _ i p => (byteOf (memRead m (j.src + i * k) k) p).toNat) j.n m := rfl

theorem mergeBytes_eq (k : Nat) (j : Snapshot) (m : Memory) :
    mergeBytes k j m = gridWrite 1 k (fun i _ => j.dst + i * k) (fun _ m' i _ => mergedValue k j m' i) j.n m := rfl

/-! ### Regions whose checks passed -/

/-- A region of a command that is in range (20_memory.md R58). -/
theorem region_fits {r : Regions} (h : r.outOfRange = false) {q : Region} (hq : q ∈ r.inputs ∨ q ∈ r.outputs) :
    q.len = 0 ∨ q.start + q.len ≤ addressCount := by
  have := List.any_eq_false.1 h q (by simpa using hq)
  simp only [Region.valid, Bool.not_eq_true', Bool.not_eq_false, Bool.or_eq_true, decide_eq_true_eq] at this
  exact this

/-- Two regions that do not overlap (20_memory.md R59). -/
theorem region_apart {r q : Region} (h : r.overlaps q = false) :
    r.len = 0 ∨ q.len = 0 ∨ q.start + q.len ≤ r.start ∨ r.start + r.len ≤ q.start := by
  simp only [Region.overlaps, Bool.and_eq_false_iff, decide_eq_false_iff_not] at h
  omega

/-- Where nothing overlaps, no input region overlaps an output region. -/
theorem input_output_apart {r : Regions} (h : r.overlapping = false) {i o : Region} (hi : i ∈ r.inputs)
    (ho : o ∈ r.outputs) : i.overlaps o = false := by
  simp only [Regions.overlapping, Bool.or_eq_false_iff] at h
  have := List.any_eq_false.1 h.1 i hi
  simpa using List.any_eq_false.1 (by simpa using this) o ho

/-- The planes of a region list. -/
theorem mem_planeRegions {base pitch planes bytes : Nat} {q : Region} :
    q ∈ planeRegions base pitch planes bytes ↔ ∃ p, p < planes ∧ q = ⟨base + p * pitch, bytes⟩ := by
  simp only [planeRegions, List.mem_map, List.mem_range]
  constructor
  · rintro ⟨p, h, rfl⟩; exact ⟨p, h, rfl⟩
  · rintro ⟨p, h, rfl⟩; exact ⟨p, h, rfl⟩

/-- Output planes that do not overlap one another lie at least a plane's length apart (20_memory.md R59). -/
theorem pitch_of_planes_apart {base pitch planes bytes : Nat} (hp : 2 ≤ planes)
    (h : anyPairOverlaps (planeRegions base pitch planes bytes) = false) : bytes ≤ pitch := by
  obtain ⟨n, rfl⟩ : ∃ n, planes = n + 2 := ⟨planes - 2, by omega⟩
  rw [planeRegions, List.range_succ_eq_map, List.range_succ_eq_map] at h
  simp only [List.map_cons, anyPairOverlaps, List.any_cons, Bool.or_eq_false_iff] at h
  have := region_apart h.1.1
  simp only [Nat.zero_mul, Nat.succ_eq_add_one, Nat.zero_add, Nat.one_mul, Nat.add_zero] at this
  omega

/-- A transposer's checks (40_plane_transposer.md R101). -/
theorem precheck_transposer {sh : Shape} {p z : Nat} (hs : sh = .split p z ∨ sh = .merge p z) (pl : Platform) (j : Snapshot) :
    precheck sh pl j = precheckPlanes pl (regionsOf sh j) (extentOf sh j) j.cap := by
  rcases hs with rfl | rfl <;> rfl

/-! ### Cells and regions -/

/-- A byte of element P·e + p lies inside the interleaved array. -/
theorem cell_lt {P n size e p b : Nat} (he : e < n) (hp : p < P) (hb : b < size) : (P * e + p) * size + b < P * n * size := by
  have h1 : (P * e + p + 1) * size ≤ P * n * size := Nat.mul_le_mul_right _ (by nlinarith)
  nlinarith

/-- A byte of element e lies inside its plane. -/
theorem row_lt {n size e b : Nat} (he : e < n) (hb : b < size) : e * size + b < n * size := by
  have h1 : (e + 1) * size ≤ n * size := Nat.mul_le_mul_right _ he
  nlinarith

/-- The addresses that the planes of a list cover. -/
theorem planes_cover {base pitch P L x} : ((planeRegions base pitch P L).any fun q => q.covers x) = true ↔ ∃ p, p < P ∧ base + p * pitch ≤ x ∧ x < base + p * pitch + L := by
  simp only [List.any_eq_true, mem_planeRegions, Region.covers, Bool.and_eq_true, decide_eq_true_eq]
  constructor
  · rintro ⟨q, ⟨p, hp, rfl⟩, h⟩; exact ⟨p, hp, h⟩
  · rintro ⟨p, hp, h⟩; exact ⟨_, ⟨p, hp, rfl⟩, h⟩

/-- A split whose precheck passed: its planes lie apart, and none meets the input. -/
theorem split_apart {P size pl} {j : Snapshot} (h2 : 2 ≤ P) (h : precheck (.split P size) pl j = none) :
    j.n * size ≤ j.pitch ∧ ∀ x, (∃ p, p < P ∧ j.dst + p * j.pitch ≤ x ∧ x < j.dst + p * j.pitch + j.n * size) → ¬ (j.src ≤ x ∧ x < j.src + P * j.n * size) := by
  rw [precheck_transposer (.inl rfl), precheckPlanes_eq_none] at h
  obtain ⟨h1, hov, -, -⟩ := h
  refine ⟨pitch_of_planes_apart h2 (by simp only [Regions.overlapping, Bool.or_eq_false_iff] at hov; exact hov.2), ?_⟩
  rintro x ⟨p, hp, hx1, hx2⟩ hx
  have := region_apart (input_output_apart hov (i := ⟨j.src, P * j.n * size⟩) (o := ⟨j.dst + p * j.pitch, j.n * size⟩) (by simp [regionsOf]) (by simp only [regionsOf]; exact mem_planeRegions.2 ⟨p, hp, rfl⟩))
  simp only at this; omega

/-- A merge whose precheck passed: no plane meets the output. -/
theorem merge_apart {P size pl} {j : Snapshot} (h : precheck (.merge P size) pl j = none) :
    ∀ x p, p < P → j.src + p * j.pitch ≤ x → x < j.src + p * j.pitch + j.n * size → ¬ (j.dst ≤ x ∧ x < j.dst + P * j.n * size) := by
  rw [precheck_transposer (.inr rfl), precheckPlanes_eq_none] at h
  obtain ⟨h1, hov, -, -⟩ := h
  rintro x p hp hx1 hx2 hx
  have := region_apart (input_output_apart hov (o := ⟨j.dst, P * j.n * size⟩) (i := ⟨j.src + p * j.pitch, j.n * size⟩) (by simp only [regionsOf]; exact mem_planeRegions.2 ⟨p, hp, rfl⟩) (by simp [regionsOf]) )
  simp only at this; omega

/-- Bytes of two rows that lie at least a row's length apart differ. -/
theorem rows_disjoint {T L p q x y : Nat} (hT : L ≤ T) (hx : x < L) (hy : y < L) (hne : p ≠ q) : p * T + x ≠ q * T + y := by
  rcases Nat.lt_or_gt_of_ne hne with h | h
  · have : (p + 1) * T ≤ q * T := Nat.mul_le_mul_right _ h
    nlinarith
  · have : (q + 1) * T ≤ p * T := Nat.mul_le_mul_right _ h
    nlinarith

/-! ### What each move does -/

/-- A grid over the planes that writes the interleaved elements. -/
theorem splitGrid_spec {P size pl} {j : Snapshot} {m : Memory} (h2 : 2 ≤ P) (h : precheck (.split P size) pl j = none)
   {val : Memory → Memory → Nat → Nat → Nat} 
   (hval : ∀ i p s s', i < j.n → p < P → AgreeOff (fun x => ((planeRegions j.dst j.pitch P (j.n * size)).any fun q => q.covers x) = true) m s → AgreeOff (fun x => ((planeRegions j.dst j.pitch P (j.n * size)).any fun q => q.covers x) = true) m s' → val s s' i p = memRead m (j.src + (P * i + p) * size) size) :
   let m' := gridWrite P size (fun i p => j.dst + p * j.pitch + i * size) val j.n m
   AgreeOff (fun x => ((planeRegions j.dst j.pitch P (j.n * size)).any fun q => q.covers x) = true) m m' ∧
   ∀ e p b, e < j.n → p < P → b < size → readByte m' (j.dst + p * j.pitch + e * size + b) = readByte m (j.src + (P * e + p) * size + b) := by
  obtain ⟨hT, -⟩ := split_apart h2 h
  have hout : ∀ i p b, i < j.n → p < P → b < size → ((planeRegions j.dst j.pitch P (j.n * size)).any fun q => q.covers (j.dst + p * j.pitch + i * size + b)) = true := by
    intro i p b hi hp hb
    exact planes_cover.2 ⟨p, hp, by omega, by have := row_lt hi hb; omega⟩
  refine ⟨gridWrite_agree hout m, fun e p b he hp hb => ?_⟩
  rw [gridWrite_cell (Out := fun x => ((planeRegions j.dst j.pitch P (j.n * size)).any fun q => q.covers x) = true) (v := fun i p => memRead m (j.src + (P * i + p) * size) size) hout ?_ hval he hp hb, byteOf_memRead _ _ hb]
  intro i p b i' q hi hp hb hi' hq hne
  by_contra hc
  have h1 := row_lt hi hb
  obtain ⟨c, hc, hcz⟩ : ∃ c, j.dst + p * j.pitch + i * size + b = j.dst + q * j.pitch + i' * size + c ∧ c < size :=
    ⟨j.dst + p * j.pitch + i * size + b - (j.dst + q * j.pitch + i' * size), by omega, by omega⟩
  have h2 := row_lt hi' hcz
  by_cases hpq : p = q
  · subst hpq
    have : i * size + b = i' * size + c := by omega
    have hii : i' ≠ i := by tauto
    exact rows_disjoint (Nat.le_refl size) hb hcz (Ne.symm hii) this
  · exact rows_disjoint hT h1 h2 hpq (by omega)

/-- split3 changes nothing outside its planes, and puts element 3e + p of the array at element e of plane p (R103, R105). -/
theorem split3_spec (size : Nat) (s : State) (j : Snapshot) (h : precheck (.split 3 size) s.platform j = none) :
  AgreeOff (fun x => ((planeRegions j.dst j.pitch 3 (j.n * size)).any fun q => q.covers x) = true) s.memory (split3 size j s.memory) ∧
   ∀ e p b, e < j.n → p < 3 → b < size → readByte (split3 size j s.memory) (j.dst + p * j.pitch + e * size + b) = readByte s.memory (j.src + (3 * e + p) * size + b) := by
  have hd := (split_apart (by omega) h).2
  rw [split3_eq size j s.memory]
  refine splitGrid_spec (by omega) h (fun i p s0 s' hi hp _ hs' => memRead_congr fun b hb => hs' _ fun hc => ?_)
  refine hd _ (planes_cover.1 hc) ⟨by omega, ?_⟩
  have := cell_lt hi hp hb; omega

/-- splitBytes changes nothing outside its planes, and puts byte p of value e at byte e of plane p (R107, R109, R111). -/
theorem splitBytes_spec (k : Nat) (h2 : 2 ≤ k) (s : State) (j : Snapshot) (h : precheck (.split k 1) s.platform j = none) :
  AgreeOff (fun x => ((planeRegions j.dst j.pitch k (j.n * 1)).any fun q => q.covers x) = true) s.memory (splitBytes k j s.memory) ∧
   ∀ e p b, e < j.n → p < k → b < 1 → readByte (splitBytes k j s.memory) (j.dst + p * j.pitch + e * 1 + b) = readByte s.memory (j.src + (k * e + p) * 1 + b) := by
  have hd := (split_apart h2 h).2
  have := splitGrid_spec (m := s.memory) h2 h (val := fun m _ i p => (byteOf (memRead m (j.src + i * k) k) p).toNat) ?_
  · simpa only [splitBytes_eq, Nat.mul_one] using this
  · intro i p s0 s' hi hp hs _
    rw [byteOf_memRead _ _ hp, memRead_one, Nat.mul_one, Nat.mul_comm k i, Nat.add_assoc]
    congr 1
    refine hs _ fun hc => hd _ (planes_cover.1 hc) ⟨by omega, ?_⟩
    have := cell_lt (size := 1) hi hp (Nat.zero_lt_one)
    rw [Nat.mul_comm k i] at this; omega

/-- merge3 changes nothing outside its output, and puts element e of plane p at element 3e + p (R104, R106). -/
theorem merge3_spec (size : Nat) (s : State) (j : Snapshot) (h : precheck (.merge 3 size) s.platform j = none) :
    AgreeOff (fun x => j.dst ≤ x ∧ x < j.dst + 3 * j.n * size) s.memory (merge3 size j s.memory) ∧
   ∀ e p b, e < j.n → p < 3 → b < size → readByte (merge3 size j s.memory) (j.dst + (3 * e + p) * size + b) = readByte s.memory (j.src + p * j.pitch + e * size + b) := by
  have hd := merge_apart h
  rw [merge3_eq size j s.memory]
  have hout : ∀ i p b, i < j.n → p < 3 → b < size → j.dst ≤ j.dst + (3 * i + p) * size + b ∧ j.dst + (3 * i + p) * size + b < j.dst + 3 * j.n * size := by
    intro i p b hi hp hb
    have := cell_lt hi hp hb; omega
  refine ⟨gridWrite_agree (Out := fun x => j.dst ≤ x ∧ x < j.dst + 3 * j.n * size) hout _, fun e p b he hp hb => ?_⟩
  rw [gridWrite_cell (Out := fun x => j.dst ≤ x ∧ x < j.dst + 3 * j.n * size) (v := fun i p => memRead s.memory (j.src + p * j.pitch + i * size) size) hout ?_ ?_ he hp hb, byteOf_memRead _ _ hb]
  · intro i p b i' q hi hp hb hi' hq hne
    by_contra hc
    obtain ⟨c, hc, hcz⟩ : ∃ c, j.dst + (3 * i + p) * size + b = j.dst + (3 * i' + q) * size + c ∧ c < size :=
      ⟨j.dst + (3 * i + p) * size + b - (j.dst + (3 * i' + q) * size), by omega, by omega⟩
    exact rows_disjoint (Nat.le_refl size) hb hcz (p := 3 * i + p) (q := 3 * i' + q) (by omega) (by omega)
  · intro i p s0 s' hi hp _ hs'
    refine memRead_congr fun b hb => hs' _ fun hc => hd _ p hp (by omega) ?_ hc
    have := row_lt hi hb; omega

/-- mergeBytes changes nothing outside its output, and puts byte e of plane p at byte p of value e (R108, R110, R112). -/
theorem mergeBytes_spec (k : Nat) (s : State) (j : Snapshot) (h : precheck (.merge k 1) s.platform j = none) :
    AgreeOff (fun x => j.dst ≤ x ∧ x < j.dst + k * j.n * 1) s.memory (mergeBytes k j s.memory) ∧
   ∀ e p b, e < j.n → p < k → b < 1 → readByte (mergeBytes k j s.memory) (j.dst + (k * e + p) * 1 + b) = readByte s.memory (j.src + p * j.pitch + e * 1 + b) := by
  have hd := merge_apart h
  rw [mergeBytes_eq k j s.memory]
  have hout : ∀ i p b, i < j.n → p < 1 → b < k → j.dst ≤ j.dst + i * k + b ∧ j.dst + i * k + b < j.dst + k * j.n * 1 := by
    intro i p b hi hp hb
    have := row_lt hi hb; rw [Nat.mul_one, Nat.mul_comm k]; omega
  refine ⟨gridWrite_agree (Out := fun x => j.dst ≤ x ∧ x < j.dst + k * j.n * 1) hout _, fun e p b he hp hb => ?_⟩
  obtain rfl : b = 0 := by omega
  have h1 := mergedValue_eq j s.memory e k
  have h2 := gridWrite_cell (Out := fun x => j.dst ≤ x ∧ x < j.dst + k * j.n * 1) (val := fun _ m' i _ => mergedValue k j m' i) (v := fun i _ => mergedValue k j s.memory i) (m := s.memory) hout ?_ ?_ he (Nat.zero_lt_one) hp
  · rw [h1.2 p hp] at h2
    simp only [Nat.mul_one, Nat.add_zero, Nat.mul_comm k e, Nat.add_assoc] at h2 ⊢
    exact h2
  · intro i p b i' q hi hp hb hi' hq hne
    by_contra hc
    obtain ⟨c, hc, hcz⟩ : ∃ c, j.dst + i * k + b = j.dst + i' * k + c ∧ c < k :=
      ⟨j.dst + i * k + b - (j.dst + i' * k), by omega, by omega⟩
    exact rows_disjoint (Nat.le_refl k) hb hcz (p := i) (q := i') (by omega) (by omega)
  · intro i p s0 s' hi hp _ hs'
    have : ∀ kk, kk ≤ k → mergedValue kk j s' i = mergedValue kk j s.memory i := by
      intro kk hk
      induction kk with
      | zero => rfl
      | succ n ih =>
        simp only [mergedValue, loop_succ, memRead_one] at *
        rw [ih (by omega), hs' _ fun hc => hd _ n (by omega) (by omega) (by omega) hc]
    exact this k (Nat.le_refl k)

end Sys2Proof.Machine
end

