-- ==== Sys2Proof/Laws/Codec.lean ====
section
/-! SUPPORT. The byte sequences of the compressed stream (00_scope.md R9, 30_encoding.md R76 to R83) and the elements in
memory (20_memory.md R52): lengths, and reading back what was written. -/

namespace Sys2Proof.Machine

/-! ### Big-endian byte sequences -/

@[simp] theorem beBytes_length (v n : Nat) : (beBytes v n).length = n := by
  induction n with
  | zero => rfl
  | succ n ih => simp [beBytes, ih]

theorem beValue_foldl (bs : List Byte) (a : Nat) :
    bs.foldl (fun acc b => acc * 256 + b.toNat) a = a * 256 ^ bs.length + beValue bs := by
  unfold beValue
  induction bs generalizing a with
  | nil => simp
  | cons b bs ih =>
    rw [List.foldl_cons, List.foldl_cons, ih, ih (0 * 256 + b.toNat), List.length_cons, pow_succ]
    ring

@[simp] theorem beValue_nil : beValue [] = 0 := rfl

theorem beValue_cons (b : Byte) (bs : List Byte) : beValue (b :: bs) = b.toNat * 256 ^ bs.length + beValue bs := by
  rw [beValue, List.foldl_cons, beValue_foldl]
  simp

theorem beValue_lt (bs : List Byte) : beValue bs < 256 ^ bs.length := by
  induction bs with
  | nil => simp
  | cons b bs ih =>
    have := b.isLt
    rw [beValue_cons, List.length_cons, pow_succ]
    nlinarith

/-- be_value of be_bytes is the value cut to n bytes. -/
theorem beValue_beBytes (v n : Nat) : beValue (beBytes v n) = v % 256 ^ n := by
  induction n with
  | zero => simp [beBytes, Nat.mod_one]
  | succ n ih =>
    rw [beBytes, beValue_cons, ih, beBytes_length]
    have hp : 256 ^ n = 2 ^ (8 * n) := by rw [Nat.pow_mul]
    rw [byteOf, Nat.shiftRight_eq_div_pow, BitVec.toNat_ofNat, ← hp, pow_succ 256 n, Nat.mod_mul (x := v) (a := 256 ^ n), Nat.add_comm,
      Nat.mul_comm (256 ^ n)]

/-! ### Significant bytes -/

/-- nb(r) is the least k with r < 2^(8k) (00_scope.md R9), said for r > 0. -/
theorem nb_pos {r : Nat} (h : r ≠ 0) : 2 ^ (8 * (nb r - 1)) ≤ r ∧ r < 2 ^ (8 * nb r) := by
  have h1 := Nat.log2_self_le h
  have h2 := Nat.lt_log2_self (n := r)
  simp only [nb, h, if_false]
  constructor
  · exact (Nat.pow_le_pow_right (by omega) (by omega)).trans h1
  · exact h2.trans_le (Nat.pow_le_pow_right (by omega) (by omega))

@[simp] theorem nb_zero : nb 0 = 0 := rfl

theorem nb_eq_zero {r : Nat} : nb r = 0 ↔ r = 0 := by
  unfold nb
  split <;> simp_all

theorem lt_of_nb {r : Nat} : r < 2 ^ (8 * nb r) := by
  by_cases h : r = 0
  · simp [h]
  · exact (nb_pos h).2

theorem nb_le_of_lt {r k : Nat} (h : r < 2 ^ (8 * k)) : nb r ≤ k := by
  by_cases h0 : r = 0
  · simp [h0]
  · by_contra hc
    have := (nb_pos h0).1
    have := (Nat.pow_le_pow_right (n := 2) (by omega) (show 8 * k ≤ 8 * (nb r - 1) by omega)).trans this
    omega

/-- A residual of W bits has at most W/8 significant bytes. -/
theorem nb_toNat_le (k : Width) (r : BitVec k.bits) : nb r.toNat ≤ k.bytes := by
  refine nb_le_of_lt (r.isLt.trans_le ?_)
  cases k <;> decide

/-- A value is read back from n of its bytes where they hold it. -/
theorem beValue_beBytes_of_nb {r n : Nat} (h : nb r ≤ n) : beValue (beBytes r n) = r := by
  rw [beValue_beBytes, Nat.mod_eq_of_lt]
  exact lt_of_nb.trans_le (by rw [Nat.pow_mul]; exact Nat.pow_le_pow_right (by omega) h)

/-! ### Slots -/

/-- A chosen slot (41_predictor.md R135, R136): its code is in range, its field has the code's length, and its field is the
residual that the code names. -/
theorem selectSlot_spec (k : Width) (r1 r2 : BitVec k.bits) :
    let slot := selectSlot k.bytes r1.toNat r2.toNat
    slot.code < 2 ^ k.codeBits ∧ slot.field.length = fieldLength k slot.code ∧ fieldLength k slot.code ≤ k.bytes ∧
      beValue slot.field = (if slot.code ≤ k.bytes then r1.toNat else r2.toNat) := by
  have h1 := nb_toNat_le k r1
  have h2 := nb_toNat_le k r2
  have hk : 2 * k.bytes ≤ 2 ^ k.codeBits := by cases k <;> decide
  intro slot
  simp only [slot, selectSlot]
  split
  · rename_i hlt
    generalize hm : max 1 (nb r2.toNat) = m at *
    have h3 : 1 ≤ m ∧ nb r2.toNat ≤ m := by omega
    have h4 : ¬ k.bytes + m ≤ k.bytes := by omega
    simp only [fieldLength, h4, if_false, beBytes_length, Nat.add_sub_cancel_left]
    exact ⟨by omega, trivial, by omega, beValue_beBytes_of_nb h3.2⟩
  · simp only [fieldLength, h1, if_true, beBytes_length]
    exact ⟨by cases k <;> simp only [Width.codeBits, Width.bytes] at * <;> omega, trivial, trivial, beValue_beBytes_of_nb (Nat.le_refl _)⟩

/-! ### Reading bytes off the input -/

theorem takeBytes_append (xs rest : List Byte) : takeBytes xs.length (xs ++ rest) = some (xs, rest) := by
  induction xs with
  | nil => rfl
  | cons b xs ih => simp only [List.length_cons, List.cons_append, takeBytes, ih]

theorem takeBytes_some {n : Nat} {bs xs rest : List Byte} (h : takeBytes n bs = some (xs, rest)) :
    bs = xs ++ rest ∧ xs.length = n := by
  induction n generalizing bs xs with
  | zero => simp only [takeBytes, Option.some.injEq, Prod.mk.injEq] at h; simp [← h.1, h.2]
  | succ n ih =>
    cases bs with
    | nil => simp [takeBytes] at h
    | cons b bs =>
      simp only [takeBytes] at h
      split at h
      · rename_i ys r hy
        simp only [Option.some.injEq, Prod.mk.injEq] at h
        obtain ⟨rfl, rfl⟩ := h
        obtain ⟨rfl, rfl⟩ := ih hy
        simp
      · cases h

/-- read(L) with its L bytes there (41_predictor.md R145). -/
theorem read_append (pos : Nat) (xs rest : List Byte) {n : Nat} (h : xs.length = n) :
    Reader.read { pos := pos, rest := xs ++ rest } n = some (xs, { pos := pos + n, rest := rest }) := by
  subst h
  simp [Reader.read, takeBytes_append]

/-- All that read(L) does: none where a byte is missing, else the next L bytes (41_predictor.md R145). -/
theorem read_eq (r : Reader) (n : Nat) :
    r.read n = if r.rest.length < n then none else some (r.rest.take n, { pos := r.pos + n, rest := r.rest.drop n }) := by
  split
  · cases hr : r.read n with
    | none => rfl
    | some x =>
      unfold Reader.read at hr
      split at hr
      · rename_i xs rest hx
        obtain ⟨h1, h2⟩ := takeBytes_some hx
        have h3 := congrArg List.length h1
        rw [List.length_append] at h3
        omega
      · cases hr
  · have := read_append r.pos (r.rest.take n) (r.rest.drop n) (n := n) (by rw [List.length_take]; omega)
    rwa [List.take_append_drop] at this

/-- What read(L) does when it answers. -/
theorem read_some {r r' : Reader} {n : Nat} {xs : List Byte} (h : r.read n = some (xs, r')) :
    r.rest = xs ++ r'.rest ∧ xs.length = n ∧ r'.pos = r.pos + n := by
  unfold Reader.read at h
  split at h
  · rename_i ys rest hy
    simp only [Option.some.injEq, Prod.mk.injEq] at h
    obtain ⟨rfl, rfl⟩ := h
    obtain ⟨h1, h2⟩ := takeBytes_some hy
    exact ⟨h1, h2, rfl⟩
  · cases h

/-! ### Code bytes -/

/-- The codes packed into one number, the first in the most significant bits. -/
theorem foldl_codes (b : Nat) (cs : List Nat) (h : ∀ c ∈ cs, c < 2 ^ b) (a : Nat) :
    cs.foldl (fun acc c => acc <<< b ||| c) a = a * 2 ^ (b * cs.length) + cs.foldl (fun acc c => acc <<< b ||| c) 0 ∧
      cs.foldl (fun acc c => acc <<< b ||| c) 0 < 2 ^ (b * cs.length) := by
  induction cs generalizing a with
  | nil => simp
  | cons c cs ih =>
    have hc : c < 2 ^ b := h c (by simp)
    have hor : ∀ x, x <<< b ||| c = x * 2 ^ b + c := by
      intro x
      rw [Nat.shiftLeft_eq, Nat.mul_comm, Nat.two_pow_add_eq_or_of_lt hc]
    have ih1 := ih (fun c hc => h c (by simp [hc]))
    simp only [List.foldl_cons, List.length_cons]
    rw [(ih1 (a <<< b ||| c)).1, (ih1 (0 <<< b ||| c)).1, hor, hor, Nat.mul_add, Nat.pow_add, Nat.mul_one]
    have h2 := (ih1 0).2
    refine ⟨by ring, ?_⟩
    generalize List.foldl _ 0 cs = y at *
    generalize 2 ^ (b * cs.length) = z at *
    have : (c + 1) * z ≤ 2 ^ b * z := Nat.mul_le_mul_right _ hc
    nlinarith

/-- Code j of the packed number. -/
theorem code_of_foldl (b : Nat) (cs : List Nat) (h : ∀ c ∈ cs, c < 2 ^ b) (j : Nat) (hj : j < cs.length) :
    (cs.foldl (fun acc c => acc <<< b ||| c) 0 >>> (b * (cs.length - 1 - j))) % 2 ^ b = cs[j] := by
  induction cs generalizing j with
  | nil => simp at hj
  | cons c cs ih =>
    have hc : c < 2 ^ b := h c (by simp)
    have h' : ∀ c ∈ cs, c < 2 ^ b := fun c hc => h c (by simp [hc])
    obtain ⟨h1, h2⟩ := foldl_codes b cs h' (0 <<< b ||| c)
    rw [List.foldl_cons, h1]
    simp only [Nat.zero_shiftLeft, Nat.zero_or, List.length_cons, Nat.add_sub_cancel]
    rw [Nat.shiftRight_eq_div_pow]
    cases j with
    | zero =>
      rw [Nat.sub_zero, Nat.mul_comm c, Nat.mul_add_div (by positivity), Nat.div_eq_of_lt h2, Nat.add_zero,
        Nat.mod_eq_of_lt hc]
      simp
    | succ j =>
      simp only [List.length_cons] at hj
      have := ih h' j (by omega)
      rw [Nat.shiftRight_eq_div_pow, show cs.length - 1 - j = cs.length - (j + 1) by omega] at this
      simp only [List.getElem_cons_succ]
      rw [← this, show b * cs.length = b * (cs.length - (j + 1)) + (b + b * j) by
          rw [show b + b * j = b * (j + 1) by ring, ← Nat.mul_add]; congr 1; omega,
        Nat.pow_add, Nat.pow_add, show c * (2 ^ (b * (cs.length - (j + 1))) * (2 ^ b * 2 ^ (b * j))) =
          2 ^ (b * (cs.length - (j + 1))) * (2 ^ b * (c * 2 ^ (b * j))) by ring,
        Nat.mul_add_div (by positivity), Nat.mul_add_mod]

@[simp] theorem packCodes_length (k : Width) (cs : List Nat) : (packCodes k cs).length = k.codeBytes := beBytes_length _ _

/-- The code bytes of a group read back as its codes (30_encoding.md R78, R79). -/
theorem unpackCodes_packCodes (k : Width) (cs : List Nat) (hl : cs.length = k.group) (h : ∀ c ∈ cs, c < 2 ^ k.codeBits) :
    unpackCodes k (packCodes k cs) = cs := by
  have hlt := (foldl_codes k.codeBits cs h 0).2
  have hb : 2 ^ (k.codeBits * cs.length) = 256 ^ k.codeBytes := by rw [hl]; cases k <;> decide
  apply List.ext_getElem
  · simp [unpackCodes, hl]
  · intro j h1 h2
    simp only [unpackCodes, List.getElem_map, List.getElem_range, packCodes]
    rw [beValue_beBytes, Nat.mod_eq_of_lt (b := 256 ^ k.codeBytes) (hb ▸ hlt), ← hl]
    exact code_of_foldl k.codeBits cs h j h2

theorem unpackCodes_length (k : Width) (bs : List Byte) : (unpackCodes k bs).length = k.group := by simp [unpackCodes]

theorem unpackCodes_lt (k : Width) (bs : List Byte) : ∀ c ∈ unpackCodes k bs, c < 2 ^ k.codeBits := by
  intro c hc
  simp only [unpackCodes, List.mem_map] at hc
  obtain ⟨j, -, rfl⟩ := hc
  exact Nat.mod_lt _ (by positivity)

/-! ### Sequences and elements in memory -/

@[simp] theorem readBytes_length (m : Memory) (a n : Nat) : (readBytes m a n).length = n := by
  induction n generalizing a with
  | zero => rfl
  | succ n ih => simp [readBytes, ih]

theorem readBytes_getElem (m : Memory) (a : Nat) {n j : Nat} (h : j < (readBytes m a n).length) :
    (readBytes m a n)[j] = readByte m (a + j) := by
  induction n generalizing a j with
  | zero => simp at h
  | succ n ih =>
    cases j with
    | zero => simp [readBytes]
    | succ j =>
      simp only [readBytes, List.getElem_cons_succ]
      rw [ih]
      congr 1
      omega

/-- A byte sequence is the bytes in the order of their addresses. -/
theorem readBytes_eq_map (s : State) (a n : Nat) :
    readBytes s.memory a n = (List.range n).map fun j => s.byte (a + j) := by
  refine List.ext_getElem (by simp) fun j h1 h2 => ?_
  rw [readBytes_getElem]; simp [State.byte]

/-- A byte sequence depends on the bytes it reads alone. -/
theorem readBytes_congr {m m' : Memory} {a n : Nat} (h : ∀ j, j < n → readByte m' (a + j) = readByte m (a + j)) :
    readBytes m' a n = readBytes m a n := by
  apply List.ext_getElem
  · simp
  · intro j h1 h2
    rw [readBytes_getElem, readBytes_getElem]
    exact h j (by simpa using h1)

/-- Reading back a byte sequence. -/
theorem readBytes_writeBytes (m : Memory) (a : Nat) (bs : List Byte) : readBytes (writeBytes m a bs) a bs.length = bs := by
  apply List.ext_getElem
  · simp
  · intro j h1 h2
    rw [readBytes_getElem, readByte_writeBytes _ _ h2]

@[simp] theorem readElements_length (k : Width) (m : Memory) (a n : Nat) : (readElements k m a n).length = n := by
  induction n generalizing a with
  | zero => rfl
  | succ n ih => simp [readElements, ih]

theorem readElements_getElem (k : Width) (m : Memory) (a : Nat) {n x : Nat} (h : x < (readElements k m a n).length) :
    (readElements k m a n)[x] = BitVec.ofNat k.bits (memRead m (a + x * k.bytes) k.bytes) := by
  induction n generalizing a x with
  | zero => simp at h
  | succ n ih =>
    cases x with
    | zero => simp [readElements]
    | succ x =>
      simp only [readElements, List.getElem_cons_succ]
      rw [ih, show a + k.bytes + x * k.bytes = a + (x + 1) * k.bytes by ring]

theorem bits_eq (k : Width) : k.bits = 8 * k.bytes := by cases k <;> rfl

/-- The elements depend on the bytes they are read from alone. -/
theorem readElements_congr (k : Width) {m m' : Memory} {a n : Nat}
    (h : ∀ j, j < n * k.bytes → readByte m' (a + j) = readByte m (a + j)) : readElements k m' a n = readElements k m a n := by
  apply List.ext_getElem
  · simp
  · intro x h1 h2
    have hx : x < n := by simpa using h1
    have : (x + 1) * k.bytes ≤ n * k.bytes := Nat.mul_le_mul_right _ hx
    rw [readElements_getElem, readElements_getElem, memRead_congr fun b hb => ?_]
    rw [Nat.add_assoc]
    exact h _ (by rw [Nat.add_mul] at this; omega)

/-- Byte b of element x of a written sequence. -/
theorem readByte_writeElements (k : Width) (m : Memory) (a : Nat) (vs : List (BitVec k.bits)) {x b : Nat}
    (hx : x < vs.length) (hb : b < k.bytes) :
    readByte (writeElements k m a vs) (a + x * k.bytes + b) = byteOf vs[x].toNat b := by
  induction vs generalizing m a x with
  | nil => simp at hx
  | cons v vs ih =>
    rw [writeElements]
    cases x with
    | zero =>
      rw [readByte_writeElements_other _ _ _ (by omega), Nat.zero_mul, Nat.add_zero, readByte_memWrite _ hb]
      rfl
    | succ x =>
      rw [show a + (x + 1) * k.bytes + b = a + k.bytes + x * k.bytes + b by ring, ih _ _ (by simpa using hx)]
      rfl

/-- A value is the value of its bytes. -/
theorem memRead_of_bytes {m : Memory} {a n v : Nat} (hv : v < 2 ^ (8 * n)) (h : ∀ b, b < n → readByte m (a + b) = byteOf v b) :
    memRead m a n = v := by
  induction n generalizing a v with
  | zero => simp only [Nat.mul_zero, Nat.pow_zero] at hv; rw [memRead]; omega
  | succ n ih =>
    have h0 := h 0 (by omega)
    rw [byteOf_zero, Nat.add_zero] at h0
    rw [memRead, h0, ih (v := v / 256)]
    · rw [BitVec.toNat_ofNat]; omega
    · rw [show 8 * (n + 1) = 8 + 8 * n by ring, Nat.pow_add] at hv
      exact Nat.div_lt_of_lt_mul hv
    · intro b hb
      rw [show a + 1 + b = a + (b + 1) by ring, h (b + 1) (by omega), byteOf_succ]

/-! ### Encoding and decoding -/

/-- One group more. -/
theorem ceilDiv_succ {n g : Nat} (hg : 0 < g) (hn : 0 < n) : ceilDiv n g = ceilDiv (n - g) g + 1 := by
  unfold ceilDiv
  by_cases h : g ≤ n
  · rw [show n + g - 1 = (n - g + g - 1) + g by omega, Nat.add_div_right _ hg]
  · rw [show n - g = 0 by omega, Nat.zero_add, Nat.div_eq_of_lt (by omega : g - 1 < g)]
    exact Nat.div_eq_of_lt_le (by omega) (by omega)

/-- The slots of a group: as many as asked for, each code in range, no field longer than a value. -/
theorem encodeSlots_spec (k : Width) (h) (e1 e2 : Nat) (j : Nat) (p : PredictionState k.bits) (vs) :
   (encodeSlots k h e1 e2 j p vs).1.length = j ∧ (∀ s ∈ (encodeSlots k h e1 e2 j p vs).1, s.code < 2 ^ k.codeBits ∧ s.field.length ≤ k.bytes) := by
  induction j generalizing p vs with
  | zero => simp [encodeSlots]
  | succ j ih =>
    have hpad : paddingSlot.code < 2 ^ k.codeBits ∧ paddingSlot.field.length ≤ k.bytes := by cases k <;> decide
    cases vs with
    | nil => simp only [encodeSlots, List.length_cons, List.forall_mem_cons]; exact ⟨by rw [(ih p []).1], hpad, (ih p []).2⟩
    | cons v vs =>
      obtain ⟨h1, h2, h3, h4⟩ := selectSlot_spec k (v ^^^ p.predict.prediction1) (v ^^^ p.predict.prediction2)
      simp only [encodeSlots, List.length_cons, List.forall_mem_cons]; exact ⟨by rw [(ih _ vs).1], ⟨h1, by simp only [encodeValue]; rw [h2]; exact h3⟩, (ih _ vs).2⟩

/-- The size of `m` groups (41_predictor.md R142). -/
theorem encodeGroups_length (k : Width) (h) (e1 e2 : Nat) (m : Nat) (p : PredictionState k.bits) (vs) :
   k.codeBytes * m ≤ (encodeGroups k h e1 e2 m p vs).length ∧ (encodeGroups k h e1 e2 m p vs).length ≤ (k.codeBytes + k.group * k.bytes) * m := by
  induction m generalizing p vs with
  | zero => simp [encodeGroups]
  | succ m ih =>
    obtain ⟨hl, hc⟩ := encodeSlots_spec k h e1 e2 k.group p vs
    simp only [encodeGroups, groupRecord, List.length_append, packCodes_length]
    have := ih (encodeSlots k h e1 e2 k.group p vs).2 (vs.drop k.group)
    have hf : ((encodeSlots k h e1 e2 k.group p vs).1.flatMap Slot.field).length ≤ k.group * k.bytes := by
      conv_rhs => rw [← hl]
      revert hc; generalize (encodeSlots k h e1 e2 k.group p vs).1 = l; intro hc; clear * - hc
      induction l with
      | nil => simp
      | cons s l ih =>
        have := ih fun s hs => hc s (by simp [hs])
        have := (hc s (by simp)).2
        rw [List.flatMap_cons, List.length_append, List.length_cons, Nat.add_mul]; omega
    rw [Nat.mul_add, Nat.mul_add]; omega

/-- A stream is its 5-byte header and its groups. -/
theorem encodeStream_length (k : Width) (h) (e1 e2 : Nat) (vs) : (encodeStream k h e1 e2 vs).length = 5 + (encodeGroups k h e1 e2 (ceilDiv vs.length k.group) (PredictionState.zero k.bits) vs).length := by simp [encodeStream]; omega

/-- Decoding the slot of a value gives the value back, and leaves the decoder in the encoder's state. -/
theorem decodeValue_encodeValue (k : Width) (h) (e1 e2 : Nat) (p : PredictionState k.bits) (v : BitVec k.bits) (rest : List Byte) (pos : Nat) :
   decodeValue k h e1 e2 (encodeValue k h e1 e2 p v).1.code p ⟨pos, (encodeValue k h e1 e2 p v).1.field ++ rest⟩ =
     some (v, (encodeValue k h e1 e2 p v).2, ⟨pos + (encodeValue k h e1 e2 p v).1.field.length, rest⟩) := by
  obtain ⟨h1, h2, h3, h4⟩ := selectSlot_spec k (v ^^^ p.predict.prediction1) (v ^^^ p.predict.prediction2)
  simp only [encodeValue, decodeValue]
  rw [read_append _ _ _ h2, h2]
  have : basePrediction k (selectSlot k.bytes (v ^^^ p.predict.prediction1).toNat (v ^^^ p.predict.prediction2).toNat).code p.predict ^^^ BitVec.ofNat k.bits (beValue (selectSlot k.bytes (v ^^^ p.predict.prediction1).toNat (v ^^^ p.predict.prediction2).toNat).field) = v := by
    rw [h4, basePrediction]
    split <;> simp
  simp only [this]

/-- What decoding one value does when it answers: it takes its field off the input and looks at nothing else. -/
theorem decodeValue_some {k h e1 e2 c p r v p' r'} (hd : decodeValue k h e1 e2 c p r = some (v, p', r')) :
  ∃ f, r.rest = f ++ r'.rest ∧ r'.pos = r.pos + f.length ∧ ∀ rest pos, decodeValue k h e1 e2 c p ⟨pos, f ++ rest⟩ = some (v, p', ⟨pos + f.length, rest⟩) := by
  simp only [decodeValue] at hd
  split at hd
  · rename_i f r1 hr
    obtain ⟨a, b, c⟩ := read_some hr
    cases hd
    refine ⟨f, a, by rw [b]; exact c, fun rest pos => ?_⟩
    simp only [decodeValue]; rw [read_append _ _ _ b, b]
  · cases hd

/-- What decoding the slots of a group does when it answers. -/
theorem decodeSlots_some {k h e1 e2 cs p r vs p' r'} (hd : decodeSlots k h e1 e2 cs p r = some (vs, p', r')) :
  vs.length = cs.length ∧ ∃ f, r.rest = f ++ r'.rest ∧ r'.pos = r.pos + f.length ∧ ∀ rest pos, decodeSlots k h e1 e2 cs p ⟨pos, f ++ rest⟩ = some (vs, p', ⟨pos + f.length, rest⟩) := by
  induction cs generalizing p r vs with
  | nil => cases hd; exact ⟨rfl, [], rfl, rfl, fun rest pos => rfl⟩
  | cons c cs ih =>
    simp only [decodeSlots] at hd
    split at hd
    · rename_i v p1 r1 h1
      split at hd
      · rename_i vs2 p2 r2 h2
        cases hd
        obtain ⟨f1, a1, b1, c1⟩ := decodeValue_some h1
        obtain ⟨hl, f2, a2, b2, c2⟩ := ih h2
        refine ⟨by simp [hl], f1 ++ f2, by rw [a1, a2, List.append_assoc], by rw [b2, b1]; simp [Nat.add_assoc], fun rest pos => ?_⟩
        simp only [decodeSlots, List.append_assoc, c1, c2]; simp [Nat.add_assoc]
      · cases hd
    · cases hd

/-- What decoding groups does when it answers. -/
theorem decodeGroups_some {k h e1 e2 m n p r vs r'} (hm : ceilDiv n k.group = m) (hd : decodeGroups k h e1 e2 m n p r = some (vs, r')) :
  vs.length = n ∧ ∃ f, r.rest = f ++ r'.rest ∧ r'.pos = r.pos + f.length ∧ ∀ rest pos, decodeGroups k h e1 e2 m n p ⟨pos, f ++ rest⟩ = some (vs, ⟨pos + f.length, rest⟩) := by
  have hg : 0 < k.group := by cases k <;> decide
  induction m generalizing n p r vs with
  | zero =>
    cases hd
    refine ⟨?_, [], rfl, rfl, fun rest pos => rfl⟩
    by_contra hc
    rw [ceilDiv_succ hg (by simp at hc; omega)] at hm; omega
  | succ m ih =>
    have hn : 0 < n := by
      by_contra hc
      rw [show n = 0 by omega] at hm
      simp [ceilDiv] at hm; rw [Nat.div_eq_of_lt (by omega)] at hm; omega
    simp only [decodeGroups] at hd
    split at hd
    · rename_i cb r1 hr
      split at hd
      · rename_i vs1 p1 r2 h1
        split at hd
        · rename_i vs2 r3 h2
          cases hd
          obtain ⟨a0, b0, c0⟩ := read_some hr
          obtain ⟨l1, f1, a1, b1, c1⟩ := decodeSlots_some h1
          obtain ⟨l2, f2, a2, b2, c2⟩ := ih (by rw [ceilDiv_succ hg hn] at hm; rw [show n - min k.group n = n - k.group by omega]; omega) h2
          refine ⟨by rw [List.length_append, l1, l2, List.length_take, unpackCodes_length]; omega, cb ++ (f1 ++ f2), by rw [a0, a1, a2]; simp, by rw [b2, b1, c0, ← b0]; simp [Nat.add_assoc], fun rest pos => ?_⟩
          simp only [decodeGroups, List.append_assoc]
          rw [read_append _ _ _ b0]; simp only [c1, c2]; simp [b0, Nat.add_assoc]
        · cases hd
      · cases hd
    · cases hd

/-- The bytes of a value survive the cut to its width. -/
theorem byteOf_ofNat (k : Width) (v b : Nat) (hb : b < k.bytes) : byteOf (BitVec.ofNat k.bits v).toNat b = byteOf v b := by
  apply BitVec.eq_of_getLsbD_eq; intro i hi
  simp only [byteOf, BitVec.toNat_ofNat, BitVec.getLsbD_ofNat, hi, decide_true, Bool.true_and, Nat.testBit_shiftRight, Nat.testBit_mod_two_pow]
  have : 8 * b + i < k.bits := by rw [bits_eq]; omega
  simp [this]

/-- PDECOMP_W once its length checks passed (41_predictor.md R146). -/
theorem decompressBody_of_fits {k s job} (hf : LengthsFit k s job) : decompressBody k s job.snap = match decodedOf k s job with
   | none => ⟨some .unexpectedEof, 0#32, BitVec.ofNat 32 (headerOf s job).count, ResCfg.ofExponents (headerOf s job).e1 (headerOf s job).e2, freeRegion s.memory s.draws job.snap.dst ((headerOf s job).count * k.bytes)⟩
   | some (vs, pos) => ⟨none, BitVec.ofNat 32 pos, BitVec.ofNat 32 (headerOf s job).count, ResCfg.ofExponents (headerOf s job).e1 (headerOf s job).e2, writeElements k s.memory job.snap.dst vs⟩ := by
  obtain ⟨h1, h2, h3, h4⟩ := hf
  simp only [decompressBody]
  rw [if_neg (by omega), if_neg, if_neg, if_neg]
  · rw [decodedOf, ← readBytes_eq_map]; rfl
  · show ¬ (job.snap.cap < (headerOf s job).count * k.bytes); omega
  · show ¬ (job.snap.n < 5 + ceilDiv (headerOf s job).count k.group * k.codeBytes); omega
  · show ¬ (s.platform.eMax < (headerOf s job).e1 ∨ s.platform.eMax < (headerOf s job).e2); omega

end Sys2Proof.Machine
end

