-- ==== Sys2Proof/Laws/Body.lean ====
section
/-! SUPPORT. The body of every command changes nothing outside its declared output regions and keeps memory canonical
(20_memory.md R60). -/

namespace Sys2Proof.Machine

/-- The address lies in an output region. -/
def Regions.Output (r : Regions) (x : Nat) : Prop := r.outputCovers x = true

/-- The addresses of a single output region. -/
theorem output_one {s l : Nat} {ins} {x} : Regions.Output ⟨ins, [⟨s, l⟩]⟩ x ↔ s ≤ x ∧ x < s + l := by
  simp [Regions.Output, Regions.outputCovers, Region.covers]

/-- A command whose precheck passed has its regions in range and apart. -/
theorem checked_regions {i : Instr} {p : Platform} {j : Snapshot} (hp : precheck (shapeOf i) p j = none) : (regionsOf (shapeOf i) j).outOfRange = false ∧ (regionsOf (shapeOf i) j).overlapping = false := by
  cases i
  case nop => exact ⟨rfl, rfl⟩
  all_goals first
    | (have h := (precheckPlanes_eq_none.1 ((precheck_transposer (sh := .split _ _) (.inl rfl) p j).symm.trans hp)); exact ⟨h.1, h.2.1⟩)
    | (have h := (precheckPlanes_eq_none.1 ((precheck_transposer (sh := .merge _ _) (.inr rfl) p j).symm.trans hp)); exact ⟨h.1, h.2.1⟩)
    | (have h := precheckStream_eq_none.1 hp; exact ⟨h.1, h.2.1⟩)

/-- A command's body changes nothing outside its output regions. -/
theorem bodyOf_agree {i s j} (hp : precheck (shapeOf i) s.platform j = none) :
   AgreeOff (Regions.Output (regionsOf (shapeOf i) j)) s.memory (bodyOf i s j).memory := by
  have hsp : ∀ P size (hi : shapeOf i = .split P size) m', AgreeOff (fun x => ((planeRegions j.dst j.pitch P (j.n * size)).any fun q => q.covers x) = true) s.memory m' → AgreeOff (Regions.Output (regionsOf (shapeOf i) j)) s.memory m' := by
    intro P size hi m' h; rw [hi]; exact h
  have hmg : ∀ P size (hi : shapeOf i = .merge P size) m', AgreeOff (fun x => j.dst ≤ x ∧ x < j.dst + P * j.n * size) s.memory m' → AgreeOff (Regions.Output (regionsOf (shapeOf i) j)) s.memory m' := by
    intro P size hi m' h x hx; rw [hi] at hx; exact h x (by rw [regionsOf, output_one] at hx; exact hx)
  have hc : ∀ k, AgreeOff (Regions.Output (regionsOf (.compress k) j)) s.memory (compressBody k s j).memory := by
    intro k x hx
    rw [regionsOf, output_one] at hx
    simp only [compressBody]
    split
    · simp only [freeRegion, readByte_freeBytes]; rw [if_neg]; omega
    · exact readByte_writeBytes_other _ _ (by omega)
  have hd : ∀ k, AgreeOff (Regions.Output (regionsOf (.decompress k) j)) s.memory (decompressBody k s j).memory := by
    intro k x hx
    rw [regionsOf, output_one] at hx
    simp only [decompressBody]
    split
    · rfl
    · split
      · rfl
      · split
        · rfl
        · split
          · rfl
          · rename_i hcap
            split
            · simp only [freeRegion, readByte_freeBytes]; rw [if_neg]; omega
            · rename_i vs pos hdec
              refine readByte_writeElements_other _ _ _ ?_
              have : vs.length = (readHeader s.memory j.src).count := by
                unfold decodeStream at hdec
                split at hdec
                · rename_i h; cases hdec; exact (decodeGroups_some rfl h).1
                · cases hdec
              rw [this]; omega
  cases i
  case nop => intro x _; rfl
  case pcomp32 => exact hc .w32
  case pcomp64 => exact hc .w64
  case pdecomp32 => exact hd .w32
  case pdecomp64 => exact hd .w64
  case split3w32 => exact hsp 3 4 rfl _ (split3_spec 4 s j hp).1
  case split3w64 => exact hsp 3 8 rfl _ (split3_spec 8 s j hp).1
  case merge3w32 => exact hmg 3 4 rfl _ (merge3_spec 4 s j hp).1
  case merge3w64 => exact hmg 3 8 rfl _ (merge3_spec 8 s j hp).1
  case splitb2 => exact hsp 2 1 rfl _ (splitBytes_spec 2 (by omega) s j hp).1
  case splitb4 => exact hsp 4 1 rfl _ (splitBytes_spec 4 (by omega) s j hp).1
  case splitb8 => exact hsp 8 1 rfl _ (splitBytes_spec 8 (by omega) s j hp).1
  case mergeb2 => exact hmg 2 1 rfl _ (mergeBytes_spec 2 s j hp).1
  case mergeb4 => exact hmg 4 1 rfl _ (mergeBytes_spec 4 s j hp).1
  case mergeb8 => exact hmg 8 1 rfl _ (mergeBytes_spec 8 s j hp).1

/-- A grid whose cells exist keeps memory canonical. -/
theorem gridWrite_wf_of_covered {P z out val n m} {Out : Nat → Prop} (h : Memory.wf m) (hout : ∀ i p b, i < n → p < P → b < z → Out (out i p + b)) (hO : ∀ x, Out x → x < addressCount) : Memory.wf (gridWrite P z out val n m) := by
  refine gridWrite_wf h fun i p hi hp => ?_
  rcases Nat.eq_zero_or_pos z with hz | hz
  · exact .inl hz
  · right
    have := hO _ (hout i p (z - 1) hi hp (by omega)); omega

/-- A command's body keeps memory canonical. -/
theorem bodyOf_wf {i s j} (hw : Memory.wf s.memory) (hp : precheck (shapeOf i) s.platform j = none) : Memory.wf (bodyOf i s j).memory := by
  have hO : ∀ x, (regionsOf (shapeOf i) j).outputCovers x = true → x < addressCount := by
    intro x hx
    simp only [Regions.outputCovers, List.any_eq_true] at hx
    obtain ⟨q, hq, hx⟩ := hx
    exact covered_lt (checked_regions hp).1 (by simp [hq]) hx
  have hone : ∀ s l ins, regionsOf (shapeOf i) j = ⟨ins, [⟨s, l⟩]⟩ → l = 0 ∨ s + l ≤ addressCount := by
    intro s l ins h; rw [h] at hO
    by_contra hc
    have : ((⟨ins, [⟨s, l⟩]⟩ : Regions).outputCovers (s + l - 1)) = true := by simp [Regions.outputCovers, Region.covers]; omega
    have := hO _ this; omega
  have hs : ∀ P z out val, shapeOf i = .split P z → (∀ e p b, e < j.n → p < P → b < z → j.dst + p * j.pitch ≤ out e p + b ∧ out e p + b < j.dst + p * j.pitch + j.n * z) → Memory.wf (gridWrite P z out val j.n s.memory) := by
    intro P z out val hi ho
    rw [hi] at hO
    exact gridWrite_wf_of_covered (Out := fun x => (regionsOf (.split P z) j).outputCovers x = true) hw (fun e p b he hp hb => planes_cover.2 ⟨p, hp, ho e p b he hp hb⟩) hO
  have hm : ∀ P z P' z' out val, shapeOf i = .merge P z → (∀ e p b, e < j.n → p < P' → b < z' → j.dst ≤ out e p + b ∧ out e p + b < j.dst + P * j.n * z) → Memory.wf (gridWrite P' z' out val j.n s.memory) := by
    intro P z P' z' out val hi ho
    rw [hi] at hO
    exact gridWrite_wf_of_covered (Out := fun x => (regionsOf (.merge P z) j).outputCovers x = true) hw (fun e p b he hp hb => by rw [regionsOf]; exact output_one.2 (ho e p b he hp hb)) hO
  have hc : ∀ k, shapeOf i = .compress k → Memory.wf (compressBody k s j).memory := by
    intro k hi
    have := hone j.dst j.cap _ (by rw [hi]; rfl)
    simp only [compressBody]; split
    · exact freeRegion_wf hw _ _ _
    · refine writeBytes_wf hw ?_
      rcases this with h | h
      · left; apply List.length_eq_zero_iff.1; omega
      · right; omega
  have hd : ∀ k, shapeOf i = .decompress k → Memory.wf (decompressBody k s j).memory := by
    intro k hi
    have := hone j.dst j.cap _ (by rw [hi]; rfl)
    have hkb : 0 < k.bytes := by cases k <;> decide
    simp only [decompressBody]; split
    · exact hw
    · split
      · exact hw
      · split
        · exact hw
        · split
          · exact hw
          · split
            · exact freeRegion_wf hw _ _ _
            · rename_i hcap _ vs pos hdec
              have hl : vs.length = (readHeader s.memory j.src).count := by
                unfold decodeStream at hdec
                split at hdec
                · rename_i h; cases hdec; exact (decodeGroups_some rfl h).1
                · cases hdec
              refine writeElements_wf k hw ?_
              rw [← hl] at hcap
              rcases this with h | h
              · left; apply List.length_eq_zero_iff.1; by_contra hne
                have : 0 < vs.length * k.bytes := Nat.mul_pos (by omega) hkb
                omega
              · right; omega
  cases i
  case nop => exact hw
  case pcomp32 => exact hc .w32 rfl
  case pcomp64 => exact hc .w64 rfl
  case pdecomp32 => exact hd .w32 rfl
  case pdecomp64 => exact hd .w64 rfl
  case split3w32 => show Memory.wf (split3 4 j s.memory); rw [split3_eq]; exact hs 3 4 _ _ rfl fun e p b he hp hb => by have := row_lt he hb; omega
  case split3w64 => show Memory.wf (split3 8 j s.memory); rw [split3_eq]; exact hs 3 8 _ _ rfl fun e p b he hp hb => by have := row_lt he hb; omega
  case splitb2 => show Memory.wf (splitBytes 2 j s.memory); rw [splitBytes_eq]; exact hs 2 1 _ _ rfl fun e p b he hp hb => by omega
  case splitb4 => show Memory.wf (splitBytes 4 j s.memory); rw [splitBytes_eq]; exact hs 4 1 _ _ rfl fun e p b he hp hb => by omega
  case splitb8 => show Memory.wf (splitBytes 8 j s.memory); rw [splitBytes_eq]; exact hs 8 1 _ _ rfl fun e p b he hp hb => by omega
  case merge3w32 => show Memory.wf (merge3 4 j s.memory); rw [merge3_eq]; exact hm 3 4 3 4 _ _ rfl fun e p b he hp hb => by have := cell_lt he hp hb; omega
  case merge3w64 => show Memory.wf (merge3 8 j s.memory); rw [merge3_eq]; exact hm 3 8 3 8 _ _ rfl fun e p b he hp hb => by have := cell_lt he hp hb; omega
  case mergeb2 => show Memory.wf (mergeBytes 2 j s.memory); rw [mergeBytes_eq]; exact hm 2 1 1 2 _ _ rfl fun e p b he hp hb => by have := row_lt he hb; omega
  case mergeb4 => show Memory.wf (mergeBytes 4 j s.memory); rw [mergeBytes_eq]; exact hm 4 1 1 4 _ _ rfl fun e p b he hp hb => by have := row_lt he hb; omega
  case mergeb8 => show Memory.wf (mergeBytes 8 j s.memory); rw [mergeBytes_eq]; exact hm 8 1 1 8 _ _ rfl fun e p b he hp hb => by have := row_lt he hb; omega

end Sys2Proof.Machine
end

