-- ==== Sys2Proof/Laws/Registers.lean ====
section
/-! SUPPORT. The words that CTRL, STATUS, HASH_CFG and RES_CFG read as, bit by bit (10_state.md R24, R25, R31, R39). -/

namespace Sys2Proof.Machine

theorem ctrlWord_getLsbD (e : Bool) (i : Nat) : (ctrlWord e).getLsbD i = (decide (i = 0) && e) := by
  unfold ctrlWord
  rw [BitVec.getLsbD_append]
  rcases i with _ | i <;> simp

theorem statusWord_getLsbD (b : Bool) (st : Status) (i : Nat) :
    (statusWord b st).getLsbD i =
      if i = 0 then b else if i = 1 then st.done else if i = 2 then st.err else if i = 3 then st.overrun
      else if 8 ≤ i ∧ i < 12 then st.errcode.getLsbD (i - 8) else false := by
  unfold statusWord
  by_cases h : i < 32
  · simp only [BitVec.getLsbD_append]
    interval_cases i <;> simp
  · rw [BitVec.getLsbD_of_ge _ _ (by omega)]
    grind

theorem hashCfgWord_getLsbD (h : HashCfg) (i : Nat) :
    h.toWord.getLsbD i =
      if i < 5 then h.e1w32.getLsbD i else if 8 ≤ i ∧ i < 13 then h.e2w32.getLsbD (i - 8)
      else if 16 ≤ i ∧ i < 21 then h.e1w64.getLsbD (i - 16) else if 24 ≤ i ∧ i < 29 then h.e2w64.getLsbD (i - 24)
      else false := by
  unfold HashCfg.toWord
  by_cases hi : i < 32
  · simp only [BitVec.getLsbD_append]
    interval_cases i <;> simp
  · rw [BitVec.getLsbD_of_ge _ _ (by omega)]
    grind

theorem resCfgWord_getLsbD (c : ResCfg) (i : Nat) :
    c.toWord.getLsbD i =
      if i < 5 then c.e1.getLsbD i else if 8 ≤ i ∧ i < 13 then c.e2.getLsbD (i - 8) else false := by
  unfold ResCfg.toWord
  by_cases hi : i < 32
  · simp only [BitVec.getLsbD_append]
    interval_cases i <;> simp
  · rw [BitVec.getLsbD_of_ge _ _ (by omega)]
    grind

/-- The words of the reset values (10_state.md R46). -/
theorem resetWords :
    ctrlWord State.reset.irqEn = 0#32 ∧ statusWord false State.reset.status = 0#32 ∧
      State.reset.hashCfg.toWord = 0x14140A04#32 ∧ State.reset.resCfg.toWord = 0#32 := by
  decide

end Sys2Proof.Machine
end

