-- ==== Sys2Proof/Laws/Host.lean ====
section
/-! SUPPORT. Everything a transaction, a window write and an engine step can do, said once each. -/

namespace Sys2Proof.Machine

/-- After a reset every register is as R46 says. -/
theorem registersReset_resetTo (s m) : RegistersReset (resetTo m s) := by
  obtain ⟨h1,h2,h3,h4⟩ := resetWords
  exact ⟨rfl, h1, h2, rfl, h3, rfl, rfl, rfl, rfl, rfl, rfl, rfl, h4, rfl, rfl⟩

/-- A reset leaves every register as R46 says. -/
theorem resetBlock_registersReset (s) : RegistersReset (resetBlock s) := by
  rcases resetBlock_cases s with ⟨_, h⟩ | ⟨_, _, h⟩ <;> rw [h] <;> exact registersReset_resetTo _ _

/-- All that a transaction can do: serve a read, write a byte, reset the block, or write a window slot. -/
theorem hostStep_cases {op s t} (h : hostStep op s = .next t) :
   (∃ rd dr inp, t = { s with readData := rd, draws := dr, inputs := inp }) ∨
   (∃ m a b, op = .memWrite a b ∧ m = writeByte s.memory a.toNat b ∧ t = { s with memory := m, engine := s.engine.noteWrite a }) ∨
   (t = resetBlock s ∧ (op = .rst ∨ (op = .powerGate false ∧ s.engine = .idle))) ∨
   (∃ addr size x o, op = .write addr size x ∧ windowAccess s.platform addr size = .slot o ∧ t = writeSlot x s o) := by
  cases op
  case read => simp only [hostStep, hostRead] at h; split at h <;> cases h; exact .inl ⟨_, s.draws, s.inputs, rfl⟩
  case poll => simp only [hostStep, hostPoll] at h; split at h; split at h <;> cases h; exact .inl ⟨_, s.draws, s.inputs, rfl⟩; exact .inl ⟨_, s.draws, _, rfl⟩; cases h
  case memRead => simp only [hostStep, agentRead] at h; split at h; cases h; split at h <;> cases h; exact .inl ⟨_, _, s.inputs, rfl⟩; exact .inl ⟨_, s.draws, s.inputs, rfl⟩
  case memWrite a b => simp only [hostStep, agentWrite] at h; split at h <;> cases h; exact .inr (.inl ⟨_, a, b, rfl, rfl, rfl⟩)
  case rst => cases h; exact .inr (.inr (.inl ⟨rfl, .inl rfl⟩))
  case powerGate q =>
    simp only [hostStep, powerCycle] at h; split at h <;> cases h
    rename_i hi
    cases q
    · exact .inr (.inr (.inl ⟨rfl, .inr ⟨rfl, hi⟩⟩))
    · exact .inl ⟨s.readData, s.draws, s.inputs, rfl⟩
  case write addr size x => obtain ⟨o, h1, h2⟩ := hostStep_write_cases h; exact .inr (.inr (.inr ⟨addr, size, x, o, rfl, h1, h2⟩))

/-- All that a write of a window slot can do: a soft reset, configuration, clearing STATUS, or a command word. -/
theorem writeSlot_cases (x s o) :
   (o = 0x04 ∧ x.getLsbD 1 = true ∧ writeSlot x s o = resetBlock { s with irqEn := x.getLsbD 0 }) ∨
   (∃ ie hc sa sl da dc ps, writeSlot x s o = { s with irqEn := ie, hashCfg := hc, srcAddr := sa, srcLen := sl, dstAddr := da, dstCap := dc, planeStride := ps }) ∨
   (o = 0x08 ∧ writeSlot x s o = { s with status := s.status.clear x }) ∨
   (o = 0x0C ∧ writeSlot x s o = writeCmd x s) := by
  unfold writeSlot
  split
  · rename_i r hr
    have ho : o = r.offset := by
      unfold regAt at hr; split at hr <;> cases hr <;> rfl
    cases r
    case ctrl =>
      simp only [writeReg, writeCtrl]
      by_cases hx : x.getLsbD 1 = true
      · exact .inl ⟨ho, hx, if_pos hx⟩
      · rw [if_neg hx]; exact .inr (.inl ⟨_, s.hashCfg, s.srcAddr, s.srcLen, s.dstAddr, s.dstCap, s.planeStride, rfl⟩)
    case status => exact .inr (.inr (.inl ⟨ho, rfl⟩))
    case cmd => exact .inr (.inr (.inr ⟨ho, rfl⟩))
    all_goals exact .inr (.inl ⟨s.irqEn, _, _, _, _, _, _, rfl⟩)
  · exact .inr (.inl ⟨s.irqEn, s.hashCfg, s.srcAddr, s.srcLen, s.dstAddr, s.dstCap, s.planeStride, rfl⟩)

/-- A window access that is served. -/
theorem windowAccess_slot_eq {p : Platform} {addr size o} (h : windowAccess p addr size = .slot o) : addr = p.regBase + o ∧ size = 4 := by
  unfold windowAccess at h; split at h
  · cases h
  · split at h <;> cases h
    rename_i h1 h2; exact ⟨by omega, h2.1⟩

/-- How an illegal word completes (60_exceptions.md R191). -/
theorem illegalCommand_cases {s t} (h : illegalCommand s = .next t) : ∃ job, s.engine = .busy job ∧ t = complete .control s job (Completion.bare .illegalCmd s.memory) := by
  obtain ⟨job, hj, hc⟩ := runCommand_cases h
  refine ⟨job, hj, ?_⟩
  rcases hc with ⟨e, he, -⟩ | ⟨-, -, rfl⟩
  · simp [precheck] at he
  · rfl

/-- An engine step that answers is a completion. -/
theorem engine_completes {s t job} (hj : s.engine = .busy job) (hc : (∃ i, decodeWord job.snap.cmd = .command i ∧ exec i s = .next t) ∨ (∃ why, decodeWord job.snap.cmd = .illegal why ∧ illegalCommand s = .next t)) : ∃ sh c, t = complete sh s job c := by
  rcases hc with ⟨i, hd, he⟩ | ⟨why, hd, he⟩
  · obtain ⟨job', hj', hcs⟩ := exec_cases he
    obtain rfl : job = job' := by simpa [hj] using hj'
    rcases hcs with ⟨e, _, rfl⟩ | ⟨_, _, rfl⟩ <;> exact ⟨_, _, rfl⟩
  · obtain ⟨job', hj', rfl⟩ := illegalCommand_cases he
    obtain rfl : job = job' := by simpa [hj] using hj'
    exact ⟨_, _, rfl⟩

end Sys2Proof.Machine
end

