-- ==== Sys2Proof/Laws/PerInstr.lean ====
section
/-! SUPPORT. Facts per instruction, as syntax: the command word of each is legal, and holds its OP (30_encoding.md R70, R71). -/

namespace Sys2Proof.Laws.LegalWord

/-- The command word of `i` has no reserved bit set, and OP in [3:0], not 0xF. -/
def Statement (i : Instr) : Prop := commandWordLegal (encode i) = true ∧ (encode i).extractLsb' 0 4 = i.op

theorem nop : Statement .nop := ⟨rfl, rfl⟩
theorem pcomp32 : Statement .pcomp32 := ⟨rfl, rfl⟩
theorem pdecomp32 : Statement .pdecomp32 := ⟨rfl, rfl⟩
theorem pcomp64 : Statement .pcomp64 := ⟨rfl, rfl⟩
theorem pdecomp64 : Statement .pdecomp64 := ⟨rfl, rfl⟩
theorem split3w32 : Statement .split3w32 := ⟨rfl, rfl⟩
theorem merge3w32 : Statement .merge3w32 := ⟨rfl, rfl⟩
theorem split3w64 : Statement .split3w64 := ⟨rfl, rfl⟩
theorem merge3w64 : Statement .merge3w64 := ⟨rfl, rfl⟩
theorem splitb2 : Statement .splitb2 := ⟨rfl, rfl⟩
theorem mergeb2 : Statement .mergeb2 := ⟨rfl, rfl⟩
theorem splitb4 : Statement .splitb4 := ⟨rfl, rfl⟩
theorem mergeb4 : Statement .mergeb4 := ⟨rfl, rfl⟩
theorem splitb8 : Statement .splitb8 := ⟨rfl, rfl⟩
theorem mergeb8 : Statement .mergeb8 := ⟨rfl, rfl⟩

end Sys2Proof.Laws.LegalWord
end

