-- ==== Sys2Proof/Tests/Slice0.lean ====
section
/-! SUPPORT. The model's own tests: the checks of WellFormed, the words of the OP map, one step of every command on a
vector of 95_test_vectors.md, and for every statement a state and operands that meet its hypotheses together. -/

open Sys2Proof Sys2Proof.Machine

namespace Sys2Proof.Tests

/-! ### WellFormed -/

/-- 00_scope.md R7: an odd E_MAX is rejected. -/
theorem test_wf_odd : Platform.wf { Platform.reference with eMax := 21 } = false := by decide
/-- 00_scope.md R7: E_MAX above 30 is rejected. -/
theorem test_wf_large : Platform.wf { Platform.reference with eMax := 32 } = false := by decide
theorem test_wf_reference : Platform.reference.wf = true := by decide
/-- 30_encoding.md R72: OP = 0xF and a set bit of [31:4] are illegal. -/
theorem test_word_op15 : commandWordLegal 0x0000000F#32 = false := by decide
theorem test_word_bit4 : commandWordLegal 0x00000010#32 = false := by decide
theorem test_word_mergeb8 : commandWordLegal 0x0000000E#32 = true := by decide

/-! ### Decoding: the words of the OP map (30_encoding.md R70, R71) -/

theorem test_decode_nop : decodeWord 0b00000000000000000000000000000000#32 = .command .nop := by decide
theorem test_decode_pcomp32 : decodeWord 0b00000000000000000000000000000001#32 = .command .pcomp32 := by decide
theorem test_decode_pdecomp32 : decodeWord 0b00000000000000000000000000000010#32 = .command .pdecomp32 := by decide
theorem test_decode_pcomp64 : decodeWord 0b00000000000000000000000000000011#32 = .command .pcomp64 := by decide
theorem test_decode_pdecomp64 : decodeWord 0b00000000000000000000000000000100#32 = .command .pdecomp64 := by decide
theorem test_decode_split3w32 : decodeWord 0b00000000000000000000000000000101#32 = .command .split3w32 := by decide
theorem test_decode_merge3w32 : decodeWord 0b00000000000000000000000000000110#32 = .command .merge3w32 := by decide
theorem test_decode_split3w64 : decodeWord 0b00000000000000000000000000000111#32 = .command .split3w64 := by decide
theorem test_decode_merge3w64 : decodeWord 0b00000000000000000000000000001000#32 = .command .merge3w64 := by decide
theorem test_decode_splitb2 : decodeWord 0b00000000000000000000000000001001#32 = .command .splitb2 := by decide
theorem test_decode_mergeb2 : decodeWord 0b00000000000000000000000000001010#32 = .command .mergeb2 := by decide
theorem test_decode_splitb4 : decodeWord 0b00000000000000000000000000001011#32 = .command .splitb4 := by decide
theorem test_decode_mergeb4 : decodeWord 0b00000000000000000000000000001100#32 = .command .mergeb4 := by decide
theorem test_decode_splitb8 : decodeWord 0b00000000000000000000000000001101#32 = .command .splitb8 := by decide
theorem test_decode_mergeb8 : decodeWord 0b00000000000000000000000000001110#32 = .command .mergeb8 := by decide
theorem test_decode_op15 : decodeWord 0b00000000000000000000000000001111#32 = .illegal .reservedOp := by decide
theorem test_decode_bit4 : decodeWord 0b00000000000000000000000000010000#32 = .illegal .reservedBits := by decide
theorem test_decode_bit31 : decodeWord 0b10000000000000000000000000000001#32 = .illegal .reservedBits := by decide
/-- A table word is the command word itself; a number that has no 32-bit word decodes to nothing. -/
theorem test_decodeTableWord : decodeTableWord 32 14 = some .mergeb8 ∧ decodeTableWord 32 15 = none ∧
    decodeTableWord 32 4294967297 = none := by decide

/-! ### Small states -/

/-- Exponents 0 (the vectors marked E0). -/
def e0 : HashCfg := { e1w32 := 0#5, e2w32 := 0#5, e1w64 := 0#5, e2w64 := 0#5 }

/-- Reset, with these operands, these bytes at `a`, and the command accepted and next to run. -/
def placed (i : Instr) (hash : HashCfg) (src n dst cap pitch : Word) (a : Nat) (bs : List Byte) : State :=
  ({ State.reset with
      hashCfg := hash, srcAddr := src, srcLen := n, dstAddr := dst, dstCap := cap, planeStride := pitch
      memory := writeBytes [] a bs }).withFetchWord 32 (encode i).toNat

/-- What is seen after a step: STATUS, the result registers, and `n` bytes from `a`. -/
def seen (a n : Nat) : Host.Outcome State Fault Refusal → Option (Word × Word × Word × Word × List Byte)
  | .next t => some (readReg t .status, t.resLen, t.resCount, readReg t .resCfg, readBytes t.memory a n)
  | .fault _ => none
  | .refused _ => none

/-! ### One step of every command, on vectors of 95_test_vectors.md -/

/-- H1. -/
theorem test_nop : seen 0 0 (step (placed .nop e0 1 2 3 4 5 0 [])) = some (0x2#32, 0#32, 0#32, 0#32, []) := by decide

/-- P8. -/
theorem test_pcomp32 : seen 0x2000 39 (step (placed .pcomp32 e0 0x1000 9 0x2000 64 0 0x1000
    [0x00, 0x00, 0x80, 0x3F, 0x00, 0x00, 0x00, 0x40, 0x00, 0x00, 0x40, 0x40, 0x00, 0x00, 0x80, 0x40, 0x00, 0x00, 0xA0, 0x40,
     0x00, 0x00, 0xC0, 0x40, 0x00, 0x00, 0xE0, 0x40, 0x00, 0x00, 0x00, 0x41, 0x00, 0x00, 0x10, 0x41])) =
    some (0x2#32, 39#32, 9#32, 0#32,
      [0x00, 0x00, 0x00, 0x00, 0x09, 0x91, 0xD7, 0x6D, 0x3F, 0x80, 0x00, 0x00, 0x7F, 0x80, 0x00, 0x00, 0x40, 0x00, 0x00, 0x00,
       0x20, 0x00, 0x00, 0x00, 0x00, 0x00, 0x64, 0x92, 0x49, 0x10, 0x00, 0x00, 0x00, 0x00, 0x00, 0x00, 0x00, 0x00, 0x00]) := by
  decide

/-- P12, hash-dependent. -/
theorem test_pcomp32_hash : seen 0x2000 19 (step (placed .pcomp32 State.reset.hashCfg 0x1000 5 0x2000 64 0 0x1000
    [0x00, 0x00, 0x80, 0x3F, 0x00, 0x00, 0x00, 0x40, 0x00, 0x00, 0x80, 0x3F, 0x00, 0x00, 0x00, 0x40, 0x00, 0x00, 0x80, 0x3F])) =
    some (0x2#32, 19#32, 5#32, 0xA04#32,
      [0x25, 0x00, 0x00, 0x00, 0x05, 0x90, 0x00, 0x49, 0x3F, 0x80, 0x00, 0x00, 0x40, 0x00, 0x00, 0x00, 0x00, 0x00, 0x00]) := by
  decide

/-- P4, decoded: the trailing zero residual, and the padding left unread. -/
theorem test_pdecomp32 : seen 0x2000 37 (step (placed .pdecomp32 e0 0x1000 22 0x2000 64 0 0x1000
    [0x00, 0x00, 0x00, 0x00, 0x09, 0x80, 0x00, 0x00, 0x12, 0x34, 0x56, 0x78, 0x04, 0x92, 0x49, 0x00, 0x00, 0x00, 0x00, 0x00,
     0x00, 0x00])) =
    some (0x2#32, 15#32, 9#32, 0#32,
      [0x78, 0x56, 0x34, 0x12, 0x78, 0x56, 0x34, 0x12, 0x78, 0x56, 0x34, 0x12, 0x78, 0x56, 0x34, 0x12, 0x78, 0x56, 0x34, 0x12,
       0x78, 0x56, 0x34, 0x12, 0x78, 0x56, 0x34, 0x12, 0x78, 0x56, 0x34, 0x12, 0x78, 0x56, 0x34, 0x12, 0x00]) := by decide

/-- X2: CORRUPT_LENGTH. -/
theorem test_pdecomp32_corrupt : seen 0x2000 4 (step (placed .pdecomp32 e0 0x1000 7 0x2000 16 0 0x1000
    [0x00, 0x00, 0x00, 0x00, 0x04, 0x8E, 0xD2])) = some (0x606#32, 0#32, 4#32, 0#32, [0x00, 0x00, 0x00, 0x00]) := by decide

/-- P9. -/
theorem test_pcomp64 : seen 0x2000 31 (step (placed .pcomp64 e0 0x1000 3 0x2000 64 0 0x1000
    [0x00, 0x00, 0x00, 0x00, 0x00, 0x00, 0xF0, 0x3F, 0x00, 0x00, 0x00, 0x00, 0x00, 0x00, 0x00, 0x40,
     0x00, 0x00, 0x00, 0x00, 0x00, 0x00, 0x08, 0x40])) =
    some (0x2#32, 31#32, 3#32, 0#32,
      [0x00, 0x00, 0x00, 0x00, 0x03, 0x88, 0x3F, 0xF0, 0x00, 0x00, 0x00, 0x00, 0x00, 0x00, 0x7F, 0xF0, 0x00, 0x00, 0x00, 0x00,
       0x00, 0x00, 0x71, 0x08, 0x00, 0x00, 0x00, 0x00, 0x00, 0x00, 0x00]) := by decide

/-- P6, with one byte too little room: DST_FULL reports the 15 bytes needed (the form of X8). -/
theorem test_pcomp64_full : seen 0x3000 0 (step (placed .pcomp64 State.reset.hashCfg 0x1000 1 0x2000 14 0 0x1000
    [0xEF, 0xCD, 0xAB, 0x89, 0x67, 0x45, 0x23, 0x01])) = some (0x406#32, 15#32, 1#32, 0x1414#32, []) := by decide

/-- P11, decoded: code 9 takes the stride prediction. -/
theorem test_pdecomp64 : seen 0x2000 40 (step (placed .pdecomp64 e0 0x1000 14 0x2000 40 0 0x1000
    [0x00, 0x00, 0x00, 0x00, 0x05, 0x11, 0x64, 0xAC, 0x91, 0x00, 0xBC, 0x11, 0x64, 0x00])) =
    some (0x2#32, 13#32, 5#32, 0#32,
      [0x64, 0x00, 0x00, 0x00, 0x00, 0x00, 0x00, 0x00, 0xC8, 0x00, 0x00, 0x00, 0x00, 0x00, 0x00, 0x00,
       0x2C, 0x01, 0x00, 0x00, 0x00, 0x00, 0x00, 0x00, 0x90, 0x01, 0x00, 0x00, 0x00, 0x00, 0x00, 0x00,
       0xF4, 0x01, 0x00, 0x00, 0x00, 0x00, 0x00, 0x00]) := by decide

/-- X15: UNEXPECTED_EOF inside a field; DST is not looked at, its bytes hold any value. -/
theorem test_pdecomp64_eof : seen 0x3000 0 (step (placed .pdecomp64 e0 0x1000 29 0x2000 24 0 0x1000
    [0x00, 0x00, 0x00, 0x00, 0x03, 0x88, 0x3F, 0xF0, 0x00, 0x00, 0x00, 0x00, 0x00, 0x00, 0x7F, 0xF0, 0x00, 0x00, 0x00, 0x00,
     0x00, 0x00, 0x71, 0x08, 0x00, 0x00, 0x00, 0x00, 0x00])) = some (0x506#32, 0#32, 3#32, 0#32, []) := by decide

/-- T1, with the elements' bytes told apart. -/
theorem test_split3w32 : seen 0x2000 24 (step (placed .split3w32 e0 0x1000 2 0x2000 24 8 0x1000
    [1, 2, 3, 4, 5, 6, 7, 8, 9, 10, 11, 12, 13, 14, 15, 16, 17, 18, 19, 20, 21, 22, 23, 24])) =
    some (0x2#32, 24#32, 2#32, 0#32,
      [1, 2, 3, 4, 13, 14, 15, 16, 5, 6, 7, 8, 17, 18, 19, 20, 9, 10, 11, 12, 21, 22, 23, 24]) := by decide

/-- T11: RANGE. -/
theorem test_split3w32_range : seen 0 1 (step (placed .split3w32 e0 0x1000 1 0 0xFFFFFFFF 0x80000000 0x1000 [1])) =
    some (0x206#32, 0#32, 0#32, 0#32, [0]) := by decide

/-- T2, with the elements' bytes told apart. -/
theorem test_merge3w32 : seen 0x3000 24 (step (placed .merge3w32 e0 0x2000 2 0x3000 24 8 0x2000
    [1, 2, 3, 4, 13, 14, 15, 16, 5, 6, 7, 8, 17, 18, 19, 20, 9, 10, 11, 12, 21, 22, 23, 24])) =
    some (0x2#32, 24#32, 2#32, 0#32,
      [1, 2, 3, 4, 5, 6, 7, 8, 9, 10, 11, 12, 13, 14, 15, 16, 17, 18, 19, 20, 21, 22, 23, 24]) := by decide

/-- T13: OVERLAP. -/
theorem test_merge3w32_overlap : seen 0x1008 1 (step (placed .merge3w32 e0 0x1000 1 0x1008 12 4 0x1008 [7])) =
    some (0x306#32, 0#32, 0#32, 0#32, [7]) := by decide

/-- T3. -/
theorem test_split3w64 : seen 0x2000 24 (step (placed .split3w64 e0 0x1000 1 0x2000 24 8 0x1000
    [0, 0, 0, 0, 0, 0, 0xF0, 0x3F, 0, 0, 0, 0, 0, 0, 0, 0x40, 0, 0, 0, 0, 0, 0, 8, 0x40])) =
    some (0x2#32, 24#32, 1#32, 0#32,
      [0, 0, 0, 0, 0, 0, 0xF0, 0x3F, 0, 0, 0, 0, 0, 0, 0, 0x40, 0, 0, 0, 0, 0, 0, 8, 0x40]) := by decide

/-- T3, merged back. -/
theorem test_merge3w64 : seen 0x3000 24 (step (placed .merge3w64 e0 0x2000 1 0x3000 24 8 0x2000
    [0, 0, 0, 0, 0, 0, 0xF0, 0x3F, 0, 0, 0, 0, 0, 0, 0, 0x40, 0, 0, 0, 0, 0, 0, 8, 0x40])) =
    some (0x2#32, 24#32, 1#32, 0#32,
      [0, 0, 0, 0, 0, 0, 0xF0, 0x3F, 0, 0, 0, 0, 0, 0, 0, 0x40, 0, 0, 0, 0, 0, 0, 8, 0x40]) := by decide

/-- T4. -/
theorem test_splitb2 : seen 0x2000 4 (step (placed .splitb2 e0 0x1000 2 0x2000 4 2 0x1000 [0x34, 0x12, 0xCD, 0xAB])) =
    some (0x2#32, 4#32, 2#32, 0#32, [0x34, 0xCD, 0x12, 0xAB]) := by decide

/-- T4, merged back. -/
theorem test_mergeb2 : seen 0x3000 4 (step (placed .mergeb2 e0 0x2000 2 0x3000 4 2 0x2000 [0x34, 0xCD, 0x12, 0xAB])) =
    some (0x2#32, 4#32, 2#32, 0#32, [0x34, 0x12, 0xCD, 0xAB]) := by decide

/-- T12: the input planes coincide. -/
theorem test_mergeb2_coincide : seen 0x2000 2 (step (placed .mergeb2 e0 0x1000 1 0x2000 2 0 0x1000 [0xAB])) =
    some (0x2#32, 2#32, 1#32, 0#32, [0xAB, 0xAB]) := by decide

/-- T7 on empty memory: the gaps between the planes are left alone. -/
theorem test_splitb4 : seen 0x2000 14 (step (placed .splitb4 e0 0x1000 2 0x2000 14 4 0x1000
    [0x44, 0x33, 0x22, 0x11, 0xDD, 0xCC, 0xBB, 0xAA])) =
    some (0x2#32, 8#32, 2#32, 0#32, [0x44, 0xDD, 0, 0, 0x33, 0xCC, 0, 0, 0x22, 0xBB, 0, 0, 0x11, 0xAA]) := by decide

/-- T7 with CAP = 13: DST_FULL reports the extent. -/
theorem test_splitb4_full : seen 0x2000 1 (step (placed .splitb4 e0 0x1000 2 0x2000 13 4 0x1000 [0x44, 0x33])) =
    some (0x406#32, 14#32, 2#32, 0#32, [0]) := by decide

/-- T5's inverse on T7's planes. -/
theorem test_mergeb4 : seen 0x3000 8 (step (placed .mergeb4 e0 0x2000 2 0x3000 8 4 0x2000
    [0x44, 0xDD, 0xEE, 0xEE, 0x33, 0xCC, 0xEE, 0xEE, 0x22, 0xBB, 0xEE, 0xEE, 0x11, 0xAA])) =
    some (0x2#32, 8#32, 2#32, 0#32, [0x44, 0x33, 0x22, 0x11, 0xDD, 0xCC, 0xBB, 0xAA]) := by decide

/-- T8's inverse. -/
theorem test_splitb8 : seen 0x2000 16 (step (placed .splitb8 e0 0x1000 2 0x2000 16 2 0x1000
    [0x01, 0x02, 0x03, 0x04, 0x05, 0x06, 0x07, 0x08, 0x11, 0x12, 0x13, 0x14, 0x15, 0x16, 0x17, 0x18])) =
    some (0x2#32, 16#32, 2#32, 0#32,
      [0x01, 0x11, 0x02, 0x12, 0x03, 0x13, 0x04, 0x14, 0x05, 0x15, 0x06, 0x16, 0x07, 0x17, 0x08, 0x18]) := by decide

/-- T8. -/
theorem test_mergeb8 : seen 0x2000 16 (step (placed .mergeb8 e0 0x1000 2 0x2000 16 2 0x1000
    [0x01, 0x11, 0x02, 0x12, 0x03, 0x13, 0x04, 0x14, 0x05, 0x15, 0x06, 0x16, 0x07, 0x17, 0x08, 0x18])) =
    some (0x2#32, 16#32, 2#32, 0#32,
      [0x01, 0x02, 0x03, 0x04, 0x05, 0x06, 0x07, 0x08, 0x11, 0x12, 0x13, 0x14, 0x15, 0x16, 0x17, 0x18]) := by decide

/-! ### Single transactions -/

/-- Reset, with these transactions pending. -/
def pending (ops : List HostOp) : State := { State.reset with inputs := ops }

/-- A register after a step. -/
def regAfter (r : RegName) : Host.Outcome State Fault Refusal → Option Word
  | .next t => some (readReg t r)
  | .fault _ => none
  | .refused _ => none

/-- H5. -/
theorem test_hash_cfg_mask : regAfter .hashCfg (step (pending [.write 0x10 4 0xFFFFFFFF#32])) = some 0x1F1F1F1F#32 := by decide
/-- H8. -/
theorem test_id_read_only : regAfter .id (step (pending [.write 0x00 4 0#32])) = some 0x54524943#32 := by decide
/-- H4: an illegal word completes with ILLEGAL_CMD. -/
theorem test_illegal : regAfter .status (step (State.reset.withFetchWord 32 0x10)) = some 0x106#32 := by decide
/-- H3: a CMD write while BUSY sets OVERRUN. -/
theorem test_overrun : regAfter .status (step (let s := State.reset.withFetchWord 32 1
    { s with engine := match s.engine with
               | .busy job => .busy { job with wait := 1 }
               | .idle => .idle
             inputs := [.write 0x0C 4 5#32] })) = some 0x9#32 := by decide
/-- H6: CTRL = 3 resets, and IRQ_EN ends 0. -/
theorem test_soft_reset : regAfter .ctrl (step (pending [.write 0x04 4 3#32])) = some 0#32 := by decide
/-- R43 and log 6 leave no trace in a register: reset reads as R46 says. -/
theorem test_reset_hash_cfg : readReg State.reset .hashCfg = 0x14140A04#32 := by decide

/-! ### Witnesses: for every statement with hypotheses, a state and operands that meet them together -/

/-- A command in flight: its word and operands, the hazard record, the wait, and what is pending. -/
def flying (i : Instr) (src n dst cap pitch : Word) (touched : Bool := false) (outs : List Word := []) (wait : Nat := 0)
    (ops : List HostOp := []) : State :=
  { State.reset with
    cmd := encode i
    engine := .busy
      { snap := { cmd := encode i, hashCfg := State.reset.hashCfg, srcAddr := src, srcLen := n, dstAddr := dst, dstCap := cap,
                  planeStride := pitch }
        inputTouched := touched, outputTouched := outs, wait := wait }
    inputs := ops }

/-- The command is in flight on another platform. -/
def State.on (s : State) (p : Platform) : State := { s with platform := p }

/-- Memory holds these bytes at `a`. -/
def State.holding (s : State) (a : Nat) (bs : List Byte) : State := { s with memory := writeBytes s.memory a bs }

/-- No memory from 0x10000 on, a device at 0x8000, E_MAX = 20. -/
def absentHigh : Platform := { Platform.reference with absent := [⟨0x10000, 0xFFFF0000⟩] }
def withDevice : Platform := { Platform.reference with devices := [⟨0x8000, 0x100⟩] }
def smallTables : Platform := { Platform.reference with eMax := 20 }

/-! Decoding and the step. -/

theorem witness_step_wait_over : ∃ (s : State) (job : Job) (i : Instr), s.platform.wf = true ∧ s.engine = .busy job ∧ job.wait = 0 ∧
    s.inputs = [HostOp.rst] ∧ decodeWord job.snap.cmd = .command i :=
  ⟨flying .splitb8 0 0 0 0 0 (ops := [.rst]), _, .splitb8, rfl, rfl, rfl, rfl, by decide⟩
theorem witness_step_nothing_pending : ∃ (s : State) (job : Job) (i : Instr), s.platform.wf = true ∧ s.engine = .busy job ∧ job.wait = 3 ∧
    s.inputs = [] ∧ decodeWord job.snap.cmd = .command i :=
  ⟨flying .nop 0 0 0 0 0 (wait := 3), _, .nop, rfl, rfl, rfl, rfl, by decide⟩
theorem witness_step_placed : State.reset.platform.wf = true := by decide
/-- An illegal word of each kind; the second waits, with nothing pending. -/
theorem witness_illegal : ∃ (s : State) (job : Job), s.platform.wf = true ∧ InFlight s job ∧ job.wait = 0 ∧
    job.snap.cmd.toNat % 16 ≠ 15 ∧ job.snap.cmd.toNat / 16 ≠ 0 :=
  ⟨State.reset.withFetchWord 32 0x10, _, rfl, ⟨rfl, rfl, rfl⟩, rfl, by decide, by decide⟩
theorem witness_illegal_op : ∃ (s : State) (job : Job), s.platform.wf = true ∧ InFlight s job ∧ s.inputs = [] ∧
    job.snap.cmd.toNat % 16 = 15 :=
  ⟨State.reset.withFetchWord 32 0xF, _, rfl, ⟨rfl, rfl, rfl⟩, rfl, by decide⟩
theorem witness_idle : State.reset.engine = .idle := rfl

/-! Reset. -/

theorem witness_reset_pin : ∃ s : State, Turn s .rst [] := ⟨pending [.rst], ⟨rfl, rfl, rfl⟩⟩
theorem witness_reset_soft : ∃ s : State, Turn s (.write (s.platform.regBase + 0x04) 4 2#32) [] ∧ (2#32).getLsbD 1 = true :=
  ⟨pending [.write 0x04 4 2#32], ⟨rfl, rfl, rfl⟩, by decide⟩
/-- A reset while BUSY: the first and the last output byte, the input, and a byte outside. -/
theorem witness_abort : ∃ (s : State) (job : Job), Turn s .rst [] ∧ s.engine = .busy job ∧
    (0x2000 < addressCount ∧ job.regions.outputCovers 0x2000 = true ∧ job.regions.inputCovers 0x2000 = false) ∧
    (job.regions.outputCovers 0x203F = true ∧ job.regions.inputCovers 0x203F = false) ∧
    job.regions.inputCovers 0x1003 = true ∧ job.regions.outputCovers 0x2040 = false :=
  ⟨flying .pcomp32 0x1000 1 0x2000 64 0 (wait := 1) (ops := [.rst]), _, ⟨rfl, rfl, rfl⟩, rfl, by decide, by decide,
    by decide, by decide⟩
/-- A reset while a command is in flight whose regions map a device. -/
theorem witness_abort_device : ∃ (s : State) (job : Job), Turn s .rst [] ∧ s.engine = .busy job ∧
    job.regions.meetsDevice s.platform = true ∧ (0x80FF < addressCount ∧ job.regions.outputCovers 0x80FF = true ∧
    job.regions.inputCovers 0x80FF = false) :=
  ⟨State.on (flying .pcomp32 0x1000 1 0x80FF 64 0 (wait := 1) (ops := [.rst])) withDevice, _, ⟨rfl, rfl, rfl⟩, rfl,
    by decide, by decide⟩
/-- The input region wins where both cover a byte. -/
theorem witness_abort_both : ∃ (s : State) (job : Job),
    Turn s (.write (s.platform.regBase + 0x04) 4 2#32) [] ∧ (2#32).getLsbD 1 = true ∧ s.engine = .busy job ∧
    job.regions.inputCovers 0x1000 = true ∧ job.regions.outputCovers 0x1000 = true :=
  ⟨flying .pcomp32 0x1000 1 0x1000 64 0 (wait := 1) (ops := [.write 0x04 4 2#32]), _, ⟨rfl, rfl, rfl⟩, by decide, rfl,
    by decide, by decide⟩
/-- Power gating of an idle block, with and without retention, and of a busy one. -/
theorem witness_gate_idle (retained : Bool) : ∃ (s : State), Turn s (.powerGate retained) [] ∧ s.engine = .idle :=
  ⟨pending [.powerGate retained], ⟨(by decide : Platform.reference.wf = true), rfl, rfl⟩, rfl⟩
theorem witness_gate_busy (retained : Bool) : ∃ (s : State) (job : Job), Turn s (.powerGate retained) [] ∧ s.engine = .busy job :=
  ⟨flying .nop 0 0 0 0 0 (wait := 1) (ops := [.powerGate retained]), _,
    ⟨(by decide : Platform.reference.wf = true), rfl, rfl⟩, rfl⟩

/-! The register window. -/

theorem witness_exponents : Platform.reference.wf = true := by decide
theorem witness_read_first : ∃ (s : State), Turn s (.read (s.platform.regBase + RegName.id.offset) 4) [] :=
  ⟨pending [.read 0 4], rfl, rfl, rfl⟩
theorem witness_read_last : ∃ (s : State), Turn s (.read (s.platform.regBase + RegName.resCfg.offset) 4) [] :=
  ⟨pending [.read 0x30 4], rfl, rfl, rfl⟩
theorem witness_read_reserved_first : ∃ (s : State), Turn s (.read (s.platform.regBase + 0x34) 4) [] ∧ 0x34 < 256 :=
  ⟨pending [.read 0x34 4], ⟨rfl, rfl, rfl⟩, by decide⟩
theorem witness_read_reserved_last : ∃ (s : State), Turn s (.read (s.platform.regBase + 0xFC) 4) [] ∧ 0xFC % 4 = 0 :=
  ⟨pending [.read 0xFC 4], ⟨rfl, rfl, rfl⟩, by decide⟩
theorem witness_poll_met : ∃ (s : State), Turn s (.poll (s.platform.regBase + RegName.status.offset) 2#32 0#32) [] ∧
    readReg s .status &&& 2#32 = 0#32 := ⟨pending [.poll 0x08 2#32 0#32], ⟨rfl, rfl, rfl⟩, by decide⟩
theorem witness_poll_pending : ∃ (s : State), Turn s (.poll (s.platform.regBase + RegName.status.offset) 2#32 2#32) [] ∧
    readReg s .status &&& 2#32 ≠ 2#32 := ⟨pending [.poll 0x08 2#32 2#32], ⟨rfl, rfl, rfl⟩, by decide⟩
theorem witness_ctrl_enable : ∃ (s : State), Turn s (.write (s.platform.regBase + 0x04) 4 1#32) [] ∧ (1#32).getLsbD 1 = false :=
  ⟨pending [.write 0x04 4 1#32], ⟨rfl, rfl, rfl⟩, by decide⟩
theorem witness_ctrl_reset : ∃ (s : State) (t : State), Turn s (.write (s.platform.regBase + 0x04) 4 3#32) [] ∧ (3#32).getLsbD 1 = true ∧
    step s = .next t := ⟨pending [.write 0x04 4 3#32], _, ⟨rfl, rfl, rfl⟩, by decide, rfl⟩
theorem witness_status_write : ∃ (s : State), Turn s (.write (s.platform.regBase + 0x08) 4 0xE#32) [] :=
  ⟨pending [.write 0x08 4 0xE#32], rfl, rfl, rfl⟩
theorem witness_status_write_busy : ∃ (s : State), Turn s (.write (s.platform.regBase + 0x08) 4 2#32) [] ∧ s.Inv ∧ s.busy = true :=
  ⟨flying .nop 0 0 0 0 0 (wait := 1) (ops := [.write 0x08 4 2#32]), ⟨rfl, rfl, rfl⟩,
    ⟨⟨⟨List.Pairwise.nil, fun _ h => by cases h⟩, fun _ h => by cases h⟩, fun _ => by decide, by decide, by decide,
      fun job h => by cases h; rfl⟩, rfl⟩
theorem witness_cmd_idle : ∃ (s : State), Turn s (.write (s.platform.regBase + 0x0C) 4 5#32) [] ∧ s.engine = .idle :=
  ⟨pending [.write 0x0C 4 5#32], ⟨rfl, rfl, rfl⟩, rfl⟩
theorem witness_cmd_busy : ∃ (s : State) (job : Job), Turn s (.write (s.platform.regBase + 0x0C) 4 5#32) [] ∧ s.engine = .busy job :=
  ⟨flying .nop 0 0 0 0 0 (wait := 1) (ops := [.write 0x0C 4 5#32]), _, ⟨rfl, rfl, rfl⟩, rfl⟩
theorem witness_config_write (o : Nat) : ∃ (s : State), Turn s (.write (s.platform.regBase + o) 4 7#32) [] :=
  ⟨pending [.write (0 + o) 4 7#32], witness_exponents, rfl, rfl⟩
theorem witness_ignored_write : ∃ (s : State), Turn s (.write (s.platform.regBase + 0xFC) 4 7#32) [] ∧
    (0x34 ≤ 0xFC ∧ 0xFC ≤ 0xFC ∧ 0xFC % 4 = 0) := ⟨pending [.write 0xFC 4 7#32], ⟨rfl, rfl, rfl⟩, by decide⟩
theorem witness_undefined_read : ∃ (s : State), Turn s (.read (s.platform.regBase + 0xFF) 1) [] ∧ 0xFF < 256 :=
  ⟨pending [.read 0xFF 1], ⟨rfl, rfl, rfl⟩, by decide⟩
theorem witness_undefined_poll : ∃ (s : State), Turn s (.poll (s.platform.regBase + 0xFD) 2#32 2#32) [] ∧ 0xFD < 256 ∧ 0xFD % 4 ≠ 0 :=
  ⟨pending [.poll 0xFD 2#32 2#32], ⟨rfl, rfl, rfl⟩, by decide, by decide⟩
theorem witness_undefined_write : ∃ (s : State), Turn s (.write (s.platform.regBase + 2) 4 7#32) [] ∧ 2 % 4 ≠ 0 :=
  ⟨pending [.write 2 4 7#32], ⟨rfl, rfl, rfl⟩, by decide⟩
theorem witness_irq_ack : ∃ (s : State) (t : State), Turn s (.write (s.platform.regBase + 0x08) 4 2#32) [] ∧ (2#32).getLsbD 1 = true ∧
    step s = .next t := ⟨pending [.write 0x08 4 2#32], _, ⟨rfl, rfl, rfl⟩, by decide, rfl⟩
theorem witness_irq_accept : ∃ (s : State) (t : State), Turn s (.write (s.platform.regBase + 0x0C) 4 1#32) [] ∧ s.engine = .idle ∧ step s = .next t :=
  ⟨pending [.write 0x0C 4 1#32], _, ⟨rfl, rfl, rfl⟩, rfl, rfl⟩
theorem witness_irq_enable : ∃ (s : State) (t : State), Turn s (.write (s.platform.regBase + 0x04) 4 1#32) [] ∧ (1#32).getLsbD 1 = false ∧
    s.status.done = true ∧ step s = .next t :=
  ⟨{ pending [.write 0x04 4 1#32] with status := { State.reset.status with done := true } }, _, ⟨rfl, rfl, rfl⟩, by decide,
    rfl, rfl⟩

/-! Prechecks. -/

theorem not_passesEnd {r : Regions} (h : r.outOfRange = false) : ¬ r.passesEnd := by simp [← outOfRange_iff, h]
theorem not_collide {r : Regions} (h : r.overlapping = false) : ¬ r.collide := by simp [← overlapping_iff, h]
theorem not_missAddress {r : Regions} {p : Platform} (h : r.meetsAbsent p = false) : ¬ r.missAddress p := by
  simp [← meetsAbsent_iff, h]
theorem not_holdDevice {r : Regions} {p : Platform} (h : r.meetsDevice p = false) : ¬ r.holdDevice p := by
  simp [← meetsDevice_iff, h]

/-- The last plane one byte too high, and a merge's planes. -/
theorem witness_range : ∃ (s : State) (job : Job), InFlight s job ∧ (regionsOf (shapeOf .splitb2) job.snap).passesEnd :=
  ⟨flying .splitb2 0 1 0xFFFFFFFF 2 1, _, ⟨rfl, rfl, rfl⟩, (outOfRange_iff _).1 (by decide)⟩
theorem witness_range_merge : ∃ (s : State) (job : Job), InFlight s job ∧ (regionsOf (shapeOf .mergeb8) job.snap).passesEnd :=
  ⟨flying .mergeb8 0xFFFFFFFF 2 0 16 0, _, ⟨rfl, rfl, rfl⟩, (outOfRange_iff _).1 (by decide)⟩
/-- T10: the planes start 2 bytes apart. -/
theorem witness_overlap : ∃ (s : State) (job : Job), InFlight s job ∧ ¬ (regionsOf (shapeOf .splitb4) job.snap).passesEnd ∧
    (regionsOf (shapeOf .splitb4) job.snap).collide :=
  ⟨flying .splitb4 0x1000 4 0x2000 16 2, _, ⟨rfl, rfl, rfl⟩, not_passesEnd (by decide), (overlapping_iff _).1 (by decide)⟩
/-- T13. -/
theorem witness_overlap_merge : ∃ (s : State) (job : Job), InFlight s job ∧
    ¬ (regionsOf (shapeOf .merge3w32) job.snap).passesEnd ∧ (regionsOf (shapeOf .merge3w32) job.snap).collide :=
  ⟨flying .merge3w32 0x1000 1 0x1008 12 4, _, ⟨rfl, rfl, rfl⟩, not_passesEnd (by decide), (overlapping_iff _).1 (by decide)⟩
/-- T7 with CAP = 13, one byte less than X = 3·4 + 2·1. -/
theorem witness_full : ∃ (s : State) (job : Job), InFlight s job ∧ ¬ (regionsOf (shapeOf .splitb4) job.snap).passesEnd ∧
    ¬ (regionsOf (shapeOf .splitb4) job.snap).collide ∧ job.snap.dstCap.toNat < (4 - 1) * job.snap.planeStride.toNat + 2 * 1 :=
  ⟨flying .splitb4 0x1000 2 0x2000 13 4, _, ⟨rfl, rfl, rfl⟩, not_passesEnd (by decide), not_collide (by decide), by decide⟩
/-- CAP = 7 for X = 4·2·1. -/
theorem witness_full_merge : ∃ (s : State) (job : Job), InFlight s job ∧ ¬ (regionsOf (shapeOf .mergeb4) job.snap).passesEnd ∧
    ¬ (regionsOf (shapeOf .mergeb4) job.snap).collide ∧ job.snap.dstCap.toNat < 4 * 2 * 1 :=
  ⟨flying .mergeb4 0x2000 2 0x3000 7 4, _, ⟨rfl, rfl, rfl⟩, not_passesEnd (by decide), not_collide (by decide), by decide⟩
/-- T14. -/
theorem witness_bus : ∃ (s : State) (job : Job), InFlight s job ∧ ¬ (regionsOf (shapeOf .splitb2) job.snap).passesEnd ∧
    ¬ (regionsOf (shapeOf .splitb2) job.snap).collide ∧ (2 - 1) * job.snap.planeStride.toNat + 1 * 1 ≤ job.snap.dstCap.toNat ∧
    (regionsOf (shapeOf .splitb2) job.snap).missAddress s.platform :=
  ⟨State.on (flying .splitb2 0x1000 1 0xFFFF 2 1) absentHigh, _, ⟨rfl, rfl, rfl⟩, not_passesEnd (by decide),
    not_collide (by decide), by decide, (meetsAbsent_iff _ _).1 (by decide)⟩
theorem witness_bus_merge : ∃ (s : State) (job : Job), InFlight s job ∧ ¬ (regionsOf (shapeOf .mergeb2) job.snap).passesEnd ∧
    ¬ (regionsOf (shapeOf .mergeb2) job.snap).collide ∧ 2 * 1 * 1 ≤ job.snap.dstCap.toNat ∧
    (regionsOf (shapeOf .mergeb2) job.snap).missAddress s.platform :=
  ⟨State.on (flying .mergeb2 0x1000 1 0xFFFF 2 1) absentHigh, _, ⟨rfl, rfl, rfl⟩, not_passesEnd (by decide),
    not_collide (by decide), by decide, (meetsAbsent_iff _ _).1 (by decide)⟩
/-- X = CAP = 14, the last byte below the missing addresses. -/
theorem witness_checks_pass : ∃ (s : State) (job : Job), InFlight s job ∧ ¬ (regionsOf (shapeOf .splitb4) job.snap).passesEnd ∧
    ¬ (regionsOf (shapeOf .splitb4) job.snap).collide ∧ (4 - 1) * job.snap.planeStride.toNat + 2 * 1 ≤ job.snap.dstCap.toNat ∧
    ¬ (regionsOf (shapeOf .splitb4) job.snap).missAddress s.platform ∧
    ¬ (regionsOf (shapeOf .splitb4) job.snap).holdDevice s.platform :=
  ⟨State.on (flying .splitb4 0x1000 2 0xFFF2 14 4) absentHigh, _, ⟨rfl, rfl, rfl⟩, not_passesEnd (by decide),
    not_collide (by decide), by decide, not_missAddress (by decide), not_holdDevice (by decide)⟩
theorem witness_checks_pass_merge : ∃ (s : State) (job : Job), InFlight s job ∧
    ¬ (regionsOf (shapeOf .mergeb8) job.snap).passesEnd ∧ ¬ (regionsOf (shapeOf .mergeb8) job.snap).collide ∧
    8 * 2 * 1 ≤ job.snap.dstCap.toNat ∧ ¬ (regionsOf (shapeOf .mergeb8) job.snap).missAddress s.platform ∧
    ¬ (regionsOf (shapeOf .mergeb8) job.snap).holdDevice s.platform :=
  ⟨flying .mergeb8 0x1000 2 0xFFFFFFF0 16 2, _, ⟨rfl, rfl, rfl⟩, not_passesEnd (by decide), not_collide (by decide),
    by decide, not_missAddress (by decide), not_holdDevice (by decide)⟩
/-- X9. -/
theorem witness_predictor_range : ∃ (s : State) (job : Job), InFlight s job ∧ (regionsOf (shapeOf .pcomp32) job.snap).passesEnd :=
  ⟨flying .pcomp32 0xFFFFFFF0 5 0x2000 64 0, _, ⟨rfl, rfl, rfl⟩, (outOfRange_iff _).1 (by decide)⟩
/-- X10. -/
theorem witness_predictor_overlap : ∃ (s : State) (job : Job), InFlight s job ∧
    ¬ (regionsOf (shapeOf .pcomp32) job.snap).passesEnd ∧ (regionsOf (shapeOf .pcomp32) job.snap).collide :=
  ⟨flying .pcomp32 0x1000 4 0x100C 64 0, _, ⟨rfl, rfl, rfl⟩, not_passesEnd (by decide), (overlapping_iff _).1 (by decide)⟩
/-- X11: CAP runs into addresses that do not exist. -/
theorem witness_predictor_bus : ∃ (s : State) (job : Job), InFlight s job ∧
    ¬ (regionsOf (shapeOf .pcomp64) job.snap).passesEnd ∧ ¬ (regionsOf (shapeOf .pcomp64) job.snap).collide ∧
    (regionsOf (shapeOf .pcomp64) job.snap).missAddress s.platform :=
  ⟨State.on (flying .pcomp64 0x1000 1 0xFFC0 0x100 0) absentHigh, _, ⟨rfl, rfl, rfl⟩, not_passesEnd (by decide),
    not_collide (by decide), (meetsAbsent_iff _ _).1 (by decide)⟩
/-- The input ends where the output begins. -/
theorem witness_predictor_checks_pass : ∃ (s : State) (job : Job), InFlight s job ∧
    ¬ (regionsOf (shapeOf .pdecomp64) job.snap).passesEnd ∧ ¬ (regionsOf (shapeOf .pdecomp64) job.snap).collide ∧
    ¬ (regionsOf (shapeOf .pdecomp64) job.snap).missAddress s.platform ∧
    ¬ (regionsOf (shapeOf .pdecomp64) job.snap).holdDevice s.platform :=
  ⟨flying .pdecomp64 0x1000 0x1000 0x2000 64 0, _, ⟨rfl, rfl, rfl⟩, not_passesEnd (by decide), not_collide (by decide),
    not_missAddress (by decide), not_holdDevice (by decide)⟩
theorem witness_device : ∃ (s : State) (job : Job), s.engine = .busy job ∧ precheck (shapeOf .pcomp32) s.platform job.snap = none ∧
    (regionsOf (shapeOf .pcomp32) job.snap).holdDevice s.platform :=
  ⟨State.on (flying .pcomp32 0x80FF 1 0x2000 64 0) withDevice, _, rfl, by decide, (meetsDevice_iff _ _).1 (by decide)⟩
/-- A split that moves 2^31 bytes, the most there can be. -/
theorem witness_largest_split : precheck (shapeOf .splitb2) Platform.reference
    { cmd := 9#32, hashCfg := e0, srcAddr := 0#32, srcLen := 0x40000000#32, dstAddr := 0x80000000#32, dstCap := 0x80000000#32,
      planeStride := 0x40000000#32 } = none := by decide
/-- A merge of coinciding planes that moves more than 2^31 bytes. -/
theorem witness_large_merge : precheck (shapeOf .mergeb8) Platform.reference
    { cmd := 14#32, hashCfg := e0, srcAddr := 0#32, srcLen := 477218588#32, dstAddr := 477218588#32, dstCap := 3817748704#32,
      planeStride := 0#32 } = none := by decide

/-! The commands. -/

theorem witness_nop : ∃ (s : State) (job : Job), InFlight s job := ⟨flying .nop 0 0 0 0 0, _, ⟨rfl, rfl, rfl⟩⟩
theorem witness_split3w32 : ∃ (s : State) (job : Job), Runs s (.split 3 4) job ∧ 0 < job.snap.n :=
  ⟨flying .split3w32 0x1000 2 0x2000 24 8, _, ⟨⟨rfl, rfl, rfl⟩, by decide, by decide⟩, by decide⟩
theorem witness_split3w64 : ∃ (s : State) (job : Job), Runs s (.split 3 8) job ∧ 0 < job.snap.n :=
  ⟨flying .split3w64 0x1000 1 0x2000 24 8, _, ⟨⟨rfl, rfl, rfl⟩, by decide, by decide⟩, by decide⟩
theorem witness_merge3w32 : ∃ (s : State) (job : Job), Runs s (.merge 3 4) job ∧ 0 < job.snap.n :=
  ⟨flying .merge3w32 0x2000 2 0x3000 24 8, _, ⟨⟨rfl, rfl, rfl⟩, by decide, by decide⟩, by decide⟩
theorem witness_merge3w64 : ∃ (s : State) (job : Job), Runs s (.merge 3 8) job ∧ 0 < job.snap.n :=
  ⟨flying .merge3w64 0x2000 1 0x3000 24 8, _, ⟨⟨rfl, rfl, rfl⟩, by decide, by decide⟩, by decide⟩
theorem witness_splitb2 : ∃ (s : State) (job : Job), Runs s (.split 2 1) job ∧ 0 < job.snap.n :=
  ⟨flying .splitb2 0x1000 2 0x2000 4 2, _, ⟨⟨rfl, rfl, rfl⟩, by decide, by decide⟩, by decide⟩
theorem witness_splitb4 : ∃ (s : State) (job : Job), Runs s (.split 4 1) job ∧ 0 < job.snap.n :=
  ⟨flying .splitb4 0x1000 2 0x2000 14 4, _, ⟨⟨rfl, rfl, rfl⟩, by decide, by decide⟩, by decide⟩
theorem witness_splitb8 : ∃ (s : State) (job : Job), Runs s (.split 8 1) job ∧ 0 < job.snap.n :=
  ⟨flying .splitb8 0x1000 1 0x2000 8 1, _, ⟨⟨rfl, rfl, rfl⟩, by decide, by decide⟩, by decide⟩
theorem witness_mergeb2 : ∃ (s : State) (job : Job), Runs s (.merge 2 1) job ∧ 0 < job.snap.n :=
  ⟨flying .mergeb2 0x1000 1 0x2000 2 0, _, ⟨⟨rfl, rfl, rfl⟩, by decide, by decide⟩, by decide⟩
theorem witness_mergeb4 : ∃ (s : State) (job : Job), Runs s (.merge 4 1) job ∧ 0 < job.snap.n :=
  ⟨flying .mergeb4 0x2000 3 0x3000 12 3, _, ⟨⟨rfl, rfl, rfl⟩, by decide, by decide⟩, by decide⟩
theorem witness_mergeb8 : ∃ (s : State) (job : Job), Runs s (.merge 8 1) job ∧ 0 < job.snap.n :=
  ⟨flying .mergeb8 0x1000 2 0x2000 16 2, _, ⟨⟨rfl, rfl, rfl⟩, by decide, by decide⟩, by decide⟩
/-- T9: DST at the top of the address space, no room, planes 2^31 apart. -/
theorem witness_empty : ∃ (s : State) (job : Job), InFlight s job ∧ job.snap.srcLen = 0#32 ∧ job.snap.dst = 0xFFFFFFFF :=
  ⟨flying .split3w32 0 0 0xFFFFFFFF 0 0x80000000, _, ⟨rfl, rfl, rfl⟩, rfl, rfl⟩
/-- T1 then T2. -/
theorem witness_split_then_merge : ∃ (s : State) (job : Job) (t : State) (u : State) (job' : Job), Runs s (.split 3 4) job ∧ exec .split3w32 s = .next t ∧
    u.memory = t.memory ∧ Runs u (.merge 3 4) job' ∧ job'.snap.srcAddr = job.snap.dstAddr ∧
    job'.snap.srcLen = job.snap.srcLen ∧ job'.snap.planeStride = job.snap.planeStride :=
  ⟨flying .split3w32 0x1000 2 0x2000 24 8, _, _, { flying .merge3w32 0x2000 2 0x3000 24 8 with memory := _ }, _,
    ⟨⟨rfl, rfl, rfl⟩, by decide, by decide⟩, rfl, rfl, ⟨⟨rfl, rfl, rfl⟩, by decide, by decide⟩, rfl, rfl, rfl⟩
/-- T3, T4 and T7 and back. -/
theorem witness_split3w64_then_merge3w64 : ∃ (s : State) (job : Job) (t u : State) (job' : Job), Runs s (.split 3 8) job ∧
    exec .split3w64 s = .next t ∧ u.memory = t.memory ∧ Runs u (.merge 3 8) job' ∧ job'.snap.srcAddr = job.snap.dstAddr ∧
    job'.snap.srcLen = job.snap.srcLen ∧ job'.snap.planeStride = job.snap.planeStride :=
  ⟨flying .split3w64 0x1000 1 0x2000 24 8, _, _, { flying .merge3w64 0x2000 1 0x3000 24 8 with memory := _ }, _,
    ⟨⟨rfl, rfl, rfl⟩, by decide, by decide⟩, rfl, rfl, ⟨⟨rfl, rfl, rfl⟩, by decide, by decide⟩, rfl, rfl, rfl⟩
theorem witness_splitb2_then_mergeb2 : ∃ (s : State) (job : Job) (t u : State) (job' : Job), Runs s (.split 2 1) job ∧
    exec .splitb2 s = .next t ∧ u.memory = t.memory ∧ Runs u (.merge 2 1) job' ∧ job'.snap.srcAddr = job.snap.dstAddr ∧
    job'.snap.srcLen = job.snap.srcLen ∧ job'.snap.planeStride = job.snap.planeStride :=
  ⟨flying .splitb2 0x1000 2 0x2000 4 2, _, _, { flying .mergeb2 0x2000 2 0x3000 4 2 with memory := _ }, _,
    ⟨⟨rfl, rfl, rfl⟩, by decide, by decide⟩, rfl, rfl, ⟨⟨rfl, rfl, rfl⟩, by decide, by decide⟩, rfl, rfl, rfl⟩
theorem witness_splitb4_then_mergeb4 : ∃ (s : State) (job : Job) (t u : State) (job' : Job), Runs s (.split 4 1) job ∧
    exec .splitb4 s = .next t ∧ u.memory = t.memory ∧ Runs u (.merge 4 1) job' ∧ job'.snap.srcAddr = job.snap.dstAddr ∧
    job'.snap.srcLen = job.snap.srcLen ∧ job'.snap.planeStride = job.snap.planeStride :=
  ⟨flying .splitb4 0x1000 2 0x2000 14 4, _, _, { flying .mergeb4 0x2000 2 0x3000 8 4 with memory := _ }, _,
    ⟨⟨rfl, rfl, rfl⟩, by decide, by decide⟩, rfl, rfl, ⟨⟨rfl, rfl, rfl⟩, by decide, by decide⟩, rfl, rfl, rfl⟩
/-- T6 and back. -/
theorem witness_splitb8_then_mergeb8 : ∃ (s : State) (job : Job) (t : State) (u : State) (job' : Job), Runs s (.split 8 1) job ∧ exec .splitb8 s = .next t ∧
    u.memory = t.memory ∧ Runs u (.merge 8 1) job' ∧ job'.snap.srcAddr = job.snap.dstAddr ∧
    job'.snap.srcLen = job.snap.srcLen ∧ job'.snap.planeStride = job.snap.planeStride :=
  ⟨flying .splitb8 0x1000 1 0x2000 8 1, _, _, { flying .mergeb8 0x2000 1 0x3000 8 1 with memory := _ }, _,
    ⟨⟨rfl, rfl, rfl⟩, by decide, by decide⟩, rfl, rfl, ⟨⟨rfl, rfl, rfl⟩, by decide, by decide⟩, rfl, rfl, rfl⟩
/-- P1 with CAP = 19, just enough (X8b). -/
theorem witness_compress32 : ∃ (s : State) (job : Job), Runs s (.compress .w32) job ∧ (streamOf .w32 s job).length ≤ job.snap.cap :=
  ⟨State.holding (flying .pcomp32 0x1000 1 0x2000 19 0) 0x1000 [0xC3, 0xF5, 0x48, 0x40], _,
    ⟨⟨rfl, rfl, rfl⟩, by decide, by decide⟩, by decide⟩
/-- P6 with CAP = 15, just enough. -/
theorem witness_compress64 : ∃ (s : State) (job : Job), Runs s (.compress .w64) job ∧ (streamOf .w64 s job).length ≤ job.snap.cap :=
  ⟨State.holding (flying .pcomp64 0x1000 1 0x2000 15 0) 0x1000 [0xEF, 0xCD, 0xAB, 0x89, 0x67, 0x45, 0x23, 0x01], _,
    ⟨⟨rfl, rfl, rfl⟩, by decide, by decide⟩, by decide⟩
/-- X8: CAP = 18. -/
theorem witness_compress_full : ∃ (s : State) (job : Job), Runs s (.compress .w32) job ∧ job.snap.cap < (streamOf .w32 s job).length :=
  ⟨State.holding (flying .pcomp32 0x1000 1 0x2000 18 0) 0x1000 [0xC3, 0xF5, 0x48, 0x40], _,
    ⟨⟨rfl, rfl, rfl⟩, by decide, by decide⟩, by decide⟩
/-- X12: 4 bytes. -/
theorem witness_decompress_short : ∃ (s : State) (job : Job), Runs s (.decompress .w32) job ∧ job.snap.n < 5 :=
  ⟨flying .pdecomp32 0x1000 4 0x2000 0 0, _, ⟨⟨rfl, rfl, rfl⟩, by decide, by decide⟩, by decide⟩
/-- X6: E1 = 22 > E_MAX = 20, with 5 bytes. -/
theorem witness_decompress_unsupported : ∃ (s : State) (job : Job), Runs s (.decompress .w32) job ∧ 5 ≤ job.snap.n ∧
    ¬ ((headerOf s job).e1 ≤ s.platform.eMax ∧ (headerOf s job).e2 ≤ s.platform.eMax) :=
  ⟨State.on (State.holding (flying .pdecomp32 0x1000 5 0x2000 0 0) 0x1000 [0xB0, 0, 0, 0, 0]) smallTables, _,
    ⟨⟨rfl, rfl, rfl⟩, by decide, by decide⟩, by decide, by decide⟩
/-- X2: 7 bytes where 8 are the least. -/
theorem witness_decompress_corrupt : ∃ (s : State) (job : Job), Runs s (.decompress .w32) job ∧ 5 ≤ job.snap.n ∧
    ((headerOf s job).e1 ≤ s.platform.eMax ∧ (headerOf s job).e2 ≤ s.platform.eMax) ∧
    job.snap.n < 5 + ceilDiv (headerOf s job).count Width.w32.group * Width.w32.codeBytes :=
  ⟨State.holding (flying .pdecomp32 0x1000 7 0x2000 16 0) 0x1000 [0, 0, 0, 0, 4, 0x8E, 0xD2], _,
    ⟨⟨rfl, rfl, rfl⟩, by decide, by decide⟩, by decide, by decide, by decide⟩
/-- X7: CAP = 15 for 16 bytes. -/
theorem witness_decompress_full : ∃ (s : State) (job : Job), Runs s (.decompress .w32) job ∧ 5 ≤ job.snap.n ∧
    ((headerOf s job).e1 ≤ s.platform.eMax ∧ (headerOf s job).e2 ≤ s.platform.eMax) ∧
    5 + ceilDiv (headerOf s job).count Width.w32.group * Width.w32.codeBytes ≤ job.snap.n ∧
    job.snap.cap < (headerOf s job).count * Width.w32.bytes :=
  ⟨State.holding (flying .pdecomp32 0x1000 8 0x2000 15 0) 0x1000 [0, 0, 0, 0, 4, 0x8E, 0xD2, 0x49], _,
    ⟨⟨rfl, rfl, rfl⟩, by decide, by decide⟩, by decide, by decide, by decide, by decide⟩
/-- X4b: P3 without its padding, CAP = 16. -/
def p3Stream (n : Word) : State :=
  State.holding (flying .pdecomp32 0x1000 n 0x2000 16 0) 0x1000
    [0, 0, 0, 0, 4, 0x8E, 0xD2, 0x49, 0x40, 0, 0, 0, 0x10, 0, 0, 0, 0]
theorem witness_decompress32 : ∃ (s : State) (job : Job) (vs : List (BitVec 32)), Runs s (.decompress .w32) job ∧ LengthsFit .w32 s job ∧
    decodedOf .w32 s job = some (vs, 17) :=
  ⟨p3Stream 17, _, [0x40000000#32, 0x40100000#32, 0x40200000#32, 0x40300000#32], ⟨⟨rfl, rfl, rfl⟩, by decide, by decide⟩,
    ⟨by decide, by decide, by decide, by decide⟩, by decide⟩
/-- X14. -/
theorem witness_decompress64 : ∃ (s : State) (job : Job) (vs : List (BitVec 64)), Runs s (.decompress .w64) job ∧ LengthsFit .w64 s job ∧
    decodedOf .w64 s job = some (vs, 14) :=
  ⟨State.holding (flying .pdecomp64 0x1000 14 0x2000 8 0) 0x1000 [0xAA, 0, 0, 0, 1, 0x81, 1, 0x23, 0x45, 0x67, 0x89, 0xAB, 0xCD, 0xEF],
    _, [0x0123456789ABCDEF#64], ⟨⟨rfl, rfl, rfl⟩, by decide, by decide⟩, ⟨by decide, by decide, by decide, by decide⟩, by decide⟩
/-- X4: one byte less. -/
theorem witness_truncated : ∃ (s : State) (job : Job), Runs s (.decompress .w32) job ∧ LengthsFit .w32 s job ∧ decodedOf .w32 s job = none :=
  ⟨p3Stream 16, _, ⟨⟨rfl, rfl, rfl⟩, by decide, by decide⟩, ⟨by decide, by decide, by decide, by decide⟩, by decide⟩

/-! The predictor. -/

theorem witness_header : (30 % 2 = 0 ∧ 30 ≤ 30) ∧ (0 % 2 = 0 ∧ 0 ≤ 30) ∧ ([] : List (BitVec 32)).length < 2 ^ 32 := by decide
/-- One value, CAP = 40 = 5 + (3 + 8·4)·1. -/
theorem witness_size_bound : ∃ (s : State) (job : Job), Runs s (.compress .w32) job ∧
    5 + (Width.w32.codeBytes + Width.w32.group * Width.w32.bytes) * ceilDiv job.snap.n Width.w32.group ≤ job.snap.cap :=
  ⟨flying .pcomp32 0x1000 1 0x2000 40 0, _, ⟨⟨rfl, rfl, rfl⟩, by decide, by decide⟩, by decide⟩
/-- The bytes of 3.14 in memory, little-endian. -/
theorem witness_values : ∃ (s : State) (job : Job), Runs s (.compress .w32) job ∧ [0x4048F5C3#32].length = job.snap.n ∧
    ∀ x b (h : x < [0x4048F5C3#32].length), b < Width.w32.bytes →
      s.byte (job.snap.src + x * Width.w32.bytes + b) = BitVec.ofNat 8 ([0x4048F5C3#32][x].toNat / 2 ^ (8 * b)) := by
  refine ⟨State.holding (flying .pcomp32 0x1000 1 0x2000 64 0) 0x1000 [0xC3, 0xF5, 0x48, 0x40], _,
    ⟨⟨rfl, rfl, rfl⟩, by decide, by decide⟩, rfl, fun x b h hb => ?_⟩
  obtain rfl : x = 0 := by simpa using h
  exact (by decide : ∀ b < 4, readByte (writeBytes [] 0x1000 [0xC3, 0xF5, 0x48, 0x40]) (0x1000 + 0 * 4 + b) =
    BitVec.ofNat 8 ((0x4048F5C3#32).toNat / 2 ^ (8 * b))) b hb
/-- A group of the largest codes, and the hashes of R140. -/
theorem witness_slots : (List.replicate 8 (⟨7, [0, 0, 0]⟩ : Slot)).length = 8 ∧
    ∀ x ∈ List.replicate 8 (⟨7, [0, 0, 0]⟩ : Slot), x.code < 2 ^ 3 := by decide
theorem witness_reference_hash : Platform.reference.hash = .reference := rfl
/-- PR1: 3.14 and back. -/
theorem witness_round_trip : ∃ (s : State) (job : Job) (t : State) (u : State) (job' : Job), Runs s (.compress .w32) job ∧ exec (compressOf .w32) s = .next t ∧
    t.status.err = false ∧ u.memory = t.memory ∧ u.platform = t.platform ∧ Runs u (.decompress .w32) job' ∧
    job'.snap.srcAddr = job.snap.dstAddr ∧ job'.snap.srcLen = t.resLen ∧ job.snap.n * Width.w32.bytes ≤ job'.snap.cap :=
  ⟨State.holding (flying .pcomp32 0x1000 1 0x2000 64 0) 0x1000 [0xC3, 0xF5, 0x48, 0x40], _, _,
    { flying .pdecomp32 0x2000 19 0x3000 4 0 with memory := _ }, _, ⟨⟨rfl, rfl, rfl⟩, by decide, by decide⟩, rfl, by decide, rfl,
    rfl, ⟨⟨rfl, rfl, rfl⟩, by decide, by decide⟩, rfl, by decide, by decide⟩
/-- P15: a stream that is not canonical, with two bytes after its last field. -/
theorem witness_decode : decodeStream .w32 (referenceHash .w32) 0 0 2 [0x24, 0x92, 0x49, 0x00, 0xAB, 0xCD, 0xEF] =
    some ([0x00000000#32, 0x000000AB#32], 10) := by decide
/-- R145, R146 by hand: 3 values of 64 bits in two groups (code bytes 0x11 and 0x1F, the second slot of the last never read),
exponents 0: 0 ^ 1, 1 ^ 2, 3 ^ 5; with the last field missing, none. -/
theorem witness_group_loop : 0 < 3 ∧ Width.w64.codeBytes ≤ [0x11#8, 1, 2, 0x1F, 5].length ∧
    decodeStream .w64 (referenceHash .w64) 0 0 3 [0x11, 1, 2, 0x1F, 5] = some ([1#64, 3#64, 6#64], 10) ∧
    decodeStream .w64 (referenceHash .w64) 0 0 3 [0x11, 1, 2, 0x1F] = none := by decide
/-- No code byte where one is needed, and a field that is one byte short. -/
theorem witness_missing_bytes : (0 < 1 ∧ ([] : List Byte).length < 1) ∧
    (15 < 2 ^ 4 ∧ [0#8, 0, 0, 0, 0, 0].length < if 15 ≤ 8 then 15 else 15 - 8) := by decide
/-- The largest code, the code without a field, and a code that is not canonical. -/
theorem witness_codes : (15 < 2 ^ 4 ∧ [1#8, 2, 3, 4, 5, 6, 7].length = if 15 ≤ 8 then 15 else 15 - 8) ∧
    (0 < 2 ^ 3 ∧ ([] : List Byte).length = if 0 ≤ 4 then 0 else 0 - 4) ∧
    (4 < 2 ^ 3 ∧ [0#8, 0, 0, 0].length = if 4 ≤ 4 then 4 else 4 - 4) := by decide

/-! Hazards. -/

theorem witness_agent_write : ∃ (s : State) (job : Job), Turn s (.memWrite 0x1003 9) [] ∧ s.engine = .busy job ∧ s.platform.devices = [] ∧
    job.regions.inputCovers 0x1003 = true :=
  ⟨flying .pcomp32 0x1000 1 0x2000 64 0 (wait := 1) (ops := [.memWrite 0x1003 9]), _, ⟨rfl, rfl, rfl⟩, rfl, rfl, by decide⟩
theorem witness_agent_write_output : ∃ (s : State) (job : Job), Turn s (.memWrite 0x203F 9) [] ∧ s.engine = .busy job ∧
    s.platform.devices = [] ∧ job.regions.outputCovers 0x203F = true :=
  ⟨flying .pcomp32 0x1000 1 0x2000 64 0 (wait := 1) (ops := [.memWrite 0x203F 9]), _, ⟨rfl, rfl, rfl⟩, rfl, rfl, by decide⟩
theorem witness_agent_write_idle : ∃ (s : State), Turn s (.memWrite 0x1003 9) [] ∧ s.engine = .idle ∧ s.platform.devices = [] :=
  ⟨pending [.memWrite 0x1003 9], ⟨rfl, rfl, rfl⟩, rfl, rfl⟩
theorem witness_agent_write_device : ∃ (s : State), Turn s (.memWrite 0x80FF 9) [] ∧
    ∃ d ∈ s.platform.devices, d.holds (0x80FF#32).toNat :=
  ⟨State.on (pending [.memWrite 0x80FF 9]) withDevice, ⟨rfl, rfl, rfl⟩, ⟨0x8000, 0x100⟩, by decide, by unfold Region.holds; decide⟩
theorem witness_regions_of_word : ∃ (job : Job), decodeWord job.snap.cmd = .command .splitb2 :=
  ⟨⟨⟨9#32, e0, 0, 0, 0, 0, 0⟩, false, [], 0⟩, by decide⟩
theorem witness_regions_of_illegal : ∃ (job : Job), decodeWord job.snap.cmd = .illegal .reservedOp :=
  ⟨⟨⟨15#32, e0, 0, 0, 0, 0, 0⟩, false, [], 0⟩, by decide⟩
theorem witness_disturbed : ∃ (s : State) (job : Job) (t : State), s.engine = .busy job ∧ job.inputTouched = true ∧ job.outputTouched = [] ∧
    exec .pcomp32 s = .next t := ⟨flying .pcomp32 0x1000 1 0x2000 64 0 (touched := true), _, _, rfl, rfl, rfl, rfl⟩
theorem witness_agent_read : ∃ (s : State) (job : Job), Turn s (.memRead 0x2000) [] ∧ s.engine = .busy job ∧ s.platform.devices = [] ∧
    job.regions.outputCovers 0x2000 = true :=
  ⟨flying .pcomp32 0x1000 1 0x2000 64 0 (wait := 1) (ops := [.memRead 0x2000]), _, ⟨rfl, rfl, rfl⟩, rfl, rfl, by decide⟩
/-- The byte after the output region, and a byte while nothing runs. -/
theorem witness_agent_read_other : ∃ (s : State) (job : Job), Turn s (.memRead 0x2040) [] ∧ s.platform.devices = [] ∧
    s.engine = .busy job ∧ job.regions.outputCovers 0x2040 = false :=
  ⟨flying .pcomp32 0x1000 1 0x2000 64 0 (wait := 1) (ops := [.memRead 0x2040]), _, ⟨rfl, rfl, rfl⟩, rfl, rfl, by decide⟩
theorem witness_agent_read_idle : ∃ (s : State), Turn s (.memRead 0x2000) [] ∧ s.platform.devices = [] ∧ s.engine = .idle :=
  ⟨pending [.memRead 0x2000], ⟨rfl, rfl, rfl⟩, rfl, rfl⟩
theorem witness_output_touched : ∃ (s : State) (job : Job) (t : State), s.engine = .busy job ∧ job.inputTouched = false ∧ job.outputTouched = [0x2000#32] ∧
    exec .pcomp32 { s with engine := .busy { job with outputTouched := [] } } = .next t :=
  ⟨flying .pcomp32 0x1000 1 0x2000 64 0 (outs := [0x2000#32]), _, _, rfl, rfl, rfl, rfl⟩
theorem witness_snapshot : ∃ (s : State) (t : State), exec .splitb2 s = .next t := ⟨flying .splitb2 0x1000 2 0x2000 4 2, _, rfl⟩

/-! The whole machine. -/

theorem witness_frame : ∃ (s : State) (job : Job) (t : State), s.engine = .busy job ∧ exec .splitb4 s = .next t ∧ job.undisturbed ∧
    (regionsOf (shapeOf .splitb4) job.snap).outputCovers 0x2002 = false ∧
    (regionsOf (shapeOf .splitb4) job.snap).inputCovers 0x1007 = true ∧
    job.snap.dstAddr.toNat + job.snap.dstCap.toNat ≤ 0x200E ∧ 0x1FFF < job.snap.dstAddr.toNat :=
  ⟨flying .splitb4 0x1000 2 0x2000 14 4, _, _, rfl, rfl, ⟨rfl, rfl⟩, by decide, by decide, by decide, by decide⟩
/-- Another memory that holds the same input bytes. -/
theorem witness_same_inputs : ∃ (s : State) (job : Job) (t : State), InFlight s job ∧ exec .splitb2 s = .next t ∧
    ∀ a, (regionsOf (shapeOf .splitb2) job.snap).inputCovers a = true → readByte (writeByte s.memory 0x5000 1) a = s.byte a := by
  refine ⟨flying .splitb2 0x1000 2 0x2000 4 2, _, _, ⟨rfl, rfl, rfl⟩, rfl, fun a ha => readByte_writeByte_other _ ?_ _⟩
  rintro rfl
  revert ha
  decide
theorem witness_step : ∃ (s : State) (t : State), step s = .next t := ⟨flying .splitb2 0x1000 2 0x2000 4 2, _, rfl⟩
theorem witness_invariant : ∃ (s : State) (t : State), s.Inv ∧ s.busy = true ∧ step s = .next t :=
  ⟨flying .splitb2 0x1000 2 0x2000 4 2, _,
    ⟨⟨⟨List.Pairwise.nil, fun _ h => by cases h⟩, fun _ h => by cases h⟩, fun _ => by decide, by decide, by decide,
      fun job h => by cases h; rfl⟩, rfl, rfl⟩
theorem witness_overrun_cleared : ∃ (s : State) (t : State), step s = .next t ∧ s.status.overrun = true ∧ t.status.overrun = false :=
  ⟨{ pending [.write 0x08 4 8#32] with status := { State.reset.status with overrun := true } }, _, rfl, rfl, by decide⟩
theorem witness_completion : ∃ (s : State) (job : Job) (t : State), s.engine = .busy job ∧ step s = .next t ∧ t.engine = .idle :=
  ⟨flying .splitb2 0x1000 2 0x2000 4 2, _, _, rfl, rfl, rfl⟩
theorem witness_reset_ends_busy : ∃ (s : State) (job : Job) (t : State), s.engine = .busy job ∧ step s = .next t ∧ t.engine = .idle ∧ s.engineTurn = false :=
  ⟨flying .splitb2 0x1000 2 0x2000 4 2 (wait := 1) (ops := [.rst]), _, _, rfl, rfl, rfl, rfl⟩
theorem witness_engine_turn : ∃ (s : State), s.platform.wf = true ∧ s.platform.devices = [] ∧ s.engineTurn = true :=
  ⟨flying .splitb2 0x1000 2 0x2000 4 2, rfl, rfl, rfl⟩
theorem witness_refused : ∃ (s : State) (r : Refusal), s.platform.wf = true ∧ s.platform.devices = [] ∧ step s = .refused r :=
  ⟨pending [.read 256 4], .outsideWindow, rfl, rfl, rfl⟩
/-- The engine step and a transaction refused on a platform with a device. -/
theorem witness_refused_device : (∃ (s : State) (r : Refusal), s.platform.wf = true ∧ step s = .refused r ∧ s.engineTurn = true) ∧
    ∃ (s : State) (r : Refusal), s.platform.wf = true ∧ step s = .refused r ∧ s.engineTurn = false :=
  ⟨⟨State.on (flying .pcomp32 0x80FF 1 0x2000 64 0) withDevice, .deviceRegion, rfl, rfl, rfl⟩,
    ⟨State.on (pending [.memWrite 0x80FF 9]) withDevice, .deviceAccess, rfl, rfl, rfl⟩⟩
theorem witness_bad_platform : ∃ s : State, s.platform.eMax % 2 = 1 ∧ ∃ u : State, 30 < u.platform.eMax ∧ u.platform.eMax % 2 = 0 :=
  ⟨State.on State.reset { Platform.reference with eMax := 29 }, rfl, State.on State.reset { Platform.reference with eMax := 32 },
    by decide, rfl⟩

end Sys2Proof.Tests
end

section
/-! The platform: what `Platform.wf` asks in numbers, and that no operation changes the parameters (00_scope.md R6, R7). -/

namespace Sys2Proof.Machine

/-- R7 in numbers. -/
theorem platform_wf_iff (p : Platform) : p.wf = true ↔ p.eMax % 2 = 0 ∧ p.eMax ≤ 30 := by
  simp [Platform.wf]

/-- A platform that R7 rejects has no step. -/
theorem step_of_not_wf {s : State} (h : s.platform.wf = false) : step s = .refused .configurationRejected := by
  simp [step, stepAgents, h]

@[simp] theorem resetBlock_platform (s : State) : (resetBlock s).platform = s.platform := by
  rcases resetBlock_cases s with ⟨-, h⟩ | ⟨job, -, h⟩ <;> rw [h, resetTo_platform]

@[simp] theorem writeCmd_platform (x : Word) (s : State) : (writeCmd x s).platform = s.platform := by
  unfold writeCmd
  split
  · exact accept_platform x s
  · rfl

@[simp] theorem writeSlot_platform (x : Word) (s : State) (o : Nat) : (writeSlot x s o).platform = s.platform := by
  rcases writeSlot_cases x s o with ⟨-, -, h⟩ | ⟨ie, hc, sa, sl, da, dc, ps, h⟩ | ⟨-, h⟩ | ⟨-, h⟩ <;> rw [h]
  · exact resetBlock_platform _
  · exact writeCmd_platform x s

/-- A transaction keeps the platform. -/
theorem hostStep_platform {op : HostOp} {s t : State} (h : hostStep op s = .next t) : t.platform = s.platform := by
  rcases hostStep_cases h with
    ⟨rd, dr, inp, rfl⟩ | ⟨m, a, b, -, -, rfl⟩ | ⟨rfl, -⟩ | ⟨addr, size, x, o, -, -, rfl⟩
  · rfl
  · rfl
  · exact resetBlock_platform s
  · exact writeSlot_platform x s o

/-- A step keeps the platform. -/
theorem step_platform {s t : State} (h : step s = .next t) : t.platform = s.platform := by
  obtain ⟨-, ⟨job, hjob, -, hrun⟩ | ⟨-, -, rfl⟩ | ⟨op, rest, -, hop⟩⟩ := step_cases h
  · obtain ⟨sh, c, rfl⟩ := engine_completes hjob hrun
    exact complete_platform sh s job c
  · rfl
  · exact (hostStep_platform hop).trans (turned_platform s rest)

/-- Settles O60: `Platform.wf` fails at a bad E_MAX, and each kind of step keeps the platform. -/
theorem platformIsCheckedAndFixed : Obligations.PlatformIsCheckedAndFixed := by
  unfold Obligations.PlatformIsCheckedAndFixed
  refine ⟨fun s hbad => step_of_not_wf ?_, fun s t h => step_platform h⟩
  rw [Bool.eq_false_iff, Ne, platform_wf_iff]
  omega

end Sys2Proof.Machine
end

section
/-! All that a step can do to the engine, STATUS, CMD, the result registers and memory, said once: the effects that the
rules of the whole machine (10_state.md R26 to R30, R44, R46) are derived from. -/

namespace Sys2Proof.Machine

/-! ### Writes of CMD -/

/-- A CMD write while IDLE is acceptance (42_host_access.md R174). -/
theorem writeCmd_idle {s : State} (hidle : s.engine = .idle) (x : Word) : writeCmd x s = accept x s := by
  simp [writeCmd, hidle]

/-- A CMD write while BUSY sets OVERRUN (42_host_access.md R175). -/
theorem writeCmd_busy {s : State} {job : Job} (hbusy : s.engine = .busy job) (x : Word) :
    writeCmd x s = { s with status := s.status.overran } := by
  simp [writeCmd, hbusy]

/-! ### Resets -/

/-- The transactions that reset the block in every state: the reset input and a soft reset (42_host_access.md R179). -/
def HostOp.AsksReset (p : Platform) (op : HostOp) : Prop :=
  op = .rst ∨ ∃ x, op = .write (p.regBase + 0x04) 4 x ∧ x.getLsbD 1 = true

/-- The IRQ_EN that a soft reset's own word writes is lost in the reset (42_host_access.md R172). -/
theorem resetBlock_irqEn (s : State) (e : Bool) : resetBlock { s with irqEn := e } = resetBlock s := rfl

/-- A CTRL write with bit 1 is a reset. -/
theorem writeCtrl_reset {x : Word} (hx : x.getLsbD 1 = true) (s : State) : writeCtrl x s = resetBlock s := by
  rw [writeCtrl, if_pos hx, resetBlock_irqEn]

/-- A CTRL write without bit 1 sets IRQ_EN. -/
theorem writeCtrl_enable {x : Word} (hx : x.getLsbD 1 = false) (s : State) :
    writeCtrl x s = { s with irqEn := x.getLsbD 0 } := by
  rw [writeCtrl, if_neg (by simp only [hx, Bool.false_eq_true, not_false_eq_true])]

/-- A transaction that asks for a reset gets it, IDLE or BUSY. -/
theorem step_of_asksReset {s : State} {op : HostOp} {rest : List HostOp} (hturn : Turn s op rest)
    (hreset : op.AsksReset s.platform) : step s = .next (resetBlock (s.turned rest)) := by
  rcases hreset with rfl | ⟨x, rfl, hx⟩
  · exact step_of_turn hturn
  · rw [step_write_register (r := .ctrl) hturn]
    exact congrArg Host.Outcome.next (writeCtrl_reset hx _)

/-- Power-on leaves every register as R46 says. -/
theorem reset_registersReset : RegistersReset State.reset := by
  obtain ⟨hctrl, hstatus, hhash, hres⟩ := resetWords
  exact ⟨rfl, hctrl, hstatus, rfl, hhash, rfl, rfl, rfl, rfl, rfl, rfl, rfl, hres, rfl, rfl⟩

@[simp] theorem resetBlock_status (s : State) : (resetBlock s).status = State.reset.status := by
  rcases resetBlock_cases s with ⟨-, h⟩ | ⟨job, -, h⟩ <;> rw [h, resetTo_status]

/-- A reset clears DONE. -/
theorem resetBlock_done (s : State) : (resetBlock s).status.done = false := by rw [resetBlock_status]; rfl

/-- A reset keeps memory canonical, whatever it aborts. -/
theorem resetBlock_wf {s : State} (hwf : Memory.wf s.memory) : Memory.wf (resetBlock s).memory := by
  rcases resetBlock_cases s with ⟨-, h⟩ | ⟨job, -, h⟩ <;> rw [h, resetTo_memory]
  · exact hwf
  · exact freeRegions_wf hwf _ _ _

/-! ### Completions -/

/-- What the hazard rules leave of a completion keeps memory canonical (70_reset_and_hazards.md R224, R226). -/
theorem settled_wf {sh : Shape} {s : State} {job : Job} {c : Completion} (hs : Memory.wf s.memory)
    (hc : Memory.wf c.memory) : Memory.wf (settled sh s job c).memory := by
  refine freeTouched_wf ?_ _ _
  split
  · exact freeRegions_wf hs _ _ _
  · exact hc

/-- An engine step that answers is a completion (`engine_completes`), and one that keeps memory canonical. -/
theorem engine_completes_wf {s t : State} {job : Job} (hjob : s.engine = .busy job)
    (hrun : (∃ i, decodeWord job.snap.cmd = .command i ∧ exec i s = .next t) ∨
      (∃ why, decodeWord job.snap.cmd = .illegal why ∧ illegalCommand s = .next t)) :
    ∃ sh c, t = complete sh s job c ∧ (Memory.wf s.memory → Memory.wf c.memory) := by
  rcases hrun with ⟨i, -, hexec⟩ | ⟨why, -, hill⟩
  · obtain ⟨job', hjob', hcases⟩ := exec_cases hexec
    obtain rfl : job = job' := by simpa [hjob] using hjob'
    rcases hcases with ⟨e, -, rfl⟩ | ⟨hchecked, -, rfl⟩
    · exact ⟨_, _, rfl, fun hwf => by rwa [failedOf_memory]⟩
    · exact ⟨_, _, rfl, fun hwf => bodyOf_wf hwf hchecked⟩
  · obtain ⟨job', hjob', rfl⟩ := illegalCommand_cases hill
    obtain rfl : job = job' := by simpa [hjob] using hjob'
    exact ⟨_, _, rfl, id⟩

/-! ### The command in flight -/

/-- The snapshot of the command in flight, if there is one. -/
def Engine.snap? : Engine → Option Snapshot
  | .idle => none
  | .busy job => some job.snap

@[simp] theorem snap?_busy (job : Job) : (Engine.busy job).snap? = some job.snap := rfl
@[simp] theorem snap?_tick (g : Engine) : g.tick.snap? = g.snap? := by cases g <;> rfl
@[simp] theorem snap?_noteWrite (g : Engine) (a : Word) : (g.noteWrite a).snap? = g.snap? := by cases g <;> rfl

theorem snap?_eq_none (g : Engine) : g.snap? = none ↔ g = .idle := by cases g <;> simp [Engine.snap?]

theorem isBusy_eq_isSome (g : Engine) : g.isBusy = g.snap?.isSome := by cases g <;> rfl

/-! ### The effects of a step -/

/-- The command in flight and what the host reads of it stay as they are, and memory stays canonical. -/
structure CommandKept (s t : State) : Prop where
  snap : t.engine.snap? = s.engine.snap?
  status : t.status = s.status
  cmd : t.cmd = s.cmd
  resLen : t.resLen = s.resLen
  resCount : t.resCount = s.resCount
  resCfg : t.resCfg = s.resCfg
  memory : Memory.wf s.memory → Memory.wf t.memory

/-- The turn of a transaction keeps the command in flight. -/
theorem turned_commandKept (s : State) (rest : List HostOp) : CommandKept s (s.turned rest) :=
  ⟨snap?_tick s.engine, rfl, rfl, rfl, rfl, rfl, id⟩

/-- All that a step makes of `s`, by the part of the block it reaches: a completion, an abort or reset, a STATUS write, a
CMD write that is accepted or overruns, and all the rest, which keeps the command in flight. -/
inductive StepEffect (s : State) : State → Prop
  | completes (job : Job) (sh : Shape) (c : Completion) (hturn : s.engineTurn = true)
      (hwf : Memory.wf s.memory → Memory.wf c.memory) : StepEffect s (complete sh s job c)
  | kept {t : State} (hkept : CommandKept s t) : StepEffect s t
  | reset (op : HostOp) (rest : List HostOp) (hturn : Turn s op rest)
      (hreset : op.AsksReset s.platform ∨ (op = .powerGate false ∧ s.engine = .idle)) :
      StepEffect s (resetBlock (s.turned rest))
  | clear (x : Word) (rest : List HostOp) (hturn : Turn s (.write (s.platform.regBase + 0x08) 4 x) rest) :
      StepEffect s { s.turned rest with status := s.status.clear x }
  | accept (x : Word) (rest : List HostOp) : StepEffect s (accept x (s.turned rest))
  | overrun (rest : List HostOp) (job : Job) (hbusy : s.engine = .busy job) :
      StepEffect s { s.turned rest with status := s.status.overran }

/-- The CMD write of a transaction's turn. -/
theorem writeCmd_effect (x : Word) (s : State) (rest : List HostOp) : StepEffect s (writeCmd x (s.turned rest)) := by
  cases hengine : s.engine with
  | idle =>
    rw [writeCmd_idle (by rw [turned_engine, hengine, tick_idle])]
    exact .accept x rest
  | busy job =>
    rw [writeCmd_busy (by rw [turned_engine, hengine, tick_busy])]
    exact .overrun rest job hengine

/-- Every transaction that answers has one of the effects. -/
theorem hostStep_effect {s t : State} {op : HostOp} {rest : List HostOp} (hturn : Turn s op rest)
    (h : hostStep op (s.turned rest) = .next t) : StepEffect s t := by
  rcases hostStep_cases h with
    ⟨rd, dr, inp, rfl⟩ | ⟨m, a, b, -, rfl, rfl⟩ | ⟨rfl, hreset⟩ | ⟨addr, size, x, o, rfl, hslot, rfl⟩
  · exact .kept ⟨snap?_tick s.engine, rfl, rfl, rfl, rfl, rfl, id⟩
  · exact .kept ⟨by simp, rfl, rfl, rfl, rfl, rfl, fun hwf => writeByte_wf hwf a.isLt b⟩
  · refine .reset op rest hturn (hreset.imp .inl (And.imp_right fun hidle => ?_))
    rwa [turned_engine, ← snap?_eq_none, snap?_tick, snap?_eq_none] at hidle
  · obtain ⟨rfl, rfl⟩ := windowAccess_slot_eq hslot
    rcases writeSlot_cases x (s.turned rest) o with
      ⟨rfl, hx, hw⟩ | ⟨ie, hc, sa, sl, da, dc, ps, hw⟩ | ⟨rfl, hw⟩ | ⟨-, hw⟩ <;> rw [hw]
    · rw [resetBlock_irqEn]
      exact .reset _ rest hturn (.inl (.inr ⟨x, rfl, hx⟩))
    · exact .kept ⟨snap?_tick s.engine, rfl, rfl, rfl, rfl, rfl, id⟩
    · exact .clear x rest hturn
    · exact writeCmd_effect x s rest

/-- Every step that answers has one of the effects. -/
theorem step_effect {s t : State} (h : step s = .next t) : StepEffect s t := by
  obtain ⟨-, ⟨job, hjob, hturn, hrun⟩ | ⟨-, -, rfl⟩ | ⟨op, rest, hturn, hop⟩⟩ := step_cases h
  · obtain ⟨sh, c, rfl, hwf⟩ := engine_completes_wf hjob hrun
    exact .completes job sh c hturn hwf
  · exact .kept ⟨rfl, rfl, rfl, rfl, rfl, rfl, id⟩
  · exact hostStep_effect hturn hop

end Sys2Proof.Machine
end

section
/-! The invariant (10_state.md R26, R28, R30; 60_exceptions.md R190; 70_reset_and_hazards.md R228): it holds at reset, and
every effect of a step keeps it. -/

namespace Sys2Proof.Machine

/-- On an idle engine the invariant asks only for canonical memory, ERR and ERRCODE that agree, and a known code. -/
theorem inv_of_idle {t : State} (hidle : t.engine = .idle) (hmem : Memory.wf t.memory)
    (herr : t.status.err = true ↔ t.status.errcode ≠ 0#4) (hcode : t.status.errcode.toNat ≤ 8) : t.Inv where
  memoryCanonical := hmem
  busyIsClear := fun hb => by simp [State.busy, hidle] at hb
  errAgrees := herr
  errcodeKnown := hcode
  cmdInFlight := fun job hjob => by simp [hidle] at hjob

/-- After a reset the invariant asks only for canonical memory. -/
theorem inv_of_reset {t : State} (hidle : t.engine = .idle) (hmem : Memory.wf t.memory)
    (hstatus : t.status = State.reset.status) : t.Inv :=
  inv_of_idle hidle hmem (by rw [hstatus]; decide) (by rw [hstatus]; decide)

/-- A completion meets the invariant: its ERR and ERRCODE come from one error. -/
theorem complete_inv {sh : Shape} {s : State} {job : Job} {c : Completion} (hs : Memory.wf s.memory)
    (hc : Memory.wf c.memory) : (complete sh s job c).Inv := by
  refine inv_of_idle rfl (settled_wf hs hc) ?_ (errcodeOf_toNat_le _)
  rw [complete_status, completed_err, completed_errcode, Ne, errcodeOf_eq_zero]
  exact Option.isSome_iff_ne_none

/-- An acceptance meets the invariant: it clears what must be clear while BUSY, and latches the word that CMD shows. -/
theorem accept_inv {s : State} (hwf : Memory.wf s.memory) (x : Word) : (accept x s).Inv where
  memoryCanonical := hwf
  busyIsClear := fun _ => ⟨rfl, rfl, rfl, rfl, rfl, rfl⟩
  errAgrees := by simp
  errcodeKnown := by simp
  cmdInFlight := fun job hjob => by cases hjob; rfl

/-- The invariant speaks of the command in flight and what the host reads of it alone. -/
theorem CommandKept.inv {s t : State} (hkept : CommandKept s t) (h : s.Inv) : t.Inv := by
  obtain ⟨hsnap, hstatus, hcmd, hlen, hcount, hcfg, hmem⟩ := hkept
  refine ⟨hmem h.memoryCanonical, ?_, ?_, ?_, fun job hjob => ?_⟩
  · rw [State.busy, isBusy_eq_isSome, hsnap, ← isBusy_eq_isSome, hstatus, hlen, hcount, hcfg]
    exact h.busyIsClear
  · rw [hstatus]
    exact h.errAgrees
  · rw [hstatus]
    exact h.errcodeKnown
  · rw [hjob, snap?_busy] at hsnap
    cases hs : s.engine with
    | idle => simp [hs, Engine.snap?] at hsnap
    | busy job' =>
      rw [hs, snap?_busy, Option.some.injEq] at hsnap
      rw [hsnap, hcmd]
      exact h.cmdInFlight job' hs

/-- A change of STATUS that does not set DONE, and leaves ERR and ERRCODE or clears both, keeps the invariant. -/
theorem inv_withStatus {s : State} (h : s.Inv) {st : Status} (hdone : s.status.done = false → st.done = false)
    (herr : (st.err = s.status.err ∧ st.errcode = s.status.errcode) ∨ (st.err = false ∧ st.errcode = 0#4)) :
    State.Inv { s with status := st } := by
  obtain ⟨hmem, hbusy, hagree, hcode, hcmd⟩ := h
  refine ⟨hmem, fun hb => ?_, ?_, ?_, hcmd⟩
  · obtain ⟨hd, he, hc, hres⟩ := hbusy hb
    refine ⟨hdone hd, ?_⟩
    rcases herr with ⟨h1, h2⟩ | ⟨h1, h2⟩
    · exact ⟨h1.trans he, h2.trans hc, hres⟩
    · exact ⟨h1, h2, hres⟩
  · rcases herr with ⟨h1, h2⟩ | ⟨h1, h2⟩ <;> simp only [h1, h2]
    · exact hagree
    · decide
  · rcases herr with ⟨-, h2⟩ | ⟨-, h2⟩ <;> simp only [h2]
    · exact hcode
    · decide

/-- A STATUS write clears ERR and ERRCODE together and sets nothing (42_host_access.md R173). -/
theorem inv_clear {s : State} (h : s.Inv) (x : Word) : State.Inv { s with status := s.status.clear x } := by
  refine inv_withStatus h (fun hd => by simp [hd]) ?_
  cases hx : x.getLsbD 2
  · exact .inl ⟨by rw [clear_err, hx]; rfl, by rw [clear_errcode, hx]; rfl⟩
  · exact .inr ⟨by rw [clear_err, hx]; rfl, by rw [clear_errcode, hx]; rfl⟩

/-- Settles O53: each effect of a step keeps the invariant. -/
theorem everyStepKeepsTheInvariant : Obligations.EveryStepKeepsTheInvariant := by
  unfold Obligations.EveryStepKeepsTheInvariant
  intro s t hinv hstep
  have hturned : ∀ rest, (s.turned rest).Inv := fun rest => (turned_commandKept s rest).inv hinv
  cases step_effect hstep with
  | completes job sh c hturn hwf => exact complete_inv hinv.memoryCanonical (hwf hinv.memoryCanonical)
  | kept hkept => exact hkept.inv hinv
  | reset op rest hturn hreset =>
    exact inv_of_reset (resetBlock_registersReset _).idle (resetBlock_wf hinv.memoryCanonical) (resetBlock_status _)
  | clear x rest hturn => exact inv_clear (hturned rest) x
  | accept x rest => exact accept_inv (hturned rest).memoryCanonical x
  | overrun rest job hbusy => exact inv_withStatus (hturned rest) id (.inl ⟨rfl, rfl⟩)

/-- Settles O54: the reset state is idle, its memory empty, its STATUS clear. -/
theorem resetMeetsTheInvariant : Obligations.ResetMeetsTheInvariant := by
  unfold Obligations.ResetMeetsTheInvariant
  exact inv_of_reset rfl ⟨⟨List.Pairwise.nil, List.forall_mem_nil _⟩, List.forall_mem_nil _⟩ rfl

end Sys2Proof.Machine
end

section
/-! Reset (10_state.md R46), the interrupt line (R44, 60_exceptions.md R204), OVERRUN (R29) and the end of BUSY (R26). -/

namespace Sys2Proof.Machine

/-- Settles O6: both resets are one, `resetBlock`, which the machine takes in every state. -/
theorem resetGivesEveryRegisterItsValue : Obligations.ResetGivesEveryRegisterItsValue := by
  unfold Obligations.ResetGivesEveryRegisterItsValue
  refine ⟨reset_registersReset, fun s rest hturn => ?_, fun s rest x hturn hx => ?_⟩
  · exact ⟨_, step_of_asksReset hturn (.inl rfl), resetBlock_registersReset _⟩
  · exact ⟨_, step_of_asksReset hturn (.inr ⟨x, rfl, hx⟩), resetBlock_registersReset _⟩

/-- The line is high exactly when IRQ_EN and DONE are (10_state.md R44). -/
theorem irq_iff (s : State) : s.irq = true ↔ s.irqEn = true ∧ s.status.done = true := by
  rw [State.irq, Bool.and_eq_true]

/-- Without DONE the line is low. -/
theorem irq_of_not_done {s : State} (h : s.status.done = false) : s.irq = false := by
  rw [State.irq, h, Bool.and_false]

/-- Settles O16: each of the transactions named is one update, and the line is read off IRQ_EN and DONE after it. -/
theorem interruptLineFollowsEnableAndDone : Obligations.InterruptLineFollowsEnableAndDone := by
  unfold Obligations.InterruptLineFollowsEnableAndDone
  have hlow : ∀ t : State, t.status.done = false → t.status.done = false ∧ t.irq = false :=
    fun t hd => ⟨hd, irq_of_not_done hd⟩
  refine ⟨irq_iff, fun s rest x t hturn hx hstep => ?_, fun s rest x t hturn hidle hstep => ?_,
    fun s op rest t hturn hreset hstep => ?_, fun s rest x t hturn hx hdone hstep => ?_⟩
  · rw [step_write_register (r := .status) hturn] at hstep
    cases hstep
    exact hlow _ (by simp only [writeReg, clear_done, hx, if_true])
  · rw [step_write_register (r := .cmd) hturn] at hstep
    cases hstep
    refine hlow _ ?_
    rw [writeReg, writeCmd_idle (by rw [turned_engine, hidle, tick_idle])]
    rfl
  · rw [step_of_asksReset hturn hreset] at hstep
    cases hstep
    exact hlow _ (resetBlock_done _)
  · rw [step_write_register (r := .ctrl) hturn, writeReg, writeCtrl_enable hx] at hstep
    cases hstep
    exact ⟨hdone, by simp only [State.irq, turned_status, hdone, Bool.and_true]⟩

/-- Settles O55: of the effects of a step only a reset and a STATUS write can lower OVERRUN. -/
theorem overrunIsSticky : Obligations.OverrunIsSticky := by
  unfold Obligations.OverrunIsSticky
  intro s t hstep hset hfallen
  cases step_effect hstep with
  | completes job sh c hturn hwf =>
    rw [complete_status, completed_overrun, hset] at hfallen
    cases hfallen
  | kept hkept =>
    rw [hkept.status, hset] at hfallen
    cases hfallen
  | reset op rest hturn hreset =>
    refine ⟨op, rest, hturn.oldest, ?_⟩
    rcases hreset with (hrst | hsoft) | ⟨hgate, -⟩
    · exact .inl hrst
    · exact .inr (.inr (.inr hsoft))
    · exact .inr (.inl hgate)
  | clear x rest hturn =>
    refine ⟨_, rest, hturn.oldest, .inr (.inr (.inl ⟨x, rfl, ?_⟩))⟩
    simpa [hset] using hfallen
  | accept x rest =>
    rw [accept_status, accepted_overrun, turned_status, hset] at hfallen
    cases hfallen
  | overrun rest job hbusy => cases hfallen

/-- Settles O56: of the effects of a step only a completion and a reset leave a busy engine idle. -/
theorem onlyCompletionOrResetEndsBusy : Obligations.OnlyCompletionOrResetEndsBusy := by
  unfold Obligations.OnlyCompletionOrResetEndsBusy
  intro s t job hbusy hstep hidle
  have hsnap : t.engine.snap? ≠ s.engine.snap? := by simp [hidle, hbusy, Engine.snap?]
  cases step_effect hstep with
  | completes job sh c hturn hwf => exact .inl ⟨hturn, rfl⟩
  | kept hkept => exact absurd hkept.snap hsnap
  | reset op rest hturn hreset =>
    rcases hreset with hreset | ⟨-, hidle'⟩
    · exact .inr ⟨resetBlock_registersReset _, resetBlock_done _, op, rest, hturn, hreset⟩
    · rw [hbusy] at hidle'
      cases hidle'
  | clear x rest hturn => exact absurd (snap?_tick s.engine) hsnap
  | accept x rest => cases hidle
  | overrun rest job' hbusy' => exact absurd (snap?_tick s.engine) hsnap

end Sys2Proof.Machine
end

section
/-! The internal state (10_state.md R43, 93 I16): the operations that draw it anew do not read it, and the others carry it
along. -/

namespace Sys2Proof.Machine

/-- The state with another internal state. -/
def State.withInternal (s : State) (z : Internal) : State := { s with internal := z }

@[simp] theorem withInternal_platform (s : State) (z : Internal) : (s.withInternal z).platform = s.platform := rfl
@[simp] theorem withInternal_engine (s : State) (z : Internal) : (s.withInternal z).engine = s.engine := rfl

/-- An outcome whose next state has another internal state. -/
def carried (z : Internal) : Host.Outcome State Fault Refusal → Host.Outcome State Fault Refusal
  | .next t => .next (t.withInternal z)
  | .fault f => .fault f
  | .refused r => .refused r

/-! ### Operations that draw it anew -/

theorem resetBlock_withInternal (s : State) (z : Internal) : resetBlock (s.withInternal z) = resetBlock s := rfl

/-- A command starts from the zero PredictionState and cursor (41_predictor.md R130): no meaning reads the ones in State. -/
theorem exec_withInternal (i : Instr) (s : State) (z : Internal) : exec i (s.withInternal z) = exec i s := by
  cases i <;> rfl

theorem illegalCommand_withInternal (s : State) (z : Internal) : illegalCommand (s.withInternal z) = illegalCommand s := rfl

/-- The engine step of a busy engine is the same from every internal state. -/
theorem engineStep_withInternal {s : State} {job : Job} (hbusy : s.engine = .busy job) (z : Internal) :
    engineStep (s.withInternal z) = engineStep s := by
  simp only [engineStep, withInternal_engine, hbusy, exec_withInternal, illegalCommand_withInternal]

/-! ### Operations that carry it along -/

theorem hostRead_withInternal (addr size : Nat) (s : State) (z : Internal) :
    hostRead addr size (s.withInternal z) = carried z (hostRead addr size s) := by
  simp only [hostRead, withInternal_platform]
  split <;> rfl

theorem hostPoll_withInternal (addr : Nat) (mask value : Word) (s : State) (z : Internal) :
    hostPoll addr mask value (s.withInternal z) = carried z (hostPoll addr mask value s) := by
  simp only [hostPoll, withInternal_platform]
  split
  · rw [apply_ite (carried z)]
    rfl
  · rfl

theorem agentRead_withInternal (a : Word) (s : State) (z : Internal) :
    agentRead a (s.withInternal z) = carried z (agentRead a s) := by
  rw [agentRead, agentRead, apply_ite (carried z), apply_ite (carried z)]
  rfl

theorem agentWrite_withInternal (a : Word) (b : Byte) (s : State) (z : Internal) :
    agentWrite a b (s.withInternal z) = carried z (agentWrite a b s) := by
  rw [agentWrite, agentWrite, apply_ite (carried z)]
  rfl

/-- A CMD write carries the internal state along. -/
theorem writeCmd_withInternal (x : Word) (s : State) (z : Internal) :
    writeCmd x (s.withInternal z) = (writeCmd x s).withInternal z := by
  cases hengine : s.engine with
  | idle => rw [writeCmd_idle hengine, writeCmd_idle (s := s.withInternal z) hengine]; rfl
  | busy job => rw [writeCmd_busy hengine, writeCmd_busy (s := s.withInternal z) hengine]; rfl

/-- A register write carries the internal state along, or is a soft reset. -/
theorem writeReg_withInternal (x : Word) (s : State) (r : RegName) (z : Internal) :
    ∃ y, writeReg x (s.withInternal z) r = (writeReg x s r).withInternal y := by
  cases r
  case ctrl =>
    cases hx : x.getLsbD 1 with
    | true =>
      refine ⟨(resetBlock s).internal, ?_⟩
      rw [writeReg, writeReg, writeCtrl_reset hx, writeCtrl_reset hx]
      rfl
    | false =>
      refine ⟨z, ?_⟩
      rw [writeReg, writeReg, writeCtrl_enable hx, writeCtrl_enable hx]
      rfl
  case cmd => exact ⟨z, writeCmd_withInternal x s z⟩
  all_goals exact ⟨z, rfl⟩

/-- A write of a window slot does so too. -/
theorem writeSlot_withInternal (x : Word) (s : State) (o : Nat) (z : Internal) :
    ∃ y, writeSlot x (s.withInternal z) o = (writeSlot x s o).withInternal y := by
  unfold writeSlot
  cases regAt o with
  | none => exact ⟨z, rfl⟩
  | some r => exact writeReg_withInternal x s r z

/-! ### The step -/

/-- A transaction that answers does so from every internal state, and makes the same of all the rest. -/
theorem hostStep_withInternal {op : HostOp} {s t : State} (h : hostStep op s = .next t) (z : Internal) :
    ∃ y, hostStep op (s.withInternal z) = .next (t.withInternal y) := by
  cases op with
  | read addr size => exact ⟨z, (hostRead_withInternal addr size s z).trans (congrArg (carried z) h)⟩
  | poll addr mask value => exact ⟨z, (hostPoll_withInternal addr mask value s z).trans (congrArg (carried z) h)⟩
  | memRead a => exact ⟨z, (agentRead_withInternal a s z).trans (congrArg (carried z) h)⟩
  | memWrite a b => exact ⟨z, (agentWrite_withInternal a b s z).trans (congrArg (carried z) h)⟩
  | rst =>
    cases h
    exact ⟨(resetBlock s).internal, rfl⟩
  | powerGate retained =>
    simp only [hostStep, powerCycle, withInternal_engine] at h ⊢
    split at h <;> cases h
    cases retained
    · exact ⟨(resetBlock s).internal, rfl⟩
    · exact ⟨z, rfl⟩
  | write addr size x =>
    obtain ⟨o, hslot, rfl⟩ := hostStep_write_cases h
    obtain ⟨y, hy⟩ := writeSlot_withInternal x s o z
    exact ⟨y, by rw [hostStep, hostWrite, withInternal_platform, hslot, ← hy]⟩

/-- With nothing in flight and nothing pending a step changes nothing. -/
theorem step_nothing {s : State} (hwf : s.platform.wf = true) (hturn : s.engineTurn = false) (hnone : s.inputs = []) :
    step s = .next s := by
  simp [step, stepAgents, hwf, hturn, hostTurn, hnone]

/-- Settles O52: an engine step and a reset answer the same state, and every other step carries the internal state along. -/
theorem internalStateIsNeverObserved : Obligations.InternalStateIsNeverObserved := by
  unfold Obligations.InternalStateIsNeverObserved
  intro s t z hstep
  obtain ⟨hwf, ⟨job, hbusy, hturn, -⟩ | ⟨hturn, hnone, rfl⟩ | ⟨op, rest, hturn, hop⟩⟩ := step_cases hstep
  · rw [step_of_engineTurn hwf hturn, ← engineStep_withInternal hbusy z] at hstep
    exact ⟨t.internal, (step_of_engineTurn (s := s.withInternal z) hwf hturn).trans hstep⟩
  · exact ⟨z, step_nothing hwf hturn hnone⟩
  · obtain ⟨y, hy⟩ := hostStep_withInternal hop z
    have hturn' : Turn (s.withInternal z) op rest := ⟨hturn.platformWf, hturn.notEngine, hturn.oldest⟩
    exact ⟨y, (step_of_turn hturn').trans hy⟩

end Sys2Proof.Machine
end

section
/-! Regions by their addresses (20_memory.md R51, R57 to R59): coverage, validity, overlap, the BUS_ERROR check and the
device rule. -/

namespace Sys2Proof.Machine

/-- A region is valid exactly when every address it covers exists (20_memory.md R58). -/
theorem region_valid_iff (r : Region) : r.valid = true ↔ ∀ a, r.covers a = true → a < addressCount := by
  simp only [Region.valid, Bool.or_eq_true, decide_eq_true_eq, covers_iff, Region.holds]
  constructor
  · intro h a ha
    omega
  · intro h
    by_cases hempty : r.len = 0
    · exact .inl hempty
    · have hlast := h (r.start + r.len - 1) (by omega)
      omega

/-- An input byte is one that an input region holds. -/
theorem inputCovers_iff (r : Regions) (a : Nat) : r.inputCovers a = true ↔ ∃ q ∈ r.inputs, q.holds a := by
  simp only [Regions.inputCovers, List.any_eq_true, covers_iff]

/-- An output byte is one that an output region holds. -/
theorem outputCovers_iff (r : Regions) (a : Nat) : r.outputCovers a = true ↔ ∃ q ∈ r.outputs, q.holds a := by
  simp only [Regions.outputCovers, List.any_eq_true, covers_iff]

/-- A byte of the declared regions is an input byte or an output byte. -/
theorem declared_iff (r : Regions) (a : Nat) :
    (∃ q ∈ r.inputs ++ r.outputs, q.holds a) ↔ r.inputCovers a = true ∨ r.outputCovers a = true := by
  simp only [inputCovers_iff, outputCovers_iff, List.mem_append, or_and_right, exists_or]

/-- mem_ok is false exactly at the missing addresses (20_memory.md R51). -/
theorem memOk_eq_false_iff (p : Platform) (a : Nat) : memOk p a = false ↔ ∃ hole ∈ p.absent, hole.holds a := by
  simp only [memOk, Bool.not_eq_false', List.any_eq_true, covers_iff]

/-- Settles O17: overlap is sharing an address (`overlaps_iff`), and a region that is not empty is valid when its last
address exists. -/
theorem regionsOverlapExactlyWhenTheyShareAnAddress : Obligations.RegionsOverlapExactlyWhenTheyShareAnAddress := by
  unfold Obligations.RegionsOverlapExactlyWhenTheyShareAnAddress
  refine ⟨covers_iff, region_valid_iff, fun r q => ?_, fun r a => ⟨inputCovers_iff r a, outputCovers_iff r a⟩⟩
  simp only [covers_iff]
  exact overlaps_iff r q

/-- Settles O18: the check asks for a declared region and a hole that share an address, which is a declared byte where
mem_ok is false. -/
theorem busCheckFindsExactlyTheMissingAddresses : Obligations.BusCheckFindsExactlyTheMissingAddresses := by
  unfold Obligations.BusCheckFindsExactlyTheMissingAddresses
  refine ⟨memOk_eq_false_iff, fun r p => ?_⟩
  simp only [meetsAbsent_iff, memOk_eq_false_iff, ← declared_iff]
  constructor
  · rintro ⟨q, hq, hole, hhole, a, hqa, hholea⟩
    exact ⟨a, ⟨q, hq, hqa⟩, hole, hhole, hholea⟩
  · rintro ⟨a, ⟨q, hq, hqa⟩, hole, hhole, hholea⟩
    exact ⟨q, hq, hole, hhole, a, hqa, hholea⟩

/-- Settles O21: every command is one run of the shared operation, which refuses a device once the checks passed. -/
theorem deviceRegionIsRefused : Obligations.DeviceRegionIsRefused := by
  unfold Obligations.DeviceRegionIsRefused
  intro i s job hbusy hchecked hdevice
  rw [exec_eq]
  exact runCommand_device hbusy hchecked ((meetsDevice_iff _ _).2 hdevice)

end Sys2Proof.Machine
end

section
/-! Window accesses that the spec gives no meaning (20_memory.md R67). -/

namespace Sys2Proof.Machine

/-- An access inside the window that is not an aligned 32-bit one is refused (93_implementation_defined.md I7). -/
theorem windowAccess_undefined (p : Platform) {o size : Nat} (ho : o < 256) (h : size ≠ 4 ∨ o % 4 ≠ 0) :
    windowAccess p (p.regBase + o) size = .refused .windowAccessUndefined := by
  rw [windowAccess, if_neg (by omega), if_neg]
  rw [Nat.add_sub_cancel_left]
  omega

/-- Settles O15: a read, a POLL and a write each decode their access first. -/
theorem undefinedWindowAccessIsRefused : Obligations.UndefinedWindowAccessIsRefused := by
  unfold Obligations.UndefinedWindowAccessIsRefused
  intro s rest o size ho hundefined
  have haccess := windowAccess_undefined s.platform ho hundefined
  refine ⟨fun hturn => ?_, fun mask value hsize hturn => ?_, fun x hturn => ?_⟩ <;> rw [step_of_turn hturn]
  · rw [hostStep, hostRead, turned_platform, haccess]
  · rw [hostStep, hostPoll, turned_platform, ← hsize, haccess]
  · rw [hostStep, hostWrite, turned_platform, haccess]

end Sys2Proof.Machine
end

section
/-! What a command leaves alone (20_memory.md R60, 10_state.md R35). -/

namespace Sys2Proof.Machine

/-- The output regions of a command whose precheck passed lie in (DST, CAP) (10_state.md R35). -/
theorem output_within_capacity {sh : Shape} {p : Platform} {j : Snapshot} (hchecked : precheck sh p j = none) {x : Nat}
    (hx : (regionsOf sh j).outputCovers x = true) : j.dst ≤ x ∧ x < j.dst + j.cap := by
  cases sh with
  | control => cases hx
  | split planes size =>
    obtain ⟨q, hq, hlow, hhigh⟩ := planes_cover.1 hx
    obtain ⟨-, -, hcap, -⟩ := precheckPlanes_eq_none.1 hchecked
    have hlast : q * j.pitch ≤ (planes - 1) * j.pitch := Nat.mul_le_mul_right _ (by omega)
    by_cases hn : j.n = 0
    · simp only [hn, Nat.zero_mul] at hhigh
      omega
    · rw [extentOf, if_neg hn] at hcap
      omega
  | merge planes size =>
    obtain ⟨-, -, hcap, -⟩ := precheckPlanes_eq_none.1 hchecked
    obtain ⟨hlow, hhigh⟩ := output_one.1 hx
    exact ⟨hlow, Nat.lt_of_lt_of_le hhigh (Nat.add_le_add_left hcap _)⟩
  | compress k | decompress k => exact output_one.1 hx

/-- A command completes with a memory that keeps every byte outside its output regions, and every byte at all where its
checks fail. -/
theorem exec_completion_keeps {i : Instr} {s t : State} {job : Job} (hbusy : s.engine = .busy job)
    (hexec : exec i s = .next t) :
    ∃ c, t = complete (shapeOf i) s job c ∧ ∀ x, (precheck (shapeOf i) s.platform job.snap = none →
      (regionsOf (shapeOf i) job.snap).outputCovers x = false) → readByte c.memory x = s.byte x := by
  obtain ⟨job', hjob', hcases⟩ := exec_cases hexec
  obtain rfl : job = job' := by simpa [hbusy] using hjob'
  rcases hcases with ⟨e, -, rfl⟩ | ⟨hchecked, -, rfl⟩
  · exact ⟨_, rfl, fun x _ => by rw [failedOf_memory, State.byte]⟩
  · exact ⟨_, rfl, fun x hx => bodyOf_agree hchecked x (by simp [Regions.Output, hx hchecked])⟩

/-- The hazard rules free output bytes and bytes that an agent wrote, and no others (70_reset_and_hazards.md R224, R226). -/
theorem settled_byte_kept {sh : Shape} {s : State} {job : Job} {c : Completion} {x : Nat}
    (hc : readByte c.memory x = s.byte x) (hout : (regionsOf sh job.snap).outputCovers x = false)
    (htouched : ∀ a ∈ job.outputTouched, a.toNat ≠ x) : readByte (settled sh s job c).memory x = s.byte x := by
  rw [settled, readByte_freeTouched_other _ _ _ htouched]
  split
  · exact readByte_freeRegions_other _ _ _ _ _ (.inl hout)
  · exact hc

/-- Settles O50: no byte changes outside the output regions, and where the checks pass those meet no input region and lie in
(DST, CAP). -/
theorem commandWritesOnlyItsOutputs : Obligations.CommandWritesOnlyItsOutputs := by
  unfold Obligations.CommandWritesOnlyItsOutputs
  intro i s job t hbusy hexec
  obtain ⟨c, rfl, hkeeps⟩ := exec_completion_keeps hbusy hexec
  have hquiet : job.undisturbed → ∀ x, (precheck (shapeOf i) s.platform job.snap = none →
      (regionsOf (shapeOf i) job.snap).outputCovers x = false) →
      (complete (shapeOf i) s job c).byte x = s.byte x := by
    intro hundisturbed x hx
    rw [State.byte, complete_memory, settled_undisturbed hundisturbed]
    exact hkeeps x hx
  refine ⟨fun x hout htouched => settled_byte_kept (hkeeps x fun _ => hout) hout htouched,
    fun hundisturbed x hin => hquiet hundisturbed x fun hchecked => ?_,
    fun hundisturbed x hx => hquiet hundisturbed x fun hchecked => ?_⟩
  · exact disjoint_of_not_overlapping (checked_regions hchecked).2 hin
  · rw [Bool.eq_false_iff]
    intro hout
    obtain ⟨hlow, hhigh⟩ := output_within_capacity hchecked hout
    rw [Snapshot.dst] at hlow hhigh
    rw [Snapshot.cap] at hhigh
    omega

end Sys2Proof.Machine
end

section
/-! Two runs of one command on memories that agree on its input bytes (20_memory.md R60, 41_predictor.md R155): they write
the same bytes to the same places, and complete alike. -/

namespace Sys2Proof.Machine

/-! ### Memories written alike -/

/-- What became of `m₁` and of `m₂`: every byte holds the same in both, or is the one each began with. -/
def WrittenAlike (m₁ m₂ t₁ t₂ : Memory) : Prop :=
  ∀ a, readByte t₂ a = readByte t₁ a ∨ (readByte t₂ a = readByte m₂ a ∧ readByte t₁ a = readByte m₁ a)

section WrittenAlike
variable {m₁ m₂ t₁ t₂ : Memory}

theorem WrittenAlike.refl (m₁ m₂ : Memory) : WrittenAlike m₁ m₂ m₁ m₂ := fun _ => .inr ⟨rfl, rfl⟩

/-- A byte on which the two memories agreed at first, they still agree on. -/
theorem WrittenAlike.agree (h : WrittenAlike m₁ m₂ t₁ t₂) {a : Nat} (ha : readByte m₂ a = readByte m₁ a) :
    readByte t₂ a = readByte t₁ a := by
  rcases h a with h | ⟨h₂, h₁⟩
  · exact h
  · rw [h₂, h₁, ha]

/-- Writing the same byte to both memories. -/
theorem WrittenAlike.writeByte (h : WrittenAlike m₁ m₂ t₁ t₂) (a : Nat) (b : Byte) :
    WrittenAlike m₁ m₂ (writeByte t₁ a b) (writeByte t₂ a b) := by
  intro k
  rw [readByte_writeByte, readByte_writeByte]
  split
  · exact .inl rfl
  · exact h k

/-- Two loops whose turns keep a relation keep it. -/
theorem loop_related {σ τ : Type} {R : σ → τ → Prop} {f : Nat → σ → σ} {g : Nat → τ → τ} {n : Nat}
    (hturn : ∀ i s t, i < n → R s t → R (f i s) (g i t)) {s : σ} {t : τ} (h : R s t) : R (loop f n s) (loop g n t) := by
  induction n with
  | zero => exact h
  | succ n ih => exact hturn n _ _ (Nat.lt_succ_self n) (ih fun i s t hi => hturn i s t (Nat.lt_succ_of_lt hi))

theorem WrittenAlike.memWrite (h : WrittenAlike m₁ m₂ t₁ t₂) (a n v : Nat) :
    WrittenAlike m₁ m₂ (memWrite t₁ a n v) (memWrite t₂ a n v) :=
  loop_related (R := WrittenAlike m₁ m₂) (fun i _ _ _ ht => ht.writeByte (a + i) (byteOf v i)) h

theorem WrittenAlike.writeBytes (h : WrittenAlike m₁ m₂ t₁ t₂) (a : Nat) (bs : List Byte) :
    WrittenAlike m₁ m₂ (writeBytes t₁ a bs) (writeBytes t₂ a bs) := by
  induction bs generalizing t₁ t₂ a with
  | nil => exact h
  | cons b bs ih => exact ih (h.writeByte a b) (a + 1)

theorem WrittenAlike.writeElements (h : WrittenAlike m₁ m₂ t₁ t₂) (k : Width) (a : Nat) (vs : List (BitVec k.bits)) :
    WrittenAlike m₁ m₂ (writeElements k t₁ a vs) (writeElements k t₂ a vs) := by
  induction vs generalizing t₁ t₂ a with
  | nil => exact h
  | cons v vs ih => exact ih (h.memWrite a k.bytes v.toNat) (a + k.bytes)

/-- A draw is the same in both runs (log 6). -/
theorem WrittenAlike.freeRegion (h : WrittenAlike m₁ m₂ t₁ t₂) (d a n : Nat) :
    WrittenAlike m₁ m₂ (freeRegion t₁ d a n) (freeRegion t₂ d a n) := by
  refine loop_related (R := WrittenAlike m₁ m₂) (fun i s t _ ht => ?_) h
  split
  · exact ht.writeByte _ _
  · exact ht

end WrittenAlike

/-! ### What the commands read -/

/-- The two memories agree on the input bytes of a command. -/
def InputsAgree (sh : Shape) (j : Snapshot) (m₁ m₂ : Memory) : Prop :=
  ∀ a, (regionsOf sh j).inputCovers a = true → readByte m₂ a = readByte m₁ a

/-- The addresses of a single input region. -/
theorem inputCovers_one {s l : Nat} {outs : List Region} {x : Nat} :
    Regions.inputCovers ⟨[⟨s, l⟩], outs⟩ x = true ↔ s ≤ x ∧ x < s + l := by
  simp [Regions.inputCovers, Region.covers]

section Reads
variable {j : Snapshot} {m₁ m₂ t₁ t₂ : Memory}

theorem InputsAgree.written {sh : Shape} (h : InputsAgree sh j m₁ m₂) (ht : WrittenAlike m₁ m₂ t₁ t₂) :
    InputsAgree sh j t₁ t₂ := fun a ha => ht.agree (h a ha)

/-- Element P·i + p of a split's input. -/
theorem InputsAgree.memRead_split {planes size i p : Nat} (h : InputsAgree (.split planes size) j m₁ m₂) (hi : i < j.n)
    (hp : p < planes) :
    memRead m₂ (j.src + (planes * i + p) * size) size = memRead m₁ (j.src + (planes * i + p) * size) size := by
  refine memRead_congr fun b hb => h _ (inputCovers_one.2 ⟨by omega, ?_⟩)
  have := cell_lt hi hp hb
  omega

/-- Element i of plane p of a merge's input. -/
theorem InputsAgree.memRead_merge {planes size i p : Nat} (h : InputsAgree (.merge planes size) j m₁ m₂) (hi : i < j.n)
    (hp : p < planes) :
    memRead m₂ (j.src + p * j.pitch + i * size) size = memRead m₁ (j.src + p * j.pitch + i * size) size := by
  refine memRead_congr fun b hb => h _ (planes_cover.2 ⟨p, hp, by omega, ?_⟩)
  have := row_lt hi hb
  omega

/-- Value i of a split into bytes. -/
theorem InputsAgree.memRead_value {k i : Nat} (h : InputsAgree (.split k 1) j m₁ m₂) (hi : i < j.n) :
    memRead m₂ (j.src + i * k) k = memRead m₁ (j.src + i * k) k := by
  refine memRead_congr fun b hb => h _ (inputCovers_one.2 ⟨by omega, ?_⟩)
  have := row_lt hi hb
  rw [Nat.mul_one, Nat.mul_comm k]
  omega

/-- Value i of a merge of bytes. -/
theorem InputsAgree.mergedValue_eq {k i : Nat} (h : InputsAgree (.merge k 1) j m₁ m₂) (hi : i < j.n) :
    mergedValue k j m₂ i = mergedValue k j m₁ i := by
  refine loop_related (R := (· = ·)) (fun b v w hb hvw => ?_) rfl
  have hread := h.memRead_merge hi hb
  rw [Nat.mul_one] at hread
  rw [hvw, hread]

/-! ### What the transposer commands write -/

theorem split3_alike {size : Nat} (h : InputsAgree (.split 3 size) j m₁ m₂) :
    WrittenAlike m₁ m₂ (split3 size j m₁) (split3 size j m₂) := by
  refine loop_related (R := WrittenAlike m₁ m₂) (fun i s t hi ht => ?_) (.refl m₁ m₂)
  refine loop_related (R := WrittenAlike m₁ m₂) (fun p s t hp ht => ?_) ht
  rw [(h.written ht).memRead_split hi hp]
  exact ht.memWrite _ _ _

theorem merge3_alike {size : Nat} (h : InputsAgree (.merge 3 size) j m₁ m₂) :
    WrittenAlike m₁ m₂ (merge3 size j m₁) (merge3 size j m₂) := by
  refine loop_related (R := WrittenAlike m₁ m₂) (fun i s t hi ht => ?_) (.refl m₁ m₂)
  refine loop_related (R := WrittenAlike m₁ m₂) (fun p s t hp ht => ?_) ht
  rw [(h.written ht).memRead_merge hi hp]
  exact ht.memWrite _ _ _

theorem splitBytes_alike {k : Nat} (h : InputsAgree (.split k 1) j m₁ m₂) :
    WrittenAlike m₁ m₂ (splitBytes k j m₁) (splitBytes k j m₂) := by
  refine loop_related (R := WrittenAlike m₁ m₂) (fun i s t hi ht => ?_) (.refl m₁ m₂)
  rw [(h.written ht).memRead_value hi]
  refine loop_related (R := WrittenAlike m₁ m₂) (fun b s t _ ht => ?_) ht
  exact ht.memWrite _ _ _

theorem mergeBytes_alike {k : Nat} (h : InputsAgree (.merge k 1) j m₁ m₂) :
    WrittenAlike m₁ m₂ (mergeBytes k j m₁) (mergeBytes k j m₂) := by
  refine loop_related (R := WrittenAlike m₁ m₂) (fun i s t hi ht => ?_) (.refl m₁ m₂)
  rw [(h.written ht).mergedValue_eq hi]
  exact ht.memWrite _ _ _

/-- Every move writes alike from memories that agree on its input bytes. -/
theorem moveOf_alike {i : Instr} (h : InputsAgree (shapeOf i) j m₁ m₂) :
    WrittenAlike m₁ m₂ (moveOf i j m₁) (moveOf i j m₂) := by
  cases i
  case nop | pcomp32 | pdecomp32 | pcomp64 | pdecomp64 => exact .refl m₁ m₂
  case split3w32 | split3w64 => exact split3_alike h
  case merge3w32 | merge3w64 => exact merge3_alike h
  case splitb2 | splitb4 | splitb8 => exact splitBytes_alike h
  case mergeb2 | mergeb4 | mergeb8 => exact mergeBytes_alike h

/-! ### What the predictor commands read -/

/-- The stream that a compress command forms. -/
theorem InputsAgree.compressedStream_eq {k : Width} (h : InputsAgree (.compress k) j m₁ m₂) (p : Platform) :
    compressedStream k p j m₂ = compressedStream k p j m₁ := by
  rw [compressedStream, compressedStream, readElements_congr k fun b hb => h _ (inputCovers_one.2 ⟨by omega, by omega⟩)]

/-- The header that a decompress command reads, where its input holds one. -/
theorem InputsAgree.readHeader_eq {k : Width} (h : InputsAgree (.decompress k) j m₁ m₂) (hn : 5 ≤ j.n) :
    readHeader m₂ j.src = readHeader m₁ j.src := by
  rw [readHeader, readHeader, h _ (inputCovers_one.2 ⟨by omega, by omega⟩),
    readBytes_congr fun b hb => h _ (inputCovers_one.2 ⟨by omega, by omega⟩)]

/-- The bytes after that header. -/
theorem InputsAgree.readBytes_eq {k : Width} (h : InputsAgree (.decompress k) j m₁ m₂) :
    readBytes m₂ (j.src + 5) (j.n - 5) = readBytes m₁ (j.src + 5) (j.n - 5) :=
  readBytes_congr fun b hb => h _ (inputCovers_one.2 ⟨by omega, by omega⟩)

end Reads

/-! ### Completions alike -/

/-- Two runs of one command end alike: the same error and results, and memories written alike. -/
structure EndsAlike (m₁ m₂ : Memory) (c₁ c₂ : Completion) : Prop where
  error : c₂.error = c₁.error
  resLen : c₂.resLen = c₁.resLen
  resCount : c₂.resCount = c₁.resCount
  resCfg : c₂.resCfg = c₁.resCfg
  memory : WrittenAlike m₁ m₂ c₁.memory c₂.memory

theorem EndsAlike.ite {m₁ m₂ : Memory} {c₁ c₂ d₁ d₂ : Completion} {P : Prop} [Decidable P]
    (hc : P → EndsAlike m₁ m₂ c₁ c₂) (hd : ¬ P → EndsAlike m₁ m₂ d₁ d₂) :
    EndsAlike m₁ m₂ (if P then c₁ else d₁) (if P then c₂ else d₂) := by
  split
  · exact hc ‹P›
  · exact hd ‹¬ P›

/-- The state with another memory. -/
def State.withMemory (s : State) (m : Memory) : State := { s with memory := m }

section Bodies
variable {s : State} {j : Snapshot} {m : Memory}

/-- A failed check reports the same from every memory, and leaves that memory as it was. -/
theorem failedOf_withMemory (i : Instr) (s : State) (j : Snapshot) (m : Memory) (e : ErrorCode) :
    failedOf i (s.withMemory m) j e = { failedOf i s j e with memory := m } := by
  cases i <;> cases e <;> rfl

theorem failedOf_alike (i : Instr) (s : State) (j : Snapshot) (m : Memory) (e : ErrorCode) :
    EndsAlike s.memory m (failedOf i s j e) (failedOf i (s.withMemory m) j e) := by
  rw [failedOf_withMemory]
  exact ⟨rfl, rfl, rfl, rfl, by rw [failedOf_memory]; exact .refl s.memory m⟩

theorem compressBody_alike {k : Width} (h : InputsAgree (.compress k) j s.memory m) :
    EndsAlike s.memory m (compressBody k s j) (compressBody k (s.withMemory m) j) := by
  have hstream := h.compressedStream_eq s.platform
  simp only [compressBody, State.withMemory, hstream]
  exact .ite (fun _ => ⟨rfl, rfl, rfl, rfl, (WrittenAlike.refl _ _).freeRegion _ _ _⟩)
    fun _ => ⟨rfl, rfl, rfl, rfl, (WrittenAlike.refl _ _).writeBytes _ _⟩

theorem decompressBody_alike {k : Width} (h : InputsAgree (.decompress k) j s.memory m) :
    EndsAlike s.memory m (decompressBody k s j) (decompressBody k (s.withMemory m) j) := by
  have hkept := WrittenAlike.refl s.memory m
  refine .ite (fun _ => ⟨rfl, rfl, rfl, rfl, hkept⟩) fun hn => ?_
  simp only [State.withMemory, h.readHeader_eq (Nat.le_of_not_lt hn), h.readBytes_eq]
  refine .ite (fun _ => ⟨rfl, rfl, rfl, rfl, hkept⟩) fun _ => ?_
  refine .ite (fun _ => ⟨rfl, rfl, rfl, rfl, hkept⟩) fun _ => ?_
  refine .ite (fun _ => ⟨rfl, rfl, rfl, rfl, hkept⟩) fun _ => ?_
  split
  · exact ⟨rfl, rfl, rfl, rfl, hkept.freeRegion _ _ _⟩
  · exact ⟨rfl, rfl, rfl, rfl, hkept.writeElements k _ _⟩

/-- The body of every command ends alike from memories that agree on its input bytes. -/
theorem bodyOf_alike {i : Instr} (h : InputsAgree (shapeOf i) j s.memory m) :
    EndsAlike s.memory m (bodyOf i s j) (bodyOf i (s.withMemory m) j) := by
  cases i
  case pcomp32 | pcomp64 => exact compressBody_alike h
  case pdecomp32 | pdecomp64 => exact decompressBody_alike h
  all_goals exact ⟨rfl, rfl, rfl, rfl, moveOf_alike h⟩

end Bodies

/-- What the outside sees of two undisturbed completions that end alike. -/
theorem complete_alike {s : State} {job : Job} {m : Memory} {c₁ c₂ : Completion} (hquiet : job.undisturbed) (sh : Shape)
    (h : EndsAlike s.memory m c₁ c₂) :
    let t := complete sh s job c₁
    let u := complete sh (s.withMemory m) job c₂
    u.status = t.status ∧ u.resLen = t.resLen ∧ u.resCount = t.resCount ∧ u.resCfg = t.resCfg ∧
      WrittenAlike s.memory m t.memory u.memory := by
  obtain ⟨herror, hlen, hcount, hcfg, hmem⟩ := h
  simp only [complete_status, complete_resLen, complete_resCount, complete_resCfg, complete_memory,
    settled_undisturbed hquiet, herror]
  exact ⟨rfl, hlen, hcount, hcfg, hmem⟩

/-- Settles O51: the checks read the snapshot alone, no meaning reads the internal state, and a failed check and a body each
end alike from memories that agree on the input bytes. -/
theorem commandDependsOnlyOnItsInputs : Obligations.CommandDependsOnlyOnItsInputs := by
  unfold Obligations.CommandDependsOnlyOnItsInputs
  intro i s job t m x ⟨hbusy, hquiet⟩ hexec hinputs
  have hexec' : exec i { s with memory := m, internal := x } = exec i (s.withMemory m) :=
    exec_withInternal i (s.withMemory m) x
  rw [hexec', exec_eq]
  obtain ⟨job', hjob', hcases⟩ := exec_cases hexec
  obtain rfl : job = job' := by simpa [hbusy] using hjob'
  rcases hcases with ⟨e, hraises, rfl⟩ | ⟨hchecked, hdevice, rfl⟩
  · exact ⟨_, runCommand_raises (s := s.withMemory m) hbusy hraises, complete_alike hquiet _ (failedOf_alike i s _ m e)⟩
  · exact ⟨_, runCommand_runs (s := s.withMemory m) ⟨⟨hbusy, hquiet⟩, hchecked, hdevice⟩,
      complete_alike hquiet _ (bodyOf_alike hinputs)⟩

end Sys2Proof.Machine
end

section
/-! The command word: the OP map read both ways, and the word's two fields in numbers (30_encoding.md R70 to R72). -/

namespace Sys2Proof.Machine

/-- The OP map is the inverse of the commands' OP values. -/
theorem commandOfOp_eq_command (b : BitVec 4) (i : Instr) : commandOfOp b.toNat = .command i ↔ b = i.op := by
  revert b
  cases i <;> decide

/-- Every OP but 15 is some command's. -/
theorem exists_op_iff (b : BitVec 4) : (∃ i : Instr, b = i.op) ↔ b.toNat ≠ 15 := by
  constructor
  · rintro ⟨i, rfl⟩
    cases i <;> decide
  · have hall : ∀ b : BitVec 4, b.toNat ≠ 15 → ∃ i ∈ Instr.all, b = i.op := by decide
    intro hb
    obtain ⟨i, -, hi⟩ := hall b hb
    exact ⟨i, hi⟩

/-- The reserved bits [31:4] in numbers. -/
theorem reservedBits_eq_zero_iff (w : Word) : w.extractLsb' 4 28 = 0#28 ↔ w.toNat / 16 = 0 := by
  rw [BitVec.toNat_eq, BitVec.extractLsb'_toNat, Nat.shiftRight_eq_div_pow, BitVec.toNat_zero]
  have := w.isLt
  omega

/-- OP in numbers. -/
theorem op_toNat (w : Word) : (w.extractLsb' 0 4).toNat = w.toNat % 16 := by
  rw [BitVec.extractLsb'_toNat, Nat.shiftRight_zero]

/-- A word is a command's encoding when its reserved bits are 0 and its OP is the command's (R70). -/
theorem eq_encode_iff (w : Word) (i : Instr) :
    w = encode i ↔ w.extractLsb' 4 28 = 0#28 ∧ w.extractLsb' 0 4 = i.op := by
  constructor
  · rintro rfl
    exact ⟨BitVec.extractLsb'_append_eq_left, BitVec.extractLsb'_append_eq_right⟩
  · rintro ⟨hreserved, hop⟩
    rw [encode, ← hreserved, ← hop]
    exact (BitVec.extractLsb'_append_extractLsb' (w := 28) (len := 4)).symm

/-- A word decodes to a command when its reserved bits are 0 and its OP is the command's (R71, R72). -/
theorem decodeWord_eq_command_iff (w : Word) (i : Instr) :
    decodeWord w = .command i ↔ w.extractLsb' 4 28 = 0#28 ∧ w.extractLsb' 0 4 = i.op := by
  simp only [decodeWord, beq_iff_eq]
  split
  case isTrue hzero => rw [commandOfOp_eq_command, and_iff_right hzero]
  case isFalse hset => exact ⟨nofun, fun h => absurd h.1 hset⟩

/-- The decoder inverts the encoder. -/
@[simp] theorem decodeWord_encode (i : Instr) : decodeWord (encode i) = .command i :=
  (decodeWord_eq_command_iff _ i).2 ((eq_encode_iff _ i).1 rfl)

/-- Settles O2: decoding to a command and being its encoding each say that the reserved bits are 0 and OP is the
command's; and every OP but 15 is some command's. -/
theorem decodeAgreesWithEncode : Obligations.DecodeAgreesWithEncode := by
  unfold Obligations.DecodeAgreesWithEncode
  refine ⟨fun w => ?_, fun w i => (decodeWord_eq_command_iff w i).trans (eq_encode_iff w i).symm⟩
  simp only [decodeWord_eq_command_iff, exists_and_left, exists_op_iff, reservedBits_eq_zero_iff, op_toNat]

/-- Settles O1: the first fifteen words are the commands' encodings, the last three are looked up. -/
theorem wordsOfTheOpMapDecode : Obligations.WordsOfTheOpMapDecode := by
  unfold Obligations.WordsOfTheOpMapDecode
  exact ⟨decodeWord_encode .nop, decodeWord_encode .pcomp32, decodeWord_encode .pdecomp32, decodeWord_encode .pcomp64,
    decodeWord_encode .pdecomp64, decodeWord_encode .split3w32, decodeWord_encode .merge3w32, decodeWord_encode .split3w64,
    decodeWord_encode .merge3w64, decodeWord_encode .splitb2, decodeWord_encode .mergeb2, decodeWord_encode .splitb4,
    decodeWord_encode .mergeb4, decodeWord_encode .splitb8, decodeWord_encode .mergeb8, by decide, by decide, by decide⟩

end Sys2Proof.Machine
end

section
/-! The exponents in numbers: norm, and the fields of HASH_CFG (30_encoding.md R73, 10_state.md R31). -/

namespace Sys2Proof.Machine

/-- norm(e) by division (R73). -/
theorem normExponent_eq (eMax e : Nat) : normExponent eMax e = 2 * (min e eMax / 2) := by
  rw [normExponent, Nat.shiftRight_eq_div_pow, Nat.shiftLeft_eq, Nat.mul_comm, pow_one]

/-- HASH_CFG reads back as what it holds. -/
@[simp] theorem hashCfg_ofWord_toWord (h : HashCfg) : HashCfg.ofWord h.toWord = h := by
  obtain ⟨a, b, c, d⟩ := h
  simp only [HashCfg.ofWord, HashCfg.mk.injEq]
  refine ⟨?_, ?_, ?_, ?_⟩ <;>
  · apply BitVec.eq_of_getLsbD_eq
    intro i hi
    rw [BitVec.getLsbD_extractLsb', hashCfgWord_getLsbD]
    grind

/-- A 5-bit field in numbers. -/
theorem field5_toNat (x : Word) (i : Nat) : (x.extractLsb' i 5).toNat = x.toNat / 2 ^ i % 32 := by
  rw [BitVec.extractLsb'_toNat, Nat.shiftRight_eq_div_pow]

/-- The requested exponents of each width, as fields of the word that HASH_CFG reads as (R73). -/
theorem requestedExponents_eq (h : HashCfg) :
    h.e1 .w32 = h.toWord.toNat % 32 ∧ h.e2 .w32 = h.toWord.toNat / 2 ^ 8 % 32 ∧
      h.e1 .w64 = h.toWord.toNat / 2 ^ 16 % 32 ∧ h.e2 .w64 = h.toWord.toNat / 2 ^ 24 % 32 := by
  have hread := hashCfg_ofWord_toWord h
  generalize h.toWord = x at hread ⊢
  subst hread
  exact ⟨(field5_toNat x 0).trans (by rw [pow_zero, Nat.div_one]), field5_toNat x 8, field5_toNat x 16, field5_toNat x 24⟩

/-- Settles O35: norm halves and doubles, so the bounds are arithmetic below an even E_MAX of at most 30; the exponents of a
width are its fields of HASH_CFG. -/
theorem exponentsAreCappedAndEven : Obligations.ExponentsAreCappedAndEven := by
  unfold Obligations.ExponentsAreCappedAndEven
  refine ⟨fun p hwf e => ?_, fun p j => ?_⟩
  · obtain ⟨heven, hmax⟩ := (platform_wf_iff p).1 hwf
    rw [normExponent_eq]
    omega
  · obtain ⟨he1w32, he2w32, he1w64, he2w64⟩ := requestedExponents_eq j.hashCfg
    exact ⟨congrArg _ he1w32, congrArg _ he2w32, congrArg _ he1w64, congrArg _ he2w64⟩

end Sys2Proof.Machine
end

section
/-! The decoder's loops, equation by equation: what a code gives in a value slot, the codes of a record, and what each
turn of the group loop does (30_encoding.md R78 to R81; 41_predictor.md R145, R146). -/

namespace Sys2Proof.Machine

/-- The numbers of a width (00_scope.md R6, 30_encoding.md R80, R81): G, CB, the bits of a code, and L. -/
theorem width_numbers {k : Width} {g cb b l : Nat}
    (h : (k, g, cb, b, l) ∈ [(Width.w32, 8, 3, 3, 4), (.w64, 2, 1, 4, 8)]) :
    g = k.group ∧ cb = k.codeBytes ∧ b = k.codeBits ∧ l = k.bytes := by
  simp only [List.mem_cons, Prod.mk.injEq, List.not_mem_nil, or_false] at h
  rcases h with ⟨rfl, rfl, rfl, rfl, rfl⟩ | ⟨rfl, rfl, rfl, rfl, rfl⟩ <;> exact ⟨rfl, rfl, rfl, rfl⟩

/-! ### Codes and values -/

/-- The codes of a record in numbers, the first in the most significant bits (R78, R79). -/
theorem unpackCodes_eq (k : Width) (bs : List Byte) :
    unpackCodes k bs =
      (List.range k.group).map fun j => beValue bs / 2 ^ (k.codeBits * (k.group - 1 - j)) % 2 ^ k.codeBits := by
  simp only [unpackCodes, Nat.shiftRight_eq_div_pow]

/-- The codes of a record's first `m` slots, where it has as many. -/
theorem unpackCodes_take (k : Width) (bs : List Byte) {m : Nat} (hm : m ≤ k.group) :
    (unpackCodes k bs).take m =
      (List.range m).map fun j => beValue bs / 2 ^ (k.codeBits * (k.group - 1 - j)) % 2 ^ k.codeBits := by
  rw [unpackCodes_eq, ← List.map_take, List.take_range, Nat.min_eq_left hm]

section Decoder
variable (k : Width) (h : HashPair k.bits) (e1 e2 : Nat)

/-- A value slot whose field is there (R145). -/
theorem decodeValue_of_field (c : Nat) (p : PredictionState k.bits) (field rest : List Byte) (pos : Nat)
    (hlen : field.length = fieldLength k c) :
    let v := basePrediction k c p.predict ^^^ BitVec.ofNat k.bits (beValue field)
    decodeValue k h e1 e2 c p { pos := pos, rest := field ++ rest } =
      some (v, p.predict.update h e1 e2 v, { pos := pos + field.length, rest := rest }) := by
  simp only [decodeValue, read_append pos field rest hlen, hlen]

/-- A value slot with a byte of its field missing (R145). -/
theorem decodeValue_of_missing (c : Nat) (p : PredictionState k.bits) (r : Reader)
    (hmissing : r.rest.length < fieldLength k c) : decodeValue k h e1 e2 c p r = none := by
  simp only [decodeValue, read_eq, if_pos hmissing]

/-- The slots of a group, one after the other (R146, inner loop). -/
theorem decodeSlots_cons (c : Nat) (cs : List Nat) (p : PredictionState k.bits) (r : Reader) :
    decodeSlots k h e1 e2 (c :: cs) p r =
      (decodeValue k h e1 e2 c p r).bind fun (v, p, r) =>
        (decodeSlots k h e1 e2 cs p r).map fun (vs, p, r) => (v :: vs, p, r) := by
  rw [decodeSlots]
  cases decodeValue k h e1 e2 c p r with
  | none => rfl
  | some x =>
    obtain ⟨v, p, r⟩ := x
    simp only [Option.bind_some]
    cases decodeSlots k h e1 e2 cs p r <;> rfl

/-! ### The group loop -/

/-- No values take no group. -/
@[simp] theorem ceilDiv_zero (g : Nat) : ceilDiv 0 g = 0 := by
  rw [ceilDiv, Nat.zero_add, Nat.div_eq_zero_iff]
  omega

/-- The loop ends when no value is left (R146). -/
theorem decodeGroups_ceilDiv_zero (n : Nat) (p : PredictionState k.bits) (r : Reader) :
    decodeGroups k h e1 e2 (ceilDiv 0 k.group) n p r = some ([], r) := by
  rw [ceilDiv_zero, decodeGroups]

/-- The groups after the first, counted from the values it leaves. -/
theorem ceilDiv_group {n : Nat} (hn : 0 < n) :
    ceilDiv n k.group = ceilDiv (n - min k.group n) k.group + 1 := by
  have hgroup : 0 < k.group := by cases k <;> decide
  rw [ceilDiv_succ hgroup hn, show n - min k.group n = n - k.group by omega]

/-- A turn of the loop with a code byte missing (R146). -/
theorem decodeGroups_of_missing {n : Nat} (hn : 0 < n) (p : PredictionState k.bits) (r : Reader)
    (hmissing : r.rest.length < k.codeBytes) : decodeGroups k h e1 e2 (ceilDiv n k.group) n p r = none := by
  rw [ceilDiv_group k hn, decodeGroups, read_eq, if_pos hmissing]

/-- A turn of the loop with its code bytes there: the slots of this group that hold values, and then the values left (R146). -/
theorem decodeGroups_of_codes {n : Nat} (hn : 0 < n) (p : PredictionState k.bits) (r : Reader)
    (hcodes : k.codeBytes ≤ r.rest.length) :
    decodeGroups k h e1 e2 (ceilDiv n k.group) n p r =
      (decodeSlots k h e1 e2 ((unpackCodes k (r.rest.take k.codeBytes)).take (min k.group n)) p
          { pos := r.pos + k.codeBytes, rest := r.rest.drop k.codeBytes }).bind fun (vs, p, r) =>
        (decodeGroups k h e1 e2 (ceilDiv (n - min k.group n) k.group) (n - min k.group n) p r).map
          fun (ws, r) => (vs ++ ws, r) := by
  rw [ceilDiv_group k hn, decodeGroups, read_eq, if_neg (Nat.not_lt.2 hcodes)]
  simp only
  cases decodeSlots k h e1 e2 ((unpackCodes k (r.rest.take k.codeBytes)).take (min k.group n)) p
      { pos := r.pos + k.codeBytes, rest := r.rest.drop k.codeBytes } with
  | none => rfl
  | some x =>
    obtain ⟨vs, p, r⟩ := x
    simp only [Option.bind_some]
    cases decodeGroups k h e1 e2 (ceilDiv (n - min k.group n) k.group) (n - min k.group n) p r <;> rfl

/-- The decoder of a stream is its group loop, from the zero state at position 5 (R130, R146). -/
theorem decodeStream_eq (n : Nat) (rest : List Byte) :
    decodeStream k h e1 e2 n rest =
      (decodeGroups k h e1 e2 (ceilDiv n k.group) n (PredictionState.zero k.bits) { pos := 5, rest := rest }).map
        fun (vs, r) => (vs, r.pos) := by
  unfold decodeStream
  cases decodeGroups k h e1 e2 (ceilDiv n k.group) n (PredictionState.zero k.bits) { pos := 5, rest := rest } <;> rfl

/-- A stream of no values is its header alone. -/
theorem decodeStream_zero (rest : List Byte) : decodeStream k h e1 e2 0 rest = some ([], 5) := by
  rw [decodeStream_eq, decodeGroups_ceilDiv_zero, Option.map_some]

end Decoder

/-- Settles O44: the equations above, with the numbers of the width written in. -/
theorem everyCodeDecodes : Obligations.EveryCodeDecodes := by
  unfold Obligations.EveryCodeDecodes
  intro k g cb b l hk
  obtain ⟨rfl, rfl, rfl, rfl⟩ := width_numbers hk
  refine ⟨fun codes _ => unpackCodes_eq k codes,
    fun h e1 e2 c p field rest pos _ hlen => decodeValue_of_field k h e1 e2 c p field rest pos hlen,
    fun h e1 e2 c p r _ hmissing => decodeValue_of_missing k h e1 e2 c p r hmissing,
    fun h e1 e2 n rest => ⟨decodeStream_zero k h e1 e2 rest, decodeStream_eq k h e1 e2 n rest⟩,
    fun h e1 e2 n p r => ⟨decodeGroups_ceilDiv_zero k h e1 e2 0 p r,
      fun hn hmissing => decodeGroups_of_missing k h e1 e2 hn p r hmissing, fun hn hcodes => ?_⟩,
    fun h e1 e2 c cs p r => ⟨rfl, decodeSlots_cons k h e1 e2 c cs p r⟩⟩
  rw [← unpackCodes_take k _ (Nat.min_le_left _ _)]
  exact decodeGroups_of_codes k h e1 e2 hn p r hcodes

end Sys2Proof.Machine
end

section
/-! How an undisturbed command ends: with the error of its precheck, or as its body says (60_exceptions.md R194, R201,
R202). -/

namespace Sys2Proof.Machine

/-- A precheck error leaves RES_CFG 0 (60_exceptions.md R194). -/
@[simp] theorem failedOf_resCfg (i : Instr) (s : State) (j : Snapshot) (e : ErrorCode) :
    (failedOf i s j e).resCfg = ResCfg.zero := by
  cases i <;> cases e <;> rfl

/-- A command whose precheck raises completes with that error's number, and changes no byte. -/
theorem fails_of_raises {i : Instr} {s : State} {job : Job} (hflight : InFlight s job) {e : ErrorCode}
    (hraises : precheck (shapeOf i) s.platform job.snap = some e) :
    Fails i s e.number (failedOf i s job.snap e).resLen (failedOf i s job.snap e).resCount 0 := by
  refine ⟨_, (exec_eq i s).trans (runCommand_raises hflight.busy hraises), ?_, complete_configKept _ _ _ _, fun a => ?_⟩
  · have hcompleted := complete_completed hflight.quiet (shapeOf i) s (failedOf i s job.snap e)
    rwa [failedOf_error, failedOf_resCfg] at hcompleted
  · rw [State.byte, complete_memory, settled_undisturbed hflight.quiet, failedOf_memory, State.byte]

/-- A command that runs completes as its body says, and keeps the configuration and every byte outside its outputs. -/
theorem completes_of_runs {i : Instr} {s : State} {job : Job} (hruns : Runs s (shapeOf i) job) :
    ∃ t, exec i s = .next t ∧
      Completed t (errcodeOf (bodyOf i s job.snap).error) (bodyOf i s job.snap).resLen (bodyOf i s job.snap).resCount
        (cfgNumber (bodyOf i s job.snap).resCfg.e1.toNat (bodyOf i s job.snap).resCfg.e2.toNat) ∧
      ConfigKept s t ∧ t.memory = (bodyOf i s job.snap).memory ∧
      BytesKeptOutside (regionsOf (shapeOf i) job.snap).outputs s t := by
  have hmemory : (complete (shapeOf i) s job (bodyOf i s job.snap)).memory = (bodyOf i s job.snap).memory := by
    rw [complete_memory, settled_undisturbed hruns.quiet]
  refine ⟨_, (exec_eq i s).trans (runCommand_runs hruns), complete_completed hruns.quiet _ _ _,
    complete_configKept _ _ _ _, hmemory, fun a houtside => ?_⟩
  rw [State.byte, hmemory]
  exact bodyOf_agree hruns.checked a (Bool.eq_false_iff.1 houtside)

end Sys2Proof.Machine
end

section
/-! The plane transposer's commands as one: the error their precheck reports, and how they complete
(40_plane_transposer.md R100 to R102, R113). -/

namespace Sys2Proof.Machine

/-! ### The precheck, by addresses -/

section Precheck
variable {r : Regions} {p : Platform} {extent cap : Nat}

theorem precheckPlanes_range (h : r.passesEnd) : precheckPlanes p r extent cap = some .range := by
  simp [precheckPlanes, outOfRange_iff, h]

theorem precheckPlanes_overlap (hrange : ¬ r.passesEnd) (h : r.collide) :
    precheckPlanes p r extent cap = some .overlap := by
  simp [precheckPlanes, outOfRange_iff, overlapping_iff, hrange, h]

theorem precheckPlanes_dstFull (hrange : ¬ r.passesEnd) (hoverlap : ¬ r.collide) (h : cap < extent) :
    precheckPlanes p r extent cap = some .dstFull := by
  simp [precheckPlanes, outOfRange_iff, overlapping_iff, hrange, hoverlap, h]

theorem precheckPlanes_busError (hrange : ¬ r.passesEnd) (hoverlap : ¬ r.collide) (hfits : extent ≤ cap)
    (h : r.missAddress p) : precheckPlanes p r extent cap = some .busError := by
  simp [precheckPlanes, outOfRange_iff, overlapping_iff, meetsAbsent_iff, hrange, hoverlap, Nat.not_lt.2 hfits, h]

theorem precheckPlanes_passes (hrange : ¬ r.passesEnd) (hoverlap : ¬ r.collide) (hfits : extent ≤ cap)
    (hpresent : ¬ r.missAddress p) : precheckPlanes p r extent cap = none := by
  simp [precheckPlanes, outOfRange_iff, overlapping_iff, meetsAbsent_iff, hrange, hoverlap, Nat.not_lt.2 hfits, hpresent]

end Precheck

/-! ### Completion -/

section Transposer
variable {i : Instr} {sh : Shape} {planes size : Nat} (hi : shapeOf i = sh)
  (hsh : sh = .split planes size ∨ sh = .merge planes size)
include hi hsh

/-- A transposer command's precheck error is reported as R194 says of the transposer. -/
theorem failedOf_transposer (s : State) : failedOf i s = transposerFailed sh s.memory := by
  subst hi
  cases i <;> rcases hsh with h | h <;> cases h <;> rfl

/-- The body of a transposer command: no error, P·n·S bytes and n elements moved (R102). -/
theorem bodyOf_transposer (s : State) (j : Snapshot) :
    bodyOf i s j =
      { error := none, resLen := BitVec.ofNat 32 (planes * j.n * size), resCount := j.srcLen, resCfg := ResCfg.zero
        memory := moveOf i j s.memory } := by
  subst hi
  cases i <;> rcases hsh with h | h <;> cases h <;> rfl

/-- A transposer command that runs completes without error (R102). -/
theorem transposer_completes {s : State} {job : Job} (hruns : Runs s sh job) :
    ∃ t, exec i s = .next t ∧
      Completed t 0#4 (BitVec.ofNat 32 (planes * job.snap.n * size)) job.snap.srcLen 0 ∧
      ConfigKept s t ∧ t.memory = moveOf i job.snap s.memory ∧
      BytesKeptOutside (regionsOf sh job.snap).outputs s t := by
  have hbody := completes_of_runs (hi ▸ hruns)
  rwa [bodyOf_transposer hi hsh, hi] at hbody

omit hi in
/-- A transposer command runs when its four checks pass and it meets no device (R101, 20_memory.md R57). -/
theorem transposer_runs {s : State} {job : Job} (hflight : InFlight s job)
    (hrange : ¬ (regionsOf sh job.snap).passesEnd) (hoverlap : ¬ (regionsOf sh job.snap).collide)
    (hfits : extentOf sh job.snap ≤ job.snap.cap) (hpresent : ¬ (regionsOf sh job.snap).missAddress s.platform)
    (hdevice : ¬ (regionsOf sh job.snap).holdDevice s.platform) : Runs s sh job where
  toInFlight := hflight
  checked := by rw [precheck_transposer hsh, precheckPlanes_passes hrange hoverlap hfits hpresent]
  noDevice := by rwa [← meetsDevice_iff, Bool.not_eq_true] at hdevice

/-- The checks of R101 in their order, for every transposer command: what each reports, and that nothing else stops it. -/
theorem transposer_checks {s : State} {job : Job} (hflight : InFlight s job) :
    ChecksPlanes i sh s job (regionsOf sh job.snap) (extentOf sh job.snap) (planes * job.snap.n * size) := by
  have hfails : ∀ e, precheckPlanes s.platform (regionsOf sh job.snap) (extentOf sh job.snap) job.snap.cap = some e →
      Fails i s e.number (transposerFailed sh s.memory job.snap e).resLen
        (transposerFailed sh s.memory job.snap e).resCount 0 := by
    intro e he
    rw [← failedOf_transposer hi hsh]
    exact fails_of_raises hflight (by rw [hi, precheck_transposer hsh, he])
  refine ⟨rfl, fun hrange => hfails .range (precheckPlanes_range hrange),
    fun hrange hoverlap => hfails .overlap (precheckPlanes_overlap hrange hoverlap),
    fun hrange hoverlap hfull => hfails .dstFull (precheckPlanes_dstFull hrange hoverlap hfull),
    fun hrange hoverlap hfits hbus => hfails .busError (precheckPlanes_busError hrange hoverlap hfits hbus),
    fun hrange hoverlap hfits hpresent hdevice => ?_⟩
  have hruns := transposer_runs hsh hflight hrange hoverlap hfits hpresent hdevice
  obtain ⟨t, hexec, hcompleted, -⟩ := transposer_completes hi hsh hruns
  exact ⟨hruns, t, hexec, hcompleted⟩

end Transposer

/-- Settles O19: the checks of each command, with its regions and its extent in numbers. -/
theorem transposerReportsItsFirstFailedCheck : Obligations.TransposerReportsItsFirstFailedCheck := by
  unfold Obligations.TransposerReportsItsFirstFailedCheck
  intro s job hflight
  have hsplit : ∀ c ∈ [(Instr.split3w32, 3, 4), (.split3w64, 3, 8), (.splitb2, 2, 1), (.splitb4, 4, 1), (.splitb8, 8, 1)],
      shapeOf c.1 = .split c.2.1 c.2.2 := by decide
  have hmerge : ∀ c ∈ [(Instr.merge3w32, 3, 4), (.merge3w64, 3, 8), (.mergeb2, 2, 1), (.mergeb4, 4, 1), (.mergeb8, 8, 1)],
      shapeOf c.1 = .merge c.2.1 c.2.2 := by decide
  exact ⟨fun i p z hc => transposer_checks (hsplit _ hc) (.inl rfl) hflight,
    fun i p z hc => transposer_checks (hmerge _ hc) (.inr rfl) hflight⟩

/-! ### No elements -/

/-- Regions that cover nothing: "A region with len = 0 covers nothing and is always valid" (20_memory.md R58). -/
def Regions.Empty (r : Regions) : Prop := ∀ q ∈ r.inputs ++ r.outputs, q.len = 0

theorem not_shares_of_len_eq_zero {q : Region} (h : q.len = 0) (o : Region) : ¬ q.shares o := by
  rintro ⟨a, ⟨hlow, hhigh⟩, -⟩
  omega

section Empty
variable {r : Regions} (h : r.Empty)
include h

theorem Regions.Empty.not_passesEnd : ¬ r.passesEnd := by
  rintro ⟨q, hq, hlen, -⟩
  rw [h q hq] at hlen
  exact Nat.lt_irrefl 0 hlen

theorem Regions.Empty.not_collide : ¬ r.collide := by
  rintro (⟨q, hq, o, -, hshares⟩ | hpairs)
  · exact not_shares_of_len_eq_zero (h q (List.mem_append_left _ hq)) o hshares
  · exact hpairs (List.pairwise_of_forall_mem_list fun q hq o _ =>
      not_shares_of_len_eq_zero (h q (List.mem_append_right _ hq)) o)

theorem Regions.Empty.not_missAddress (p : Platform) : ¬ r.missAddress p := by
  rintro ⟨q, hq, hole, -, hshares⟩
  exact not_shares_of_len_eq_zero (h q hq) hole hshares

theorem Regions.Empty.not_holdDevice (p : Platform) : ¬ r.holdDevice p := by
  rintro ⟨q, hq, d, -, hshares⟩
  exact not_shares_of_len_eq_zero (h q hq) d hshares

end Empty

section NoElements
variable {sh : Shape} {planes size : Nat} (hsh : sh = .split planes size ∨ sh = .merge planes size) {j : Snapshot}
  (hn : j.n = 0)
include hsh hn

theorem regionsOf_empty : (regionsOf sh j).Empty := by
  have hplanes : ∀ base, ∀ q ∈ planeRegions base j.pitch planes (j.n * size), q.len = 0 := by
    intro base q hq
    obtain ⟨p, -, rfl⟩ := mem_planeRegions.1 hq
    simp [hn]
  rcases hsh with rfl | rfl <;> intro q hq
  · rcases List.mem_cons.1 hq with rfl | hq
    · simp [hn]
    · exact hplanes _ q hq
  · rcases List.mem_append.1 hq with hq | hq
    · exact hplanes _ q hq
    · obtain rfl := List.mem_singleton.1 hq
      simp [hn]

/-- An empty transpose needs no room, wherever its planes would lie (R100). -/
theorem extentOf_empty : extentOf sh j = 0 := by
  rcases hsh with rfl | rfl <;> simp [extentOf, hn]

end NoElements

theorem moveOf_empty (i : Instr) {j : Snapshot} (hn : j.n = 0) (m : Memory) : moveOf i j m = m := by
  cases i <;> simp only [moveOf, split3, merge3, splitBytes, mergeBytes, hn, loop_zero]

/-- Settles O28: empty regions pass every check and meet no device, and no turn of a loop runs. -/
theorem emptyTransposeAlwaysSucceeds : Obligations.EmptyTransposeAlwaysSucceeds := by
  unfold Obligations.EmptyTransposeAlwaysSucceeds
  intro i p z s job hsh hflight hlen
  have hn : job.snap.n = 0 := by rw [Snapshot.n, hlen]; rfl
  have hempty := regionsOf_empty hsh hn
  have hruns := transposer_runs hsh hflight hempty.not_passesEnd hempty.not_collide
    (extentOf_empty hsh hn ▸ Nat.zero_le _) (hempty.not_missAddress _) (hempty.not_holdDevice _)
  obtain ⟨t, hexec, hcompleted, hkept, hmemory, -⟩ := transposer_completes rfl hsh hruns
  rw [hn, hlen, Nat.mul_zero, Nat.zero_mul] at hcompleted
  refine ⟨t, hexec, hcompleted, hkept, fun a => ?_⟩
  rw [State.byte, hmemory, moveOf_empty i hn, State.byte]

end Sys2Proof.Machine
end

section
/-! How many bytes a transposer command moves when its precheck passes (40_plane_transposer.md R102, log 24). -/

namespace Sys2Proof.Machine

/-- Every split and every merge has at least two planes (R100). -/
theorem two_le_planes {i : Instr} {planes size : Nat}
    (hsh : shapeOf i = .split planes size ∨ shapeOf i = .merge planes size) : 2 ≤ planes := by
  cases i <;> rcases hsh with h | h <;> cases h <;> decide

/-- An array of P·L bytes that lies after plane 0 and before plane P-1 lies between two neighbouring planes, so a plane and
the array fit in one pitch. -/
theorem array_between_planes {src dst pitch planes len : Nat} (hlen : 0 < planes * len)
    (happart : ∀ p, p < planes → dst + p * pitch + len ≤ src ∨ src + planes * len ≤ dst + p * pitch)
    (hfirst : dst ≤ src) (hlast : src < dst + (planes - 1) * pitch) : len + planes * len ≤ pitch := by
  have hpitch : 0 < pitch := by
    by_contra hzero
    rw [Nat.eq_zero_of_not_pos hzero, Nat.mul_zero] at hlast
    omega
  obtain ⟨q, hq⟩ : ∃ q, q = (src - dst) / pitch := ⟨_, rfl⟩
  have hlow : q * pitch ≤ src - dst := hq ▸ Nat.div_mul_le_self _ _
  have hhigh : src - dst < (q + 1) * pitch := hq ▸ Nat.lt_mul_of_div_lt (Nat.lt_succ_self _) hpitch
  have hqlast : q < planes - 1 := by
    rw [hq, Nat.div_lt_iff_lt_mul hpitch]
    omega
  have hbelow := happart q (by omega)
  have habove := happart (q + 1) (by omega)
  rw [Nat.add_mul, Nat.one_mul] at hhigh habove
  omega

/-- P planes apart from one another and from an array of their P·L bytes take as many bytes again: the array lies before
them, after them, or between two of them. -/
theorem array_and_planes_fit {src dst pitch planes len limit : Nat} (hplanes : 2 ≤ planes) (hpitch : len ≤ pitch)
    (happart : ∀ p, p < planes → dst + p * pitch + len ≤ src ∨ src + planes * len ≤ dst + p * pitch)
    (harray : src + planes * len ≤ limit) (hlast : dst + (planes - 1) * pitch + len ≤ limit) :
    2 * (planes * len) ≤ limit := by
  obtain ⟨k, rfl⟩ : ∃ k, planes = k + 2 := ⟨planes - 2, by omega⟩
  replace hlast : dst + (k + 1) * pitch + len ≤ limit := hlast
  rcases Nat.eq_zero_or_pos ((k + 2) * len) with hzero | hpos
  · omega
  have hspan : (k + 2) * len ≤ (k + 1) * pitch + len := by nlinarith
  rcases happart 0 (by omega) with hfirst | hbefore
  · rcases happart (k + 1) (by omega) with hafter | hlastAbove
    · omega
    · have hgap := array_between_planes hpos happart (by omega) (show src < dst + (k + 1) * pitch by omega)
      have hwide : (k + 1) * (len + (k + 2) * len) ≤ (k + 1) * pitch := Nat.mul_le_mul_left _ hgap
      have htwice : 2 * ((k + 2) * len) ≤ (k + 2) * ((k + 2) * len) := Nat.mul_le_mul_right _ hplanes
      linarith
  · omega

/-- A split moves at most half of the address space (R102). -/
theorem split_bytes_le {planes size : Nat} {p : Platform} {j : Snapshot} (hplanes : 2 ≤ planes)
    (hchecked : precheck (.split planes size) p j = none) : planes * j.n * size ≤ 2 ^ 31 := by
  obtain ⟨hrange, hoverlap, -, -⟩ := precheckPlanes_eq_none.1 hchecked
  have hplane : ∀ q, q < planes →
      (⟨j.dst + q * j.pitch, j.n * size⟩ : Region) ∈ (regionsOf (.split planes size) j).outputs :=
    fun q hq => mem_planeRegions.2 ⟨q, hq, rfl⟩
  have harray := region_fits hrange (.inl (List.mem_singleton_self _))
  have hlast := region_fits hrange (.inr (hplane (planes - 1) (by omega)))
  have happart : ∀ q, q < planes → _ := fun q hq =>
    region_apart (input_output_apart hoverlap (List.mem_singleton_self _) (hplane q hq))
  simp only [Nat.mul_assoc, addressCount] at harray hlast happart ⊢
  rcases Nat.eq_zero_or_pos (j.n * size) with hzero | hpos
  · rw [hzero]
    exact Nat.zero_le _
  · have htotal : 0 < planes * (j.n * size) := Nat.mul_pos (by omega) hpos
    have hfit := array_and_planes_fit (limit := 4294967296) hplanes (split_apart hplanes hchecked).1
      (fun q hq => by have := happart q hq; omega) (harray.resolve_left (by omega)) (hlast.resolve_left (by omega))
    omega

/-- A merge's output leaves room for a byte of its first plane (R102, log 24). -/
theorem merge_bytes_lt {planes size : Nat} {p : Platform} {j : Snapshot} (hplanes : 2 ≤ planes)
    (hchecked : precheck (.merge planes size) p j = none) : planes * j.n * size < 2 ^ 32 := by
  obtain ⟨hrange, -, -, -⟩ := precheckPlanes_eq_none.1 hchecked
  rcases Nat.eq_zero_or_pos (j.n * size) with hzero | hpos
  · rw [Nat.mul_assoc, hzero, Nat.mul_zero]
    exact Nat.two_pow_pos 32
  · have harray := region_fits hrange (.inr (List.mem_singleton_self _))
    have hsrc : j.src < 2 ^ 32 := j.srcAddr.isLt
    have houtside := merge_apart hchecked j.src 0 (by omega) (by omega) (by omega)
    simp only [addressCount] at harray
    omega

/-- Settles O22: a split's array and planes lie apart, and a merge's output leaves room for an input plane. -/
theorem transposedBytesFitTheRegister : Obligations.TransposedBytesFitTheRegister := by
  unfold Obligations.TransposedBytesFitTheRegister
  intro i p z pl j hchecked
  refine ⟨fun hsplit => ?_, fun hmerge => ?_⟩
  · exact split_bytes_le (two_le_planes (.inl hsplit)) (hsplit ▸ hchecked)
  · exact merge_bytes_lt (two_le_planes (.inr hmerge)) (hmerge ▸ hchecked)

end Sys2Proof.Machine
end

section
/-! What each transposer command moves where, and that a merge undoes a split (40_plane_transposer.md R102 to R112, R114). -/

namespace Sys2Proof.Machine

/-- Every split puts byte b of element P·e + p of the array at byte b of element e of plane p. -/
theorem moveOf_split {i : Instr} {planes size : Nat} (hi : shapeOf i = .split planes size) {s : State} {j : Snapshot}
    (hchecked : precheck (.split planes size) s.platform j = none) {e p b : Nat} (he : e < j.n) (hp : p < planes)
    (hb : b < size) :
    readByte (moveOf i j s.memory) (j.dst + p * j.pitch + e * size + b) =
      readByte s.memory (j.src + (planes * e + p) * size + b) := by
  cases i <;> cases hi
  · exact (split3_spec 4 s j hchecked).2 e p b he hp hb
  · exact (split3_spec 8 s j hchecked).2 e p b he hp hb
  · exact (splitBytes_spec 2 (by decide) s j hchecked).2 e p b he hp hb
  · exact (splitBytes_spec 4 (by decide) s j hchecked).2 e p b he hp hb
  · exact (splitBytes_spec 8 (by decide) s j hchecked).2 e p b he hp hb

/-- Every merge puts byte b of element e of plane p at byte b of element P·e + p of the array. -/
theorem moveOf_merge {i : Instr} {planes size : Nat} (hi : shapeOf i = .merge planes size) {s : State} {j : Snapshot}
    (hchecked : precheck (.merge planes size) s.platform j = none) {e p b : Nat} (he : e < j.n) (hp : p < planes)
    (hb : b < size) :
    readByte (moveOf i j s.memory) (j.dst + (planes * e + p) * size + b) =
      readByte s.memory (j.src + p * j.pitch + e * size + b) := by
  cases i <;> cases hi
  · exact (merge3_spec 4 s j hchecked).2 e p b he hp hb
  · exact (merge3_spec 8 s j hchecked).2 e p b he hp hb
  · exact (mergeBytes_spec 2 s j hchecked).2 e p b he hp hb
  · exact (mergeBytes_spec 4 s j hchecked).2 e p b he hp hb
  · exact (mergeBytes_spec 8 s j hchecked).2 e p b he hp hb

/-- Every command of a split's shape splits planes. -/
theorem splitsPlanes_of_shape {i : Instr} {planes size : Nat} (hi : shapeOf i = .split planes size) :
    SplitsPlanes i planes size := by
  intro s job hruns
  obtain ⟨t, hexec, hcompleted, hkept, hmemory, hframe⟩ := transposer_completes hi (.inl rfl) hruns
  refine ⟨t, hexec, hcompleted, hkept, fun e p b he hp hb => ?_, hframe⟩
  rw [State.byte, hmemory, moveOf_split hi hruns.checked he hp hb, State.byte]

/-- Every command of a merge's shape merges planes. -/
theorem mergesPlanes_of_shape {i : Instr} {planes size : Nat} (hi : shapeOf i = .merge planes size) :
    MergesPlanes i planes size := by
  intro s job hruns
  obtain ⟨t, hexec, hcompleted, hkept, hmemory, hframe⟩ := transposer_completes hi (.inr rfl) hruns
  refine ⟨t, hexec, hcompleted, hkept, fun e p b he hp hb => ?_, hframe⟩
  rw [State.byte, hmemory, moveOf_merge hi hruns.checked he hp hb, State.byte]

/-- Settles O24: both commands have a split's shape. -/
theorem splitThreePutsEachElementInItsPlane : Obligations.SplitThreePutsEachElementInItsPlane :=
  ⟨splitsPlanes_of_shape rfl, splitsPlanes_of_shape rfl⟩

/-- Settles O25: both commands have a merge's shape. -/
theorem mergeThreeInterleavesThePlanes : Obligations.MergeThreeInterleavesThePlanes :=
  ⟨mergesPlanes_of_shape rfl, mergesPlanes_of_shape rfl⟩

/-- Settles O26: the three commands have a split's shape, with elements of one byte. -/
theorem splitBytesPutsEachByteInItsPlane : Obligations.SplitBytesPutsEachByteInItsPlane :=
  ⟨splitsPlanes_of_shape rfl, splitsPlanes_of_shape rfl, splitsPlanes_of_shape rfl⟩

/-- Settles O27: the three commands have a merge's shape, with elements of one byte. -/
theorem mergeBytesAssemblesEachValue : Obligations.MergeBytesAssemblesEachValue :=
  ⟨mergesPlanes_of_shape rfl, mergesPlanes_of_shape rfl, mergesPlanes_of_shape rfl⟩

/-- Every byte of the interleaved array is byte b of an element P·e + p. -/
theorem exists_cell {planes n size x : Nat} (hx : x < planes * n * size) :
    ∃ e p b, e < n ∧ p < planes ∧ b < size ∧ x = (planes * e + p) * size + b := by
  have hsize : 0 < size := Nat.pos_of_mul_pos_left (Nat.zero_lt_of_lt hx)
  have helement : x / size < planes * n := (Nat.div_lt_iff_lt_mul hsize).2 hx
  have hplanes : 0 < planes := Nat.pos_of_mul_pos_right (Nat.zero_lt_of_lt helement)
  refine ⟨x / size / planes, x / size % planes, x % size, ?_, Nat.mod_lt _ hplanes, Nat.mod_lt _ hsize, ?_⟩
  · exact Nat.div_lt_of_lt_mul helement
  · rw [Nat.div_add_mod, Nat.mul_comm, Nat.div_add_mod]

/-- A merge of a split's planes reads each byte where the split put it (R114). -/
theorem splitThenMerge_of_planes {split merge : Instr} {planes size : Nat} (hsplit : SplitsPlanes split planes size)
    (hmerge : MergesPlanes merge planes size) : SplitThenMerge split merge planes size := by
  intro s job t u job' hruns hexec hmemory hruns' hsrc hlen hpitch
  obtain ⟨t', hexec', -, -, hsplitBytes, -⟩ := hsplit s job hruns
  obtain rfl : t = t' := Host.Outcome.next.inj (hexec.symm.trans hexec')
  obtain ⟨v, hexecMerge, -, -, hmergeBytes, -⟩ := hmerge u job' hruns'
  refine ⟨v, hexecMerge, fun x hx => ?_⟩
  obtain ⟨e, p, b, he, hp, hb, rfl⟩ := exists_cell hx
  have hn : job'.snap.n = job.snap.n := by rw [Snapshot.n, hlen, Snapshot.n]
  have hplane : job'.snap.src + p * job'.snap.pitch = job.snap.dst + p * job.snap.pitch := by
    simp only [Snapshot.src, Snapshot.dst, Snapshot.pitch, hsrc, hpitch]
  calc v.byte (job'.snap.dst + ((planes * e + p) * size + b))
      = u.byte (job'.snap.src + p * job'.snap.pitch + e * size + b) := by
        rw [← Nat.add_assoc, hmergeBytes e p b (hn ▸ he) hp hb]
    _ = t.byte (job.snap.dst + p * job.snap.pitch + e * size + b) := by
        rw [hplane, State.byte, hmemory, State.byte]
    _ = s.byte (job.snap.src + ((planes * e + p) * size + b)) := by
        rw [hsplitBytes e p b he hp hb, Nat.add_assoc]

/-- Settles O29: each pair is a split and a merge of the same planes. -/
theorem mergeOfSplitRestoresTheInput : Obligations.MergeOfSplitRestoresTheInput := by
  unfold Obligations.MergeOfSplitRestoresTheInput
  have hpair : ∀ {split merge planes size}, shapeOf split = .split planes size → shapeOf merge = .merge planes size →
      SplitThenMerge split merge planes size := fun hsplit hmerge =>
    splitThenMerge_of_planes (splitsPlanes_of_shape hsplit) (mergesPlanes_of_shape hmerge)
  exact ⟨hpair rfl rfl, hpair rfl rfl, hpair rfl rfl, hpair rfl rfl, hpair rfl rfl⟩

end Sys2Proof.Machine
end

section
/-! The predictor's core: the hash functions, prediction and update, and code selection (41_predictor.md R131 to R136,
R140). -/

namespace Sys2Proof.Machine

/-! ### Hashes -/

/-- The form of the reference functions in numbers (R140). -/
theorem shiftXorHash_eq (a b h v e : Nat) : shiftXorHash a b h v e = ((h * 2 ^ a) ^^^ (v / 2 ^ b)) % 2 ^ e := by
  rw [shiftXorHash, Nat.and_two_pow_sub_one_eq_mod, Nat.shiftLeft_eq, Nat.shiftRight_eq_div_pow]

theorem shiftXorHash_lt (a b h v e : Nat) : shiftXorHash a b h v e < 2 ^ e := by
  rw [shiftXorHash_eq]
  exact Nat.mod_lt _ (Nat.two_pow_pos e)

theorem referenceHash_inRange (k : Width) : (referenceHash k).inRange := by
  intro old v e
  cases k <;> exact ⟨shiftXorHash_lt _ _ _ _ _, shiftXorHash_lt _ _ _ _ _⟩

/-- The custom functions stay in range because they are cut to it (log 8). -/
theorem customHash_inRange (k : Width) : (customHash k).inRange := by
  intro old v e
  have hpos := Nat.two_pow_pos e
  cases k <;> exact ⟨Nat.mod_lt _ hpos, Nat.mod_lt _ hpos⟩

theorem hashPair_of_reference {p : Platform} (hp : p.hash = .reference) (k : Width) : hashPair p k = referenceHash k := by
  rw [hashPair, hp]

theorem hashPair_of_custom {p : Platform} (hp : p.hash = .custom) (k : Width) : hashPair p k = customHash k := by
  rw [hashPair, hp]

/-- Settles O36: both kinds of functions stay in range, and the reference ones are `shiftXorHash` at the shifts of R140. -/
theorem hashesStayInTheirTable : Obligations.HashesStayInTheirTable := by
  unfold Obligations.HashesStayInTheirTable
  refine ⟨fun p k => ?_, fun p hp h e => ?_⟩
  · cases hp : p.hash with
    | reference => exact hashPair_of_reference hp k ▸ referenceHash_inRange k
    | custom => exact hashPair_of_custom hp k ▸ customHash_inRange k
  · simp only [hashPair_of_reference hp]
    exact ⟨fun v => ⟨shiftXorHash_eq 6 24 h v.toNat e, shiftXorHash_eq 2 20 h v.toNat e⟩,
      fun v => ⟨shiftXorHash_eq 6 48 h v.toNat e, shiftXorHash_eq 2 40 h v.toNat e⟩⟩

/-! ### Prediction and update -/

/-- Settles O37: prediction reads both tables at the old hashes, and a table write changes the slot it names alone
(`Sparse.get_put`). -/
theorem updateWritesTheSlotThePredictionRead : Obligations.UpdateWritesTheSlotThePredictionRead := by
  unfold Obligations.UpdateWritesTheSlotThePredictionRead
  intro w h e1 e2 p v
  exact ⟨rfl, rfl, fun x => Sparse.get_put _ p.table1 p.hash1 x v,
    fun x => Sparse.get_put _ p.table2 p.hash2 x (v - p.lastValue), rfl, rfl, rfl⟩

/-! ### Code selection -/

/-- nb(r) is the least number of bytes that holds r (00_scope.md R9). -/
theorem nb_le_iff (r n : Nat) : nb r ≤ n ↔ r < 2 ^ (8 * n) :=
  ⟨fun h => lt_of_nb.trans_le (Nat.pow_le_pow_right (by decide) (Nat.mul_le_mul_left 8 h)), nb_le_of_lt⟩

/-- be_value reads its last byte as the least significant one (00_scope.md R9). -/
theorem beValue_concat (bs : List Byte) (b : Byte) : beValue (bs ++ [b]) = 256 * beValue bs + b.toNat := by
  rw [beValue, List.foldl_append, List.foldl_cons, List.foldl_nil, ← beValue, Nat.mul_comm]

section SelectSlot
variable {lmax r1 r2 : Nat}

/-- residual2 where it is strictly shorter, counted as at least one byte (R136). -/
theorem selectSlot_second (h : max 1 (nb r2) < nb r1) :
    selectSlot lmax r1 r2 = { code := lmax + max 1 (nb r2), field := beBytes r2 (max 1 (nb r2)) } := if_pos h

/-- residual1 elsewhere (R135). -/
theorem selectSlot_first (h : ¬ max 1 (nb r2) < nb r1) :
    selectSlot lmax r1 r2 = { code := nb r1, field := beBytes r1 (nb r1) } := if_neg h

/-- The field is as long as the shorter candidate's. -/
theorem selectSlot_field_length : (selectSlot lmax r1 r2).field.length = min (nb r1) (max 1 (nb r2)) := by
  by_cases h : max 1 (nb r2) < nb r1
  · rw [selectSlot_second h, beBytes_length, Nat.min_eq_right h.le]
  · rw [selectSlot_first h, beBytes_length, Nat.min_eq_left (Nat.not_lt.1 h)]

/-- A code above `lmax` names residual2. -/
theorem lt_selectSlot_code_iff (hr1 : nb r1 ≤ lmax) : lmax < (selectSlot lmax r1 r2).code ↔ max 1 (nb r2) < nb r1 := by
  by_cases h : max 1 (nb r2) < nb r1
  · rw [selectSlot_second h]
    simp only [h, iff_true]
    omega
  · rw [selectSlot_first h]
    simp only [h, iff_false, Nat.not_lt, hr1]

/-- "Code 0 arises exactly when residual1 = 0" (R136). -/
theorem selectSlot_code_eq_zero_iff : (selectSlot lmax r1 r2).code = 0 ↔ r1 = 0 := by
  refine Iff.trans ?_ (nb_eq_zero (r := r1))
  by_cases h : max 1 (nb r2) < nb r1
  · rw [selectSlot_second h]
    simp only
    omega
  · rw [selectSlot_first h]

end SelectSlot

/-- Settles O38: `selectSlot_spec` and the facts above about the two branches of the selection; the encoder's slot is the
selection by definition. -/
theorem codeSelectionPrefersTheShorterResidual : Obligations.CodeSelectionPrefersTheShorterResidual := by
  unfold Obligations.CodeSelectionPrefersTheShorterResidual
  refine ⟨fun k l b hk r1 r2 => ?_, nb_le_iff, ⟨beValue_nil, beValue_concat⟩, fun k h e1 e2 p v => rfl⟩
  have hnumbers : l = k.bytes ∧ b = k.codeBits := by
    simp only [List.mem_cons, Prod.mk.injEq, List.not_mem_nil, or_false] at hk
    rcases hk with ⟨rfl, rfl, rfl⟩ | ⟨rfl, rfl, rfl⟩ <;> exact ⟨rfl, rfl⟩
  obtain ⟨rfl, rfl⟩ := hnumbers
  obtain ⟨hcode, hlen, -, hvalue⟩ := selectSlot_spec k r1 r2
  refine ⟨hcode, hlen, selectSlot_field_length, lt_selectSlot_code_iff (nb_toNat_le k r1), hvalue, ?_⟩
  rw [selectSlot_code_eq_zero_iff, BitVec.toNat_eq, BitVec.ofNat_eq_ofNat, BitVec.toNat_zero]

end Sys2Proof.Machine
end

section
/-! A stream slot by slot: header, records and padding in numbers, and its size (41_predictor.md R137 to R139, R142, R143;
30_encoding.md R75 to R79, R83). -/

namespace Sys2Proof.Machine

/-! ### The header -/

/-- The header byte in numbers (30_encoding.md R76). -/
theorem headerByte_eq {e1 e2 : Nat} (h2 : e2 ≤ 30) : headerByte e1 e2 = BitVec.ofNat 8 (16 * (e1 / 2) + e2 / 2) := by
  have hlow : e2 / 2 < 2 ^ 4 := by omega
  rw [headerByte, Nat.shiftRight_eq_div_pow, Nat.shiftRight_eq_div_pow, pow_one, ← Nat.shiftLeft_add_eq_or_of_lt hlow,
    Nat.shiftLeft_eq, Nat.mul_comm]

/-- Byte k of v by division (00_scope.md R9). -/
theorem byteOf_eq (v k : Nat) : byteOf v k = BitVec.ofNat 8 (v / 2 ^ (8 * k)) := by
  rw [byteOf, Nat.shiftRight_eq_div_pow]

/-- The count's four bytes, most significant first (30_encoding.md R77). -/
theorem beBytes_four (n : Nat) : beBytes n 4 = [24, 16, 8, 0].map fun y => BitVec.ofNat 8 (n / 2 ^ y) := by
  simp only [beBytes, byteOf_eq, List.map_cons, List.map_nil, Nat.reduceMul]

/-- A part of a written sequence reads back. -/
theorem readBytes_writeBytes_part (m : Memory) (a : Nat) (bs : List Byte) {i n : Nat} (h : i + n ≤ bs.length) :
    readBytes (writeBytes m a bs) (a + i) n = (bs.drop i).take n := by
  refine List.ext_getElem (by simp; omega) fun j h1 h2 => ?_
  rw [readBytes_length] at h1
  rw [readBytes_getElem, Nat.add_assoc, readByte_writeBytes m bs (by omega), List.getElem_take, List.getElem_drop]

/-- The header in numbers (30_encoding.md R76, R77; 41_predictor.md R143). -/
theorem readHeader_eq (m : Memory) (a : Nat) :
    readHeader m a =
      { e1 := 2 * ((readByte m a).toNat / 16), e2 := 2 * ((readByte m a).toNat % 16)
        count := 2 ^ 24 * (readByte m (a + 1)).toNat + 2 ^ 16 * (readByte m (a + 2)).toNat +
          2 ^ 8 * (readByte m (a + 3)).toNat + (readByte m (a + 4)).toNat } := by
  have hbyte := (readByte m a).isLt
  simp only [readHeader, Header.mk.injEq, readBytes, beValue_cons, beValue_nil, List.length_cons, List.length_nil,
    BitVec.extractLsb'_toNat, Nat.shiftRight_eq_div_pow, Nat.add_assoc, Nat.reduceAdd]
  omega

/-- A stream's first byte and the four after it, read back as a header (41_predictor.md R137, R143). -/
theorem readHeader_encodeStream (k : Width) (h : HashPair k.bits) {e1 e2 : Nat} (vs : List (BitVec k.bits)) (m : Memory)
    (a : Nat) (heven1 : e1 % 2 = 0) (hmax1 : e1 ≤ 30) (heven2 : e2 % 2 = 0) (hmax2 : e2 ≤ 30) (hcount : vs.length < 2 ^ 32) :
    readHeader (writeBytes m a (encodeStream k h e1 e2 vs)) a = { e1 := e1, e2 := e2, count := vs.length } := by
  have hlen := encodeStream_length k h e1 e2 vs
  have hfirst : readByte (writeBytes m a (encodeStream k h e1 e2 vs)) a = BitVec.ofNat 8 (16 * (e1 / 2) + e2 / 2) := by
    rw [← headerByte_eq hmax2]
    exact readByte_writeBytes m (encodeStream k h e1 e2 vs) (j := 0) (by omega)
  have hnext : readBytes (writeBytes m a (encodeStream k h e1 e2 vs)) (a + 1) 4 = beBytes vs.length 4 := by
    rw [readBytes_writeBytes_part m a _ (by omega), encodeStream, List.cons_append, List.drop_one, List.tail_cons,
      List.take_left' (beBytes_length _ 4)]
  simp only [readHeader, hfirst, hnext, beValue_beBytes, Header.mk.injEq, BitVec.extractLsb'_toNat, BitVec.toNat_ofNat,
    Nat.shiftRight_eq_div_pow]
  omega

/-! ### Slots in order -/

section Slots
variable (k : Width) (h : HashPair k.bits) (e1 e2 : Nat) (vs : List (BitVec k.bits))

/-- A slot of a value, and the state it leaves: the encoder's for that value (41_predictor.md R138). -/
theorem encodeValue_stateAfter {i : Nat} (hi : i < vs.length) :
    encodeValue k h e1 e2 (stateAfter k h e1 e2 (vs.take i)) vs[i] =
      (slotAt k h e1 e2 vs i, stateAfter k h e1 e2 (vs.take (i + 1))) := by
  have hstate : stateAfter k h e1 e2 (vs.take (i + 1)) =
      (stateAfter k h e1 e2 (vs.take i)).predict.update h e1 e2 vs[i] := by
    rw [stateAfter, List.take_succ_eq_append_getElem hi, List.foldl_append]
    rfl
  rw [slotAt, dif_pos hi, hstate]
  rfl

/-- A slot past the last value is the padding entry (30_encoding.md R83). -/
theorem slotAt_of_ge {i : Nat} (hi : vs.length ≤ i) : slotAt k h e1 e2 vs i = paddingSlot := dif_neg (Nat.not_lt.2 hi)

/-- The slots of a group that begins at value `i`. -/
theorem encodeSlots_eq (j i : Nat) :
    encodeSlots k h e1 e2 j (stateAfter k h e1 e2 (vs.take i)) (vs.drop i) =
      ((List.range j).map fun y => slotAt k h e1 e2 vs (i + y), stateAfter k h e1 e2 (vs.take (i + j))) := by
  induction j generalizing i with
  | zero => rfl
  | succ j ih =>
    have hnext := ih (i + 1)
    simp only [Nat.add_right_comm i 1] at hnext
    rw [List.range_succ_eq_map, List.map_cons, List.map_map]
    rcases Nat.lt_or_ge i vs.length with hi | hi
    · rw [List.drop_eq_getElem_cons hi, encodeSlots, encodeValue_stateAfter k h e1 e2 vs hi]
      simp only [hnext]
      rfl
    · rw [List.take_of_length_le (by omega), List.drop_eq_nil_of_le (by omega)] at hnext
      rw [List.take_of_length_le hi, List.drop_eq_nil_of_le hi, encodeSlots, Nat.add_zero, slotAt_of_ge k h e1 e2 vs hi]
      simp only [hnext]
      rfl

/-- The records of the groups that begin at value `i` (41_predictor.md R138). -/
theorem encodeGroups_eq (m i : Nat) :
    encodeGroups k h e1 e2 m (stateAfter k h e1 e2 (vs.take i)) (vs.drop i) =
      (List.range m).flatMap fun x =>
        groupRecord k ((List.range k.group).map fun j => slotAt k h e1 e2 vs (i + (x * k.group + j))) := by
  induction m generalizing i with
  | zero => rfl
  | succ m ih =>
    rw [encodeGroups, encodeSlots_eq, List.drop_drop, List.range_succ_eq_map, List.flatMap_cons, List.flatMap_map]
    have hindex : ∀ x y, i + k.group + (x * k.group + y) = i + (x.succ * k.group + y) := fun x y => by
      rw [Nat.succ_mul]
      omega
    simp only [ih, hindex, Nat.zero_mul, Nat.zero_add]

/-- A stream in numbers (41_predictor.md R137, R138; 30_encoding.md R75 to R79). -/
theorem encodeStream_eq (hmax2 : e2 ≤ 30) :
    encodeStream k h e1 e2 vs =
      BitVec.ofNat 8 (16 * (e1 / 2) + e2 / 2) :: ([24, 16, 8, 0].map fun y => BitVec.ofNat 8 (vs.length / 2 ^ y)) ++
        (List.range (ceilDiv vs.length k.group)).flatMap fun x =>
          groupRecord k ((List.range k.group).map fun j => slotAt k h e1 e2 vs (x * k.group + j)) := by
  have hgroups := encodeGroups_eq k h e1 e2 vs (ceilDiv vs.length k.group) 0
  simp only [Nat.zero_add] at hgroups
  rw [encodeStream, headerByte_eq hmax2, beBytes_four, ← hgroups]
  rfl

end Slots

/-! ### Records -/

/-- A record is its code bytes and its fields in slot order, and each code is read from the code bytes, the first in the most
significant bits (30_encoding.md R78, R79). -/
theorem groupRecord_codes (k : Width) (slots : List Slot) (hlen : slots.length = k.group)
    (hcodes : ∀ x ∈ slots, x.code < 2 ^ k.codeBits) {j : Nat} (hj : j < slots.length) :
    beValue (packCodes k (slots.map Slot.code)) / 2 ^ (k.codeBits * (k.group - 1 - j)) % 2 ^ k.codeBits = slots[j].code := by
  have hunpack := unpackCodes_packCodes k (slots.map Slot.code) (by rw [List.length_map, hlen])
    (fun c hc => by obtain ⟨x, hx, rfl⟩ := List.mem_map.1 hc; exact hcodes x hx)
  rw [unpackCodes_eq] at hunpack
  have hcode := congrArg (fun l : List Nat => l[j]?) hunpack
  simpa [hj, hlen ▸ hj] using hcode

/-- Settles O39: the header by division, the slots in order by `encodeGroups_eq`, the codes of a record by
`unpackCodes_packCodes`. -/
theorem headerReadsBack : Obligations.HeaderReadsBack := by
  unfold Obligations.HeaderReadsBack
  refine ⟨fun k h e1 e2 vs m a heven1 hmax1 heven2 hmax2 hcount =>
      readHeader_encodeStream k h vs m a heven1 hmax1 heven2 hmax2 hcount,
    readHeader_eq, fun k g cb b l hk => ?_, fun w x => ⟨rfl, rfl, rfl, rfl, rfl⟩⟩
  obtain ⟨rfl, rfl, rfl, rfl⟩ := width_numbers hk
  refine ⟨⟨rfl, rfl, rfl, rfl⟩, fun h e1 e2 vs _ hmax2 => encodeStream_eq k h e1 e2 vs hmax2, fun slots hlen hcodes => ?_⟩
  exact ⟨packCodes k (slots.map Slot.code), packCodes_length k _, rfl,
    fun j hj => groupRecord_codes k slots hlen hcodes hj⟩

end Sys2Proof.Machine
end

section
/-! Decoding after encoding: slots, groups and streams give their values back, and the padding of the last group is never
read (41_predictor.md R146, R151; 30_encoding.md R83, R84). What the decoder did not need may be anything (I24). -/

namespace Sys2Proof.Machine

theorem group_pos (k : Width) : 0 < k.group := by cases k <;> decide

/-- ceilDiv is the ceiling: the least number of groups of `g` that hold `n` (00_scope.md R8). -/
theorem ceilDiv_le_iff {n g m : Nat} (hg : 0 < g) : ceilDiv n g ≤ m ↔ n ≤ m * g := by
  rw [ceilDiv, Nat.div_le_iff_le_mul_add_pred hg, Nat.mul_comm]
  omega

section RoundTrip
variable (k : Width) (h : HashPair k.bits) (e1 e2 : Nat)

/-- With no value left a group is padding, and the state stays (41_predictor.md R139). -/
theorem encodeSlots_nil (j : Nat) (p : PredictionState k.bits) :
    encodeSlots k h e1 e2 j p [] = (List.replicate j paddingSlot, p) := by
  induction j with
  | zero => rfl
  | succ j ih => rw [encodeSlots, ih, List.replicate_succ]

/-- The slots of a group decode to its values: their fields stand first, and after them one zero byte for each padding entry,
which the decoder leaves where it is. -/
theorem decodeSlots_encodeSlots (j : Nat) (p : PredictionState k.bits) (vs : List (BitVec k.bits)) :
    ∃ fields, (encodeSlots k h e1 e2 j p vs).1.flatMap Slot.field = fields ++ List.replicate (j - vs.length) 0#8 ∧
      ∀ pos rest, decodeSlots k h e1 e2 (((encodeSlots k h e1 e2 j p vs).1.map Slot.code).take vs.length) p
          { pos := pos, rest := fields ++ rest } =
        some (vs.take j, (encodeSlots k h e1 e2 j p vs).2, { pos := pos + fields.length, rest := rest }) := by
  induction vs generalizing j p with
  | nil =>
    rw [encodeSlots_nil]
    exact ⟨[], by simp [paddingSlot, List.flatMap_replicate], fun pos rest => by simp [decodeSlots]⟩
  | cons v vs ih =>
    cases j with
    | zero => exact ⟨[], by simp [encodeSlots], fun pos rest => by simp [encodeSlots, decodeSlots]⟩
    | succ j =>
      obtain ⟨fields, hfields, hdecode⟩ := ih j (encodeValue k h e1 e2 p v).2
      refine ⟨(encodeValue k h e1 e2 p v).1.field ++ fields, ?_, fun pos rest => ?_⟩
      · simp only [encodeSlots, List.flatMap_cons, hfields, List.append_assoc, List.length_cons, Nat.add_sub_add_right]
      · simp only [encodeSlots, List.map_cons, List.length_cons, List.take_succ_cons, decodeSlots, List.append_assoc,
          decodeValue_encodeValue, hdecode, List.length_append, Nat.add_assoc]

/-- A turn of the decoder's loop on a record that the encoder made (R146). -/
theorem decodeGroups_groupRecord {n : Nat} (hn : 0 < n) (slots : List Slot) (hlen : slots.length = k.group)
    (hcodes : ∀ x ∈ slots, x.code < 2 ^ k.codeBits) (p : PredictionState k.bits) (pos : Nat) (rest : List Byte) :
    decodeGroups k h e1 e2 (ceilDiv n k.group) n p { pos := pos, rest := packCodes k (slots.map Slot.code) ++ rest } =
      (decodeSlots k h e1 e2 ((slots.map Slot.code).take n) p { pos := pos + k.codeBytes, rest := rest }).bind
        fun (vs, p, r) =>
          (decodeGroups k h e1 e2 (ceilDiv (n - k.group) k.group) (n - k.group) p r).map fun (ws, r) => (vs ++ ws, r) := by
  have hpack := packCodes_length k (slots.map Slot.code)
  have hunpack := unpackCodes_packCodes k (slots.map Slot.code) (by rw [List.length_map, hlen])
    (List.forall_mem_map.2 hcodes)
  have htake : (slots.map Slot.code).take (min k.group n) = (slots.map Slot.code).take n := by
    rw [Nat.min_comm, ← List.take_take, List.take_of_length_le (l := slots.map Slot.code)]
    rw [List.length_map, hlen]
  rw [decodeGroups_of_codes k h e1 e2 hn p _ (by simp only [List.length_append]; omega)]
  simp only [List.take_left' hpack, List.drop_left' hpack, hunpack, htake, show n - min k.group n = n - k.group by omega]

/-- A group that is not full is the last one, so its padding is that of the whole stream (30_encoding.md R83). -/
theorem padding_append_encodeGroups {m : Nat} {vs : List (BitVec k.bits)} (hm : ceilDiv vs.length k.group = m + 1)
    (q : PredictionState k.bits) {body : List Byte}
    (hbody : encodeGroups k h e1 e2 m q (vs.drop k.group) =
      body ++ List.replicate (m * k.group - (vs.length - k.group)) 0#8) :
    List.replicate (k.group - vs.length) 0#8 ++ encodeGroups k h e1 e2 m q (vs.drop k.group) =
      body ++ List.replicate ((m + 1) * k.group - vs.length) 0#8 := by
  rcases Nat.lt_or_ge vs.length k.group with hshort | hfull
  · have hone : ceilDiv vs.length k.group ≤ 1 := (ceilDiv_le_iff (group_pos k)).2 (by rw [Nat.one_mul]; exact hshort.le)
    obtain rfl : m = 0 := by omega
    obtain ⟨rfl, -⟩ := List.append_eq_nil_iff.1 hbody.symm
    rw [encodeGroups, List.append_nil, List.nil_append, Nat.one_mul]
  · rw [hbody, Nat.sub_eq_zero_of_le hfull, List.replicate_zero, List.nil_append,
      show m * k.group - (vs.length - k.group) = (m + 1) * k.group - vs.length by rw [Nat.succ_mul]; omega]

/-- Groups decode to their values: the bytes that the decoder needs stand first, and after them one zero byte for each padding
entry of the last group (R146, R151; 30_encoding.md R84). -/
theorem decodeGroups_encodeGroups (m : Nat) (p : PredictionState k.bits) (vs : List (BitVec k.bits))
    (hm : ceilDiv vs.length k.group = m) :
    ∃ body, encodeGroups k h e1 e2 m p vs = body ++ List.replicate (m * k.group - vs.length) 0#8 ∧
      ∀ pos tail, decodeGroups k h e1 e2 m vs.length p { pos := pos, rest := body ++ tail } =
        some (vs, { pos := pos + body.length, rest := tail }) := by
  have hg := group_pos k
  induction m generalizing p vs with
  | zero =>
    have hnone := (ceilDiv_le_iff hg).1 hm.le
    obtain rfl := List.length_eq_zero_iff.1 (show vs.length = 0 by omega)
    exact ⟨[], by simp [encodeGroups], fun pos tail => by simp [decodeGroups]⟩
  | succ m ih =>
    have hn : 0 < vs.length := by
      by_contra hzero
      rw [Nat.eq_zero_of_not_pos hzero, ceilDiv_zero] at hm
      omega
    have hleft : ceilDiv (vs.length - k.group) k.group = m := by
      rw [ceilDiv_succ hg hn] at hm
      omega
    obtain ⟨hlen, hspec⟩ := encodeSlots_spec k h e1 e2 k.group p vs
    obtain ⟨fields, hfields, hdecode⟩ := decodeSlots_encodeSlots k h e1 e2 k.group p vs
    rw [encodeGroups]
    generalize encodeSlots k h e1 e2 k.group p vs = group at hlen hspec hfields hdecode ⊢
    obtain ⟨slots, q⟩ := group
    dsimp only at hfields hdecode
    obtain ⟨body, hbody, hgroups⟩ := ih q (vs.drop k.group) (by rwa [List.length_drop])
    rw [List.length_drop] at hbody hgroups
    refine ⟨packCodes k (slots.map Slot.code) ++ (fields ++ body), ?_, fun pos tail => ?_⟩
    · simp only [groupRecord, hfields, List.append_assoc, padding_append_encodeGroups k h e1 e2 hm q hbody]
    · rw [← hm, List.append_assoc, decodeGroups_groupRecord k h e1 e2 hn slots hlen fun x hx => (hspec x hx).1,
        List.append_assoc, hdecode, hleft]
      simp only [Option.bind_some, hgroups, Option.map_some, List.take_append_drop, List.length_append, packCodes_length,
        Nat.add_assoc]

/-- A stream after its header decodes to its values, whatever follows it, and the decoder stops before the padding (R151,
30_encoding.md R84). -/
theorem decodeStream_encodeStream (vs : List (BitVec k.bits)) (tail : List Byte) :
    ∃ pos, pos + (ceilDiv vs.length k.group * k.group - vs.length) = (encodeStream k h e1 e2 vs).length ∧
      decodeStream k h e1 e2 vs.length ((encodeStream k h e1 e2 vs).drop 5 ++ tail) = some (vs, pos) := by
  obtain ⟨body, hbody, hgroups⟩ := decodeGroups_encodeGroups k h e1 e2 _ (PredictionState.zero k.bits) vs rfl
  have hdrop : (encodeStream k h e1 e2 vs).drop 5 =
      body ++ List.replicate (ceilDiv vs.length k.group * k.group - vs.length) 0#8 := by
    rw [← hbody, encodeStream, List.cons_append, List.drop_succ_cons, List.drop_left' (beBytes_length _ 4)]
  refine ⟨5 + body.length, ?_, ?_⟩
  · rw [encodeStream_length, hbody, List.length_append, List.length_replicate, Nat.add_assoc]
  · rw [decodeStream_eq, hdrop, List.append_assoc, hgroups, Option.map_some]

end RoundTrip

/-- Settles O41: `decodeStream_encodeStream`, with G written as a number. -/
theorem decoderInvertsEncoder : Obligations.DecoderInvertsEncoder := by
  unfold Obligations.DecoderInvertsEncoder
  intro k g hk h e1 e2 vs tail
  obtain rfl : g = k.group := by
    simp only [List.mem_cons, Prod.mk.injEq, List.not_mem_nil, or_false] at hk
    rcases hk with ⟨rfl, rfl⟩ | ⟨rfl, rfl⟩ <;> rfl
  exact decodeStream_encodeStream k h e1 e2 vs tail

/-- All that decoding a stream does when it answers: it takes the bytes `used` off the input and looks at nothing else
(R146). -/
theorem decodeStream_some {k : Width} {h : HashPair k.bits} {e1 e2 n pos : Nat} {rest : List Byte}
    {vs : List (BitVec k.bits)} (hd : decodeStream k h e1 e2 n rest = some (vs, pos)) :
    vs.length = n ∧ ∃ used left, rest = used ++ left ∧ pos = 5 + used.length ∧
      ∀ other, decodeStream k h e1 e2 n (used ++ other) = some (vs, pos) := by
  simp only [decodeStream_eq, Option.map_eq_some_iff, Prod.exists, Prod.mk.injEq] at hd
  obtain ⟨vs, r, hgroups, rfl, rfl⟩ := hd
  obtain ⟨hlen, used, hrest, hpos, hsame⟩ := decodeGroups_some rfl hgroups
  refine ⟨hlen, used, r.rest, hrest, hpos, fun other => ?_⟩
  rw [decodeStream_eq, hsame, Option.map_some, hpos]

/-- Settles O43: the bytes that the decoder used stand first, whatever follows. -/
theorem decoderIgnoresWhatFollows : Obligations.DecoderIgnoresWhatFollows := by
  unfold Obligations.DecoderIgnoresWhatFollows
  intro k h e1 e2 n rest tail vs pos hd
  obtain ⟨hlen, used, left, rfl, rfl, hsame⟩ := decodeStream_some hd
  refine ⟨?_, ?_, hlen⟩
  · rw [List.append_assoc, hsame]
  · rw [List.length_append]
    omega

end Sys2Proof.Machine
end

section
/-! The predictor's commands: the error their precheck or their length checks report, and how they complete
(41_predictor.md R142 to R151; 60_exceptions.md R194 to R202). -/

namespace Sys2Proof.Machine

/-! ### The precheck, by addresses -/

section Precheck
variable {r : Regions} {p : Platform}

theorem precheckStream_range (h : r.passesEnd) : precheckStream p r = some .range := by
  simp [precheckStream, outOfRange_iff, h]

theorem precheckStream_overlap (hrange : ¬ r.passesEnd) (h : r.collide) : precheckStream p r = some .overlap := by
  simp [precheckStream, outOfRange_iff, overlapping_iff, hrange, h]

theorem precheckStream_busError (hrange : ¬ r.passesEnd) (hoverlap : ¬ r.collide) (h : r.missAddress p) :
    precheckStream p r = some .busError := by
  simp [precheckStream, outOfRange_iff, overlapping_iff, meetsAbsent_iff, hrange, hoverlap, h]

theorem precheckStream_passes (hrange : ¬ r.passesEnd) (hoverlap : ¬ r.collide) (hpresent : ¬ r.missAddress p) :
    precheckStream p r = none := by
  simp [precheckStream, outOfRange_iff, overlapping_iff, meetsAbsent_iff, hrange, hoverlap, hpresent]

end Precheck

@[simp] theorem shapeOf_compressOf (k : Width) : shapeOf (compressOf k) = .compress k := by cases k <;> rfl
@[simp] theorem shapeOf_decompressOf (k : Width) : shapeOf (decompressOf k) = .decompress k := by cases k <;> rfl
@[simp] theorem bodyOf_compressOf (k : Width) (s : State) : bodyOf (compressOf k) s = compressBody k s := by cases k <;> rfl
@[simp] theorem bodyOf_decompressOf (k : Width) (s : State) : bodyOf (decompressOf k) s = decompressBody k s := by
  cases k <;> rfl

/-- The checks of a predictor command in their order: what each reports, and that nothing else stops it (precheck_P). -/
theorem predictor_checks {i : Instr} {k : Width} (hi : shapeOf i = .compress k ∨ shapeOf i = .decompress k) {s : State}
    {job : Job} (hflight : InFlight s job) : ChecksStream i (shapeOf i) s job (regionsOf (shapeOf i) job.snap) := by
  have hprecheck : precheck (shapeOf i) s.platform job.snap =
      precheckStream s.platform (regionsOf (shapeOf i) job.snap) := by
    rcases hi with hi | hi <;> rw [hi] <;> rfl
  have hbare : failedOf i s = fun _ e => Completion.bare e s.memory := by
    cases i <;> rcases hi with hi | hi <;> cases hi <;> rfl
  have hfails : ∀ e, precheckStream s.platform (regionsOf (shapeOf i) job.snap) = some e →
      Fails i s e.number 0#32 0#32 0 := by
    intro e he
    have hraised := fails_of_raises hflight (hprecheck.trans he)
    rwa [hbare] at hraised
  refine ⟨rfl, fun hrange => hfails .range (precheckStream_range hrange),
    fun hrange hoverlap => hfails .overlap (precheckStream_overlap hrange hoverlap),
    fun hrange hoverlap hbus => hfails .busError (precheckStream_busError hrange hoverlap hbus),
    fun hrange hoverlap hpresent hdevice => ⟨hflight, ?_, ?_⟩⟩
  · rw [hprecheck, precheckStream_passes hrange hoverlap hpresent]
  · rwa [← meetsDevice_iff, Bool.not_eq_true] at hdevice

/-- Settles O20: the checks of each command, with its regions in numbers. -/
theorem predictorReportsItsFirstFailedCheck : Obligations.PredictorReportsItsFirstFailedCheck := by
  unfold Obligations.PredictorReportsItsFirstFailedCheck
  intro s job hflight n i sh len hc
  simp only [List.mem_cons, Prod.mk.injEq, List.not_mem_nil, or_false] at hc
  rcases hc with ⟨rfl, rfl, rfl⟩ | ⟨rfl, rfl, rfl⟩ | ⟨rfl, rfl, rfl⟩ | ⟨rfl, rfl, rfl⟩
  · exact predictor_checks (.inl rfl) hflight
  · exact predictor_checks (.inl rfl) hflight
  · exact predictor_checks (.inr rfl) hflight
  · exact predictor_checks (.inr rfl) hflight

/-! ### Completion -/

section Completion
variable {i : Instr} {s : State} {job : Job} (hruns : Runs s (shapeOf i) job) {len count : Word} {e1 e2 : Nat} {m : Memory}
include hruns

/-- A command that runs completes as its body says, in terms of the exponents. -/
theorem completes_with {e : Option ErrorCode} (h1 : e1 ≤ 30) (h2 : e2 ≤ 30)
    (hbody : bodyOf i s job.snap =
      { error := e, resLen := len, resCount := count, resCfg := .ofExponents e1 e2, memory := m }) :
    ∃ t, exec i s = .next t ∧ Completed t (errcodeOf e) len count (cfgNumber e1 e2) ∧ ConfigKept s t ∧ t.memory = m := by
  obtain ⟨t, hexec, hcompleted, hkept, hmemory, -⟩ := completes_of_runs hruns
  rw [hbody] at hcompleted hmemory
  rw [cfgNumber_ofExponents (by omega) (by omega)] at hcompleted
  exact ⟨t, hexec, hcompleted, hkept, hmemory⟩

/-- A body that ends with an error and leaves memory alone. -/
theorem fails_with {e : ErrorCode} (h1 : e1 ≤ 30) (h2 : e2 ≤ 30)
    (hbody : bodyOf i s job.snap =
      { error := some e, resLen := len, resCount := count, resCfg := .ofExponents e1 e2, memory := s.memory }) :
    Fails i s e.number len count (cfgNumber e1 e2) := by
  obtain ⟨t, hexec, hcompleted, hkept, hmemory⟩ := completes_with hruns h1 h2 hbody
  exact ⟨t, hexec, hcompleted, hkept, fun a => by rw [State.byte, hmemory, State.byte]⟩

end Completion

/-- The bytes outside one region, by address. -/
theorem bytesKeptOutside_one {s t : State} {a n : Nat}
    (h : ∀ x, x < a ∨ a + n ≤ x → readByte t.memory x = readByte s.memory x) : BytesKeptOutside [⟨a, n⟩] s t := by
  intro x hx
  refine h x ?_
  simp only [List.any_cons, List.any_nil, Bool.or_false, Region.covers, Bool.and_eq_false_iff, decide_eq_false_iff_not] at hx
  omega

theorem readByte_freeRegion_other (m : Memory) (d : Nat) {a n x : Nat} (h : x < a ∨ a + n ≤ x) :
    readByte (freeRegion m d a n) x = readByte m x := by
  rw [freeRegion, readByte_freeBytes, if_neg]
  omega

/-! ### Compress -/

/-- norm of a 5-bit field on any platform (30_encoding.md R73). -/
theorem normExponent_bounds {eMax e : Nat} (h : e < 32) :
    normExponent eMax e % 2 = 0 ∧ normExponent eMax e ≤ 30 ∧ normExponent eMax e ≤ eMax := by
  rw [normExponent_eq]
  omega

theorem effectiveE1_bounds (k : Width) (p : Platform) (j : Snapshot) :
    effectiveE1 k p j % 2 = 0 ∧ effectiveE1 k p j ≤ 30 ∧ effectiveE1 k p j ≤ p.eMax :=
  normExponent_bounds (by cases k <;> exact BitVec.isLt _)

theorem effectiveE2_bounds (k : Width) (p : Platform) (j : Snapshot) :
    effectiveE2 k p j % 2 = 0 ∧ effectiveE2 k p j ≤ 30 ∧ effectiveE2 k p j ≤ p.eMax :=
  normExponent_bounds (by cases k <;> exact BitVec.isLt _)

section Compress
variable {k : Width} {s : State} {job : Job}

/-- PCOMP_W with a stream that fits CAP (R147, R149). -/
theorem compressBody_of_fits (h : (streamOf k s job).length ≤ job.snap.cap) :
    compressBody k s job.snap =
      { error := none, resLen := BitVec.ofNat 32 (streamOf k s job).length, resCount := job.snap.srcLen
        resCfg := .ofExponents (effectiveE1 k s.platform job.snap) (effectiveE2 k s.platform job.snap)
        memory := writeBytes s.memory job.snap.dst (streamOf k s job) } := if_neg (Nat.not_lt.2 h)

/-- PCOMP_W with a stream longer than CAP (60_exceptions.md R195). -/
theorem compressBody_of_overflow (h : job.snap.cap < (streamOf k s job).length) :
    compressBody k s job.snap =
      { error := some .dstFull, resLen := sat (streamOf k s job).length, resCount := job.snap.srcLen
        resCfg := .ofExponents (effectiveE1 k s.platform job.snap) (effectiveE2 k s.platform job.snap)
        memory := freeRegion s.memory s.draws job.snap.dst job.snap.cap } := if_pos h

/-- A compress command that runs with room for its stream. -/
theorem compress_completes (hruns : Runs s (.compress k) job) (hfits : (streamOf k s job).length ≤ job.snap.cap) :
    ∃ t, exec (compressOf k) s = .next t ∧
      Completed t 0#4 (BitVec.ofNat 32 (streamOf k s job).length) job.snap.srcLen
        (cfgNumber (effectiveE1 k s.platform job.snap) (effectiveE2 k s.platform job.snap)) ∧
      ConfigKept s t ∧ t.memory = writeBytes s.memory job.snap.dst (streamOf k s job) :=
  completes_with (i := compressOf k) (by rwa [shapeOf_compressOf]) (effectiveE1_bounds k _ _).2.1
    (effectiveE2_bounds k _ _).2.1 (by rw [bodyOf_compressOf, compressBody_of_fits hfits])

/-- A compress command that runs without room for its stream. -/
theorem compress_overflows (hruns : Runs s (.compress k) job) (hfull : job.snap.cap < (streamOf k s job).length) :
    ∃ t, exec (compressOf k) s = .next t ∧
      Completed t 4#4 (sat (streamOf k s job).length) job.snap.srcLen
        (cfgNumber (effectiveE1 k s.platform job.snap) (effectiveE2 k s.platform job.snap)) ∧
      ConfigKept s t ∧ t.memory = freeRegion s.memory s.draws job.snap.dst job.snap.cap :=
  completes_with (i := compressOf k) (by rwa [shapeOf_compressOf]) (effectiveE1_bounds k _ _).2.1
    (effectiveE2_bounds k _ _).2.1 (by rw [bodyOf_compressOf, compressBody_of_overflow hfull])

end Compress

/-- Byte b of an element in memory is the byte that stands at its place (20_memory.md R52). -/
theorem byteOf_readElements (k : Width) (m : Memory) (a : Nat) {n x b : Nat} (hx : x < (readElements k m a n).length)
    (hb : b < k.bytes) : byteOf (readElements k m a n)[x].toNat b = readByte m (a + x * k.bytes + b) := by
  rw [readElements_getElem, byteOf_ofNat k _ b hb, byteOf_memRead m _ hb]

/-- The elements in memory are the values whose bytes stand there (20_memory.md R52). -/
theorem readElements_of_bytes (k : Width) {m : Memory} {a : Nat} {vs : List (BitVec k.bits)}
    (h : ∀ x b (hx : x < vs.length), b < k.bytes → readByte m (a + x * k.bytes + b) = byteOf vs[x].toNat b) :
    readElements k m a vs.length = vs := by
  refine List.ext_getElem (readElements_length k m a _) fun x hx hx' => ?_
  have hlt : vs[x].toNat < 2 ^ (8 * k.bytes) := vs[x].isLt.trans_eq (congrArg (2 ^ ·) (bits_eq k))
  have hvalue := memRead_of_bytes hlt fun b hb => h x b hx' hb
  rw [readElements_getElem, hvalue, BitVec.ofNat_toNat, BitVec.setWidth_eq]

/-- Settles O30: the stream is written where it fits, and the values at SRC are those whose bytes stand there. -/
theorem compressWritesItsStream : Obligations.CompressWritesItsStream := by
  unfold Obligations.CompressWritesItsStream
  intro k s job hruns
  refine ⟨fun hfits => ?_, fun vs hlen hbytes => ?_⟩
  · obtain ⟨t, hexec, hcompleted, hkept, hmemory⟩ := compress_completes hruns hfits
    refine ⟨t, hexec, hcompleted, hkept, fun x hx => ?_, bytesKeptOutside_one fun x hx => ?_⟩
    · rw [State.byte, hmemory, readByte_writeBytes _ _ hx]
    · rw [hmemory, readByte_writeBytes_other _ _ hx]
  · have hvalues := readElements_of_bytes k fun x b hx hb => (hbytes x b hx hb).trans (byteOf_eq _ b).symm
    rw [streamOf, compressedStream, ← hlen, hvalues]

/-- Settles O31: DST_FULL, with the bytes of (DST, CAP) free. -/
theorem compressReportsTheLengthNeeded : Obligations.CompressReportsTheLengthNeeded := by
  unfold Obligations.CompressReportsTheLengthNeeded
  intro k s job hruns hfull
  obtain ⟨t, hexec, hcompleted, hkept, hmemory⟩ := compress_overflows hruns hfull
  refine ⟨t, hexec, hcompleted, hkept, bytesKeptOutside_one fun x hx => ?_⟩
  rw [hmemory, readByte_freeRegion_other _ _ hx]

/-- The bounds of a stream's size (R142). -/
theorem encodeStream_bounds (k : Width) (h : HashPair k.bits) (e1 e2 : Nat) (vs : List (BitVec k.bits)) :
    5 + k.codeBytes * ceilDiv vs.length k.group ≤ (encodeStream k h e1 e2 vs).length ∧
      (encodeStream k h e1 e2 vs).length ≤ 5 + (k.codeBytes + k.group * k.bytes) * ceilDiv vs.length k.group := by
  rw [encodeStream_length]
  have hgroups := encodeGroups_length k h e1 e2 (ceilDiv vs.length k.group) (PredictionState.zero k.bits) vs
  exact ⟨Nat.add_le_add_left hgroups.1 5, Nat.add_le_add_left hgroups.2 5⟩

/-- Settles O40: a CAP at the upper bound has room for the stream. -/
theorem streamSizeIsBounded : Obligations.StreamSizeIsBounded := by
  unfold Obligations.StreamSizeIsBounded
  refine ⟨encodeStream_bounds, fun k s job hruns hcap => ?_, fun n g m hg => ceilDiv_le_iff hg⟩
  have hbound : (streamOf k s job).length ≤ _ := (encodeStream_bounds k _ _ _ _).2
  rw [readElements_length] at hbound
  obtain ⟨t, hexec, hcompleted, -, -⟩ := compress_completes hruns (hbound.trans hcap)
  exact ⟨t, hexec, hcompleted.idle, hcompleted.done, hcompleted.err, hcompleted.errcode⟩

end Sys2Proof.Machine
end

section
/-! Decompress: the checks of header and lengths, the values written, and the round trip on the machine (41_predictor.md R143
to R151; 60_exceptions.md R194 to R202). -/

namespace Sys2Proof.Machine

/-! ### The checks of header and lengths -/

/-- An exponent of a header is twice a 4-bit field (30_encoding.md R76). -/
theorem headerOf_exponents_le (s : State) (job : Job) : (headerOf s job).e1 ≤ 30 ∧ (headerOf s job).e2 ≤ 30 := by
  have hbyte := (readByte s.memory job.snap.src).isLt
  rw [headerOf, readHeader_eq]
  simp only
  omega

/-- How a decompress command ends when a check after its header fails (60_exceptions.md R194): `e`, with `len` in RES_LEN, the
header's count and exponents, and memory as it was. -/
def headerFailure (s : State) (job : Job) (e : ErrorCode) (len : Word) : Completion :=
  { error := some e, resLen := len, resCount := BitVec.ofNat 32 (headerOf s job).count
    resCfg := .ofExponents (headerOf s job).e1 (headerOf s job).e2, memory := s.memory }

section Decompress
variable {k : Width} {s : State} {job : Job}

/-- An input that holds no header (60_exceptions.md R196). -/
theorem decompressBody_of_noHeader (h : job.snap.n < 5) :
    decompressBody k s job.snap = Completion.bare .unexpectedEof s.memory := if_pos h

section Header
variable (hheader : 5 ≤ job.snap.n)
include hheader

/-- A header whose exponents exceed E_MAX (60_exceptions.md R198). -/
theorem decompressBody_of_unsupported
    (h : ¬ ((headerOf s job).e1 ≤ s.platform.eMax ∧ (headerOf s job).e2 ≤ s.platform.eMax)) :
    decompressBody k s job.snap = headerFailure s job .unsupportedCfg 0#32 := by
  have hexceeds : s.platform.eMax < (headerOf s job).e1 ∨ s.platform.eMax < (headerOf s job).e2 := by omega
  rw [decompressBody, if_neg (Nat.not_lt.2 hheader)]
  exact if_pos hexceeds

variable (hfit : (headerOf s job).e1 ≤ s.platform.eMax ∧ (headerOf s job).e2 ≤ s.platform.eMax)
include hfit

/-- A count whose code bytes do not fit the input (60_exceptions.md R197). -/
theorem decompressBody_of_corrupt (h : job.snap.n < 5 + ceilDiv (headerOf s job).count k.group * k.codeBytes) :
    decompressBody k s job.snap = headerFailure s job .corruptLength 0#32 := by
  have hwithin : ¬ (s.platform.eMax < (headerOf s job).e1 ∨ s.platform.eMax < (headerOf s job).e2) := by omega
  rw [decompressBody, if_neg (Nat.not_lt.2 hheader)]
  exact (if_neg hwithin).trans (if_pos h)

/-- Values that do not fit CAP (60_exceptions.md R195). -/
theorem decompressBody_of_overflow (hcount : 5 + ceilDiv (headerOf s job).count k.group * k.codeBytes ≤ job.snap.n)
    (h : job.snap.cap < (headerOf s job).count * k.bytes) :
    decompressBody k s job.snap = headerFailure s job .dstFull (sat ((headerOf s job).count * k.bytes)) := by
  have hwithin : ¬ (s.platform.eMax < (headerOf s job).e1 ∨ s.platform.eMax < (headerOf s job).e2) := by omega
  rw [decompressBody, if_neg (Nat.not_lt.2 hheader)]
  exact (if_neg hwithin).trans ((if_neg (Nat.not_lt.2 hcount)).trans (if_pos h))

end Header

/-! ### Completion -/

section Runs
variable (hruns : Runs s (.decompress k) job)
include hruns

/-- A decompress command whose body is a failed check after the header. -/
theorem decompress_fails {e : ErrorCode} {len : Word} (hbody : decompressBody k s job.snap = headerFailure s job e len) :
    Fails (decompressOf k) s e.number len (BitVec.ofNat 32 (headerOf s job).count) (headerOf s job).cfg :=
  have hexponents := headerOf_exponents_le s job
  fails_with (by rwa [shapeOf_decompressOf]) hexponents.1 hexponents.2 (by rw [bodyOf_decompressOf, hbody, headerFailure])

/-- A decompress command that decodes its input writes the values. -/
theorem decompress_completes (hfit : LengthsFit k s job) {vs : List (BitVec k.bits)} {pos : Nat}
    (hdecoded : decodedOf k s job = some (vs, pos)) :
    ∃ t, exec (decompressOf k) s = .next t ∧
      Completed t 0#4 (BitVec.ofNat 32 pos) (BitVec.ofNat 32 (headerOf s job).count) (headerOf s job).cfg ∧
      ConfigKept s t ∧ t.memory = writeElements k s.memory job.snap.dst vs :=
  have hexponents := headerOf_exponents_le s job
  completes_with (i := decompressOf k) (by rwa [shapeOf_decompressOf]) hexponents.1 hexponents.2
    (by rw [bodyOf_decompressOf, decompressBody_of_fits hfit, hdecoded])

/-- A decompress command that runs out of input leaves the values' bytes free. -/
theorem decompress_truncated (hfit : LengthsFit k s job) (hdecoded : decodedOf k s job = none) :
    ∃ t, exec (decompressOf k) s = .next t ∧
      Completed t 5#4 0#32 (BitVec.ofNat 32 (headerOf s job).count) (headerOf s job).cfg ∧ ConfigKept s t ∧
      t.memory = freeRegion s.memory s.draws job.snap.dst ((headerOf s job).count * k.bytes) :=
  have hexponents := headerOf_exponents_le s job
  completes_with (i := decompressOf k) (by rwa [shapeOf_decompressOf]) hexponents.1 hexponents.2
    (by rw [bodyOf_decompressOf, decompressBody_of_fits hfit, hdecoded])

end Runs

end Decompress

/-- Settles O32: each check of R144 in its order, by the body that it ends with. -/
theorem decompressReportsItsFirstFailedLength : Obligations.DecompressReportsItsFirstFailedLength := by
  unfold Obligations.DecompressReportsItsFirstFailedLength
  intro k s job hruns
  refine ⟨fun hshort => ?_,
    fun hheader hexceeds => decompress_fails hruns (decompressBody_of_unsupported hheader hexceeds),
    fun hheader hfit hcorrupt => decompress_fails hruns (decompressBody_of_corrupt hheader hfit hcorrupt),
    fun hheader hfit hcount hfull => decompress_fails hruns (decompressBody_of_overflow hheader hfit hcount hfull)⟩
  exact fails_with (e1 := 0) (e2 := 0) (e := .unexpectedEof) (by rwa [shapeOf_decompressOf]) (Nat.zero_le _) (Nat.zero_le _)
    (by rw [bodyOf_decompressOf, decompressBody_of_noHeader hshort]; rfl)

/-- Settles O33: the values that the decoder answers are as many as the count (`decodeStream_some`), and each is written
byte by byte. -/
theorem decompressWritesItsValues : Obligations.DecompressWritesItsValues := by
  unfold Obligations.DecompressWritesItsValues
  intro k s job vs pos hruns hfit hdecoded
  have hlen : vs.length = (headerOf s job).count := (decodeStream_some hdecoded).1
  obtain ⟨t, hexec, hcompleted, hkept, hmemory⟩ := decompress_completes hruns hfit hdecoded
  refine ⟨t, hexec, hcompleted, hkept, hlen, fun x b hx hb => ?_, bytesKeptOutside_one fun x hx => ?_⟩
  · rw [State.byte, hmemory, readByte_writeElements k _ _ _ hx hb, byteOf_eq]
  · rw [hmemory, readByte_writeElements_other k _ _ (hlen ▸ hx)]

/-- Settles O34: UNEXPECTED_EOF, with the bytes of the values free. -/
theorem decompressReportsTruncatedStream : Obligations.DecompressReportsTruncatedStream := by
  unfold Obligations.DecompressReportsTruncatedStream
  intro k s job hruns hfit hdecoded
  obtain ⟨t, hexec, hcompleted, hkept, hmemory⟩ := decompress_truncated hruns hfit hdecoded
  refine ⟨t, hexec, hcompleted, hkept, bytesKeptOutside_one fun x hx => ?_⟩
  rw [hmemory, readByte_freeRegion_other _ _ hx]

end Sys2Proof.Machine
end

section
/-! The round trip on the machine: a decompress command whose input is a compress command's stream (41_predictor.md R151). -/

namespace Sys2Proof.Machine

/-- The input of the decompress command in flight is the stream of `vs` that a compress command of exponents `e1` and `e2`
wrote, and CAP has room for the values. -/
structure StreamHeld (k : Width) (e1 e2 : Nat) (vs : List (BitVec k.bits)) (u : State) (job : Job) : Prop where
  written : ∃ m, u.memory = writeBytes m job.snap.src (encodeStream k (hashPair u.platform k) e1 e2 vs)
  length : job.snap.n = (encodeStream k (hashPair u.platform k) e1 e2 vs).length
  exponent1 : e1 % 2 = 0 ∧ e1 ≤ 30 ∧ e1 ≤ u.platform.eMax
  exponent2 : e2 % 2 = 0 ∧ e2 ≤ 30 ∧ e2 ≤ u.platform.eMax
  count : vs.length < 2 ^ 32
  room : vs.length * k.bytes ≤ job.snap.cap

section StreamHeld
variable {k : Width} {e1 e2 : Nat} {vs : List (BitVec k.bits)} {u : State} {job : Job} (hheld : StreamHeld k e1 e2 vs u job)
include hheld

theorem StreamHeld.headerOf_eq : headerOf u job = { e1 := e1, e2 := e2, count := vs.length } := by
  obtain ⟨m, hmemory⟩ := hheld.written
  rw [headerOf, hmemory]
  exact readHeader_encodeStream k _ vs m _ hheld.exponent1.1 hheld.exponent1.2.1 hheld.exponent2.1 hheld.exponent2.2.1
    hheld.count

/-- The length checks of R144 pass: the stream has its code bytes (R142). -/
theorem StreamHeld.lengthsFit : LengthsFit k u job := by
  have hbounds := (encodeStream_bounds k (hashPair u.platform k) e1 e2 vs).1
  rw [← hheld.length, Nat.mul_comm] at hbounds
  constructor
  case headerFits => exact Nat.le_of_add_right_le hbounds
  all_goals rw [hheld.headerOf_eq]
  case exponentsFit => exact ⟨hheld.exponent1.2.2, hheld.exponent2.2.2⟩
  case countFits => exact hbounds
  case valuesFit => exact hheld.room

/-- The decoder gives the values back (`decodeStream_encodeStream`). -/
theorem StreamHeld.decodedOf_eq :
    ∃ pos, pos + (ceilDiv vs.length k.group * k.group - vs.length) = job.snap.n ∧ decodedOf k u job = some (vs, pos) := by
  obtain ⟨m, hmemory⟩ := hheld.written
  obtain ⟨pos, hpos, hdecode⟩ := decodeStream_encodeStream k (hashPair u.platform k) e1 e2 vs []
  rw [List.append_nil] at hdecode
  refine ⟨pos, hheld.length ▸ hpos, ?_⟩
  have hinput : readBytes u.memory (job.snap.src + 5) (job.snap.n - 5) =
      (encodeStream k (hashPair u.platform k) e1 e2 vs).drop 5 := by
    have hheader := hheld.lengthsFit.headerFits
    rw [hmemory, readBytes_writeBytes_part m _ _ (by rw [← hheld.length]; omega),
      List.take_of_length_le (by rw [List.length_drop, hheld.length])]
  rw [decodedOf, ← readBytes_eq_map, hinput, hheld.headerOf_eq, hdecode]

end StreamHeld

section Compressed
variable {k : Width} {s t : State} {job : Job} (hruns : Runs s (.compress k) job) (hexec : exec (compressOf k) s = .next t)
  (hok : t.status.err = false)
include hruns hexec hok

/-- A compress command without error had room for its stream (60_exceptions.md R195). -/
theorem stream_fits_of_no_error : (streamOf k s job).length ≤ job.snap.cap := by
  by_contra hfull
  obtain ⟨t', hexec', hcompleted, -⟩ := compress_overflows hruns (Nat.not_le.1 hfull)
  obtain rfl : t = t' := Host.Outcome.next.inj (hexec.symm.trans hexec')
  rw [hcompleted.err] at hok
  cases hok

/-- A compress command without error leaves its stream in memory, and its exact length in RES_LEN. -/
theorem compressed_of_no_error :
    t.memory = writeBytes s.memory job.snap.dst (streamOf k s job) ∧ t.resLen.toNat = (streamOf k s job).length ∧
      t.platform = s.platform := by
  have hfits := stream_fits_of_no_error hruns hexec hok
  obtain ⟨t', hexec', hcompleted, hkept, hmemory⟩ := compress_completes hruns hfits
  obtain rfl : t = t' := Host.Outcome.next.inj (hexec.symm.trans hexec')
  refine ⟨hmemory, ?_, hkept.platform⟩
  rw [hcompleted.resLen, BitVec.toNat_ofNat, Nat.mod_eq_of_lt (hfits.trans_lt job.snap.dstCap.isLt)]

/-- A decompress command set up as R151 says has the stream of the elements at SRC as its input. -/
theorem streamHeld_of_compress {u : State} {job' : Job} (hmemory : u.memory = t.memory) (hplatform : u.platform = t.platform)
    (hsrc : job'.snap.srcAddr = job.snap.dstAddr) (hlen : job'.snap.srcLen = t.resLen)
    (hroom : job.snap.n * k.bytes ≤ job'.snap.cap) :
    StreamHeld k (effectiveE1 k s.platform job.snap) (effectiveE2 k s.platform job.snap)
      (readElements k s.memory job.snap.src job.snap.n) u job' := by
  obtain ⟨hwritten, hresLen, hkept⟩ := compressed_of_no_error hruns hexec hok
  have hparameters : u.platform = s.platform := hplatform.trans hkept
  constructor
  case written =>
    refine ⟨s.memory, ?_⟩
    rw [hmemory, hwritten, hparameters, Snapshot.src, hsrc]
    rfl
  case length =>
    rw [hparameters, Snapshot.n, hlen, hresLen]
    rfl
  case exponent1 => exact hparameters ▸ effectiveE1_bounds k s.platform job.snap
  case exponent2 => exact hparameters ▸ effectiveE2_bounds k s.platform job.snap
  case count =>
    rw [readElements_length]
    exact job.snap.srcLen.isLt
  case room => rwa [readElements_length]

end Compressed

/-- Every byte of an array of elements is byte b of element e. -/
theorem exists_element_byte {k : Width} {n x : Nat} (hx : x < n * k.bytes) :
    ∃ e b, e < n ∧ b < k.bytes ∧ x = e * k.bytes + b := by
  have hbytes : 0 < k.bytes := by cases k <;> decide
  exact ⟨x / k.bytes, x % k.bytes, Nat.div_lt_of_lt_mul (Nat.mul_comm n _ ▸ hx), Nat.mod_lt _ hbytes,
    (Nat.div_add_mod' x k.bytes).symm⟩

/-- Settles O42: the decompress command's input is the stream (`streamHeld_of_compress`), so it decodes to the elements at the
compress command's SRC, and writes them byte by byte. -/
theorem decompressOfCompressRestoresTheValues : Obligations.DecompressOfCompressRestoresTheValues := by
  unfold Obligations.DecompressOfCompressRestoresTheValues
  intro k s job t u job' hruns hexec hok hmemory hplatform hruns' hsrc hlen hroom
  have hheld := streamHeld_of_compress hruns hexec hok hmemory hplatform hsrc hlen hroom
  obtain ⟨pos, hpos, hdecoded⟩ := hheld.decodedOf_eq
  obtain ⟨v, hexec', hcompleted, -, hwritten⟩ := decompress_completes hruns' hheld.lengthsFit hdecoded
  have hcount := readElements_length k s.memory job.snap.src job.snap.n
  rw [hheld.headerOf_eq, hcount] at hcompleted
  rw [hcount] at hpos
  refine ⟨v, hexec', hcompleted.err, ?_, ?_, fun x hx => ?_⟩
  · rw [hcompleted.resCount, Snapshot.n, BitVec.ofNat_toNat, BitVec.setWidth_eq]
  · have hposLt : pos < 2 ^ 32 := (Nat.le_of_add_right_le hpos.le).trans_lt job'.snap.srcLen.isLt
    rw [hcompleted.resLen, BitVec.toNat_ofNat, Nat.mod_eq_of_lt hposLt, ← hlen]
    exact hpos
  · obtain ⟨e, b, he, hb, rfl⟩ := exists_element_byte hx
    rw [State.byte, hwritten, ← Nat.add_assoc, readByte_writeElements k _ _ _ (hcount.symm ▸ he) hb,
      byteOf_readElements k _ _ _ hb, Nat.add_assoc, State.byte]

end Sys2Proof.Machine
end

section
/-! A reset's effect on memory (70_reset_and_hazards.md R221, R222) and power gating (60_exceptions.md R213). -/

namespace Sys2Proof.Machine

/-- A transaction's turn leaves an idle engine idle. -/
theorem turned_idle {s : State} (hidle : s.engine = .idle) (rest : List HostOp) : (s.turned rest).engine = .idle := by
  rw [turned_engine, hidle, tick_idle]

/-- A transaction's turn brings the command in flight one transaction nearer to its step. -/
theorem turned_inFlight {s : State} {job : Job} (hbusy : s.engine = .busy job) (rest : List HostOp) :
    (s.turned rest).engine = .busy { job with wait := job.wait - 1 } := by
  rw [turned_engine, hbusy, tick_busy]

/-- A reset of an idle block writes no byte (R222). -/
theorem resetBlock_bytesKept {s : State} (hidle : s.engine = .idle) (rest : List HostOp) :
    BytesKept s (resetBlock (s.turned rest)) := by
  intro a
  rw [resetBlock_idle (turned_idle hidle rest)]
  rfl

/-- A reset while BUSY leaves the aborted command's memory: the transaction's own turn changes neither the command's
regions nor the draw. -/
theorem resetBlock_byte_of_busy {s : State} {job : Job} (hbusy : s.engine = .busy job) (rest : List HostOp) (a : Nat) :
    (resetBlock (s.turned rest)).byte a = readByte (abortedMemory s job) a := by
  rw [resetBlock_busy (turned_inFlight hbusy rest)]
  rfl

/-- An aborted command's output byte that exists and is no input byte is free (R221). -/
theorem abortedMemory_output {s : State} {job : Job} {a : Nat} (ha : a < addressCount)
    (hout : job.regions.outputCovers a = true) (hin : job.regions.inputCovers a = false) :
    readByte (abortedMemory s job) a = Config.freeByte s.draws a :=
  readByte_freeRegions _ _ _ _ _ hout ha hin

/-- An abort keeps input bytes and bytes outside the output regions (R221). -/
theorem abortedMemory_kept {s : State} {job : Job} {a : Nat}
    (h : job.regions.outputCovers a = false ∨ job.regions.inputCovers a = true) :
    readByte (abortedMemory s job) a = s.byte a :=
  readByte_freeRegions_other _ _ _ _ _ h

/-- Power gating of an idle block keeps its registers or is a reset. -/
theorem powerCycle_idle {s : State} (hidle : s.engine = .idle) (retained : Bool) :
    powerCycle retained s = .next (if retained then s else resetBlock s) := by
  simp only [powerCycle, hidle]

/-- Power gating while BUSY is refused (log 20). -/
theorem powerCycle_busy {s : State} {job : Job} (hbusy : s.engine = .busy job) (retained : Bool) :
    powerCycle retained s = .refused .powerGatedWhileBusy := by
  simp only [powerCycle, hbusy]

/-- Settles O7: both resets are `resetBlock`, whose memory is the old one or the aborted command's; power gating while
idle is that reset or nothing. -/
theorem resetKeepsAllButTheAbortedOutputs : Obligations.ResetKeepsAllButTheAbortedOutputs := by
  unfold Obligations.ResetKeepsAllButTheAbortedOutputs
  refine ⟨fun s op rest hturn hreset => ⟨fun hidle => ?_, fun job hbusy => ?_⟩, fun s retained rest hturn => ?_⟩
  · exact ⟨_, step_of_asksReset hturn hreset, resetBlock_registersReset _, resetBlock_bytesKept hidle rest⟩
  · refine ⟨_, step_of_asksReset hturn hreset, resetBlock_registersReset _, resetBlock_done _,
      fun a ha hout hin => ?_, fun a hin => ?_, fun a hout => ?_⟩ <;> rw [resetBlock_byte_of_busy hbusy]
    · exact abortedMemory_output ha hout hin
    · exact abortedMemory_kept (.inr hin)
    · exact abortedMemory_kept (.inl hout)
  · have hstep : step s = powerCycle retained (s.turned rest) := step_of_turn hturn
    have hgated : s.engine = .idle →
        step s = .next (if retained then s.turned rest else resetBlock (s.turned rest)) := fun hidle =>
      hstep.trans (powerCycle_idle (turned_idle hidle rest) retained)
    refine ⟨fun hidle hkept => ?_, fun hidle hlost => ⟨resetBlock (s.turned rest), ?_, resetBlock_registersReset _,
      resetBlock_bytesKept hidle rest⟩, fun job hbusy => ?_⟩
    · rw [hgated hidle, if_pos hkept]
    · rw [hgated hidle, hlost]
      rfl
    · exact hstep.trans (powerCycle_busy (turned_inFlight hbusy rest) retained)

end Sys2Proof.Machine
end

section
/-! Reads of the window (42_host_access.md R170): the fields and the reserved bits of the words that registers read as
(10_state.md R24, R25, R31, R39, R40), and a read's and a POLL's turn at a register (30_encoding.md R88). -/

namespace Sys2Proof.Machine

/-! ### Reserved bits -/

/-- A word whose bits under a mask are all clear is 0 under it. -/
theorem and_mask_eq_zero {x mask : Word} (h : ∀ i < 32, mask.getLsbD i = true → x.getLsbD i = false) :
    x &&& mask = 0#32 := by
  apply BitVec.eq_of_getLsbD_eq
  intro i hi
  rw [BitVec.getLsbD_and, BitVec.getLsbD_zero]
  cases hm : mask.getLsbD i
  · rw [Bool.and_false]
  · rw [h i hi hm, Bool.false_and]

/-- CTRL reads 0 in all bits but IRQ_EN (R24). -/
theorem ctrlWord_reserved (e : Bool) : ctrlWord e &&& 0xFFFFFFFE#32 = 0#32 := by
  have hmask : ∀ i < 32, (0xFFFFFFFE#32).getLsbD i = true → i ≠ 0 := by decide
  refine and_mask_eq_zero fun i hi hm => ?_
  simp [ctrlWord_getLsbD, hmask i hi hm]

/-- STATUS reads 0 in bits [7:4] and [31:12] (R25). -/
theorem statusWord_reserved (b : Bool) (st : Status) : statusWord b st &&& 0xFFFFF0F0#32 = 0#32 := by
  have hmask : ∀ i < 32, (0xFFFFF0F0#32).getLsbD i = true → 4 ≤ i ∧ ¬ (8 ≤ i ∧ i < 12) := by decide
  refine and_mask_eq_zero fun i hi hm => ?_
  obtain ⟨hlow, hcode⟩ := hmask i hi hm
  rw [statusWord_getLsbD, if_neg (by omega), if_neg (by omega), if_neg (by omega), if_neg (by omega), if_neg hcode]

/-- HASH_CFG reads 0 in the upper three bits of each byte (R31). -/
theorem hashCfgWord_reserved (h : HashCfg) : h.toWord &&& 0xE0E0E0E0#32 = 0#32 := by
  have hmask : ∀ i < 32, (0xE0E0E0E0#32).getLsbD i = true → 5 ≤ i % 8 := by decide
  refine and_mask_eq_zero fun i hi hm => ?_
  have := hmask i hi hm
  rw [hashCfgWord_getLsbD, if_neg (by omega), if_neg (by omega), if_neg (by omega), if_neg (by omega)]

/-- RES_CFG reads 0 in the upper three bits of its low bytes and in its upper half (R39). -/
theorem resCfgWord_reserved (c : ResCfg) : c.toWord &&& 0xFFFFE0E0#32 = 0#32 := by
  have hmask : ∀ i < 32, (0xFFFFE0E0#32).getLsbD i = true → 5 ≤ i ∧ ¬ (8 ≤ i ∧ i < 13) := by decide
  refine and_mask_eq_zero fun i hi hm => ?_
  obtain ⟨hlow, hhigh⟩ := hmask i hi hm
  rw [resCfgWord_getLsbD, if_neg (by omega), if_neg hhigh]

/-! ### Fields -/

/-- ERRCODE stands in STATUS [11:8] (R25). -/
theorem statusWord_errcode (b : Bool) (st : Status) : (statusWord b st).extractLsb' 8 4 = st.errcode := by
  apply BitVec.eq_of_getLsbD_eq
  intro i hi
  rw [BitVec.getLsbD_extractLsb', statusWord_getLsbD, if_neg (by omega), if_neg (by omega), if_neg (by omega),
    if_neg (by omega), if_pos (by omega), Nat.add_sub_cancel_left]
  simp only [hi, decide_true, Bool.true_and]

/-- RES_CFG reads back as what it holds (R39). -/
theorem resCfg_ofWord_toWord (c : ResCfg) : ResCfg.ofWord c.toWord = c := by
  obtain ⟨a, b⟩ := c
  simp only [ResCfg.ofWord, ResCfg.mk.injEq]
  constructor <;>
  · apply BitVec.eq_of_getLsbD_eq
    intro i hi
    rw [BitVec.getLsbD_extractLsb', resCfgWord_getLsbD]
    grind

/-- A written word reads back from HASH_CFG through the mask of its four fields (42_host_access.md R176). -/
theorem hashCfg_toWord_ofWord (x : Word) : (HashCfg.ofWord x).toWord = x &&& 0x1F1F1F1F#32 := by
  have hmask : ∀ i < 32, (0x1F1F1F1F#32).getLsbD i = decide (i % 8 < 5) := by decide
  apply BitVec.eq_of_getLsbD_eq
  intro i hi
  rw [BitVec.getLsbD_and, hmask i hi, hashCfgWord_getLsbD]
  simp only [HashCfg.ofWord, BitVec.getLsbD_extractLsb']
  grind

/-! ### The turn of a read -/

/-- Offsets of registers are word offsets of the window. -/
theorem offset_word (r : RegName) : r.offset < 256 ∧ r.offset % 4 = 0 := by cases r <;> decide

@[simp] theorem readSlot_offset (s : State) (r : RegName) : readSlot s r.offset = readReg s r := by
  simp only [readSlot, regAt_offset]

/-- A read's turn at a register (R170). -/
theorem step_read_register {s : State} {r : RegName} {rest : List HostOp}
    (hturn : Turn s (.read (s.platform.regBase + r.offset) 4) rest) :
    step s = .next { s.turned rest with readData := readReg s r } := by
  obtain ⟨hlt, hword⟩ := offset_word r
  rw [step_read_slot hturn hlt hword, readSlot_offset, readReg_turned]

/-- A read's turn at a reserved offset gives 0 (R40). -/
theorem step_read_reserved {s : State} {o : Nat} {rest : List HostOp}
    (hturn : Turn s (.read (s.platform.regBase + o) 4) rest) (hreserved : 0x34 ≤ o) (hlt : o < 256) (hword : o % 4 = 0) :
    step s = .next { s.turned rest with readData := 0#32 } := by
  rw [step_read_slot hturn hlt hword, readSlot, regAt_reserved hreserved]

/-- A POLL's turn at a register (R88). -/
theorem step_poll_register {s : State} {r : RegName} {mask value : Word} {rest : List HostOp}
    (hturn : Turn s (.poll (s.platform.regBase + r.offset) mask value) rest) :
    step s = .next (if readReg s r &&& mask = value then { s.turned rest with readData := readReg s r }
      else { s.turned (.poll (s.platform.regBase + r.offset) mask value :: rest) with readData := readReg s r }) := by
  obtain ⟨hlt, hword⟩ := offset_word r
  rw [step_poll_slot hturn hlt hword, readSlot_offset, readReg_turned]

/-- Settles O8: a read and a POLL give `readReg` of the register at their offset, whose fields and reserved bits are those
of the four words. -/
theorem readReturnsTheRegisterAndChangesNothing : Obligations.ReadReturnsTheRegisterAndChangesNothing := by
  unfold Obligations.ReadReturnsTheRegisterAndChangesNothing
  refine ⟨fun s rest r => step_read_register, fun s rest o => step_read_reserved, fun s rest r mask value hturn => ?_, rfl,
    fun s => ⟨rfl, rfl, rfl, rfl, rfl, rfl, rfl, rfl, rfl⟩, fun s => ?_, fun s => ?_⟩
  · rw [step_poll_register hturn]
    exact ⟨fun hmet => by rw [if_pos hmet], fun hunmet => by rw [if_neg hunmet]⟩
  · exact ⟨ctrlWord_reserved _, statusWord_reserved _ _, hashCfgWord_reserved _, resCfgWord_reserved _⟩
  · have hhash := hashCfg_ofWord_toWord s.hashCfg
    have hres := resCfg_ofWord_toWord s.resCfg
    refine ⟨ctrlWord_getLsbD _ 0, statusWord_getLsbD _ _ 0, statusWord_getLsbD _ _ 1, statusWord_getLsbD _ _ 2,
      statusWord_getLsbD _ _ 3, statusWord_errcode _ _, congrArg HashCfg.e1w32 hhash, congrArg HashCfg.e2w32 hhash,
      congrArg HashCfg.e1w64 hhash, congrArg HashCfg.e2w64 hhash, congrArg ResCfg.e1 hres, congrArg ResCfg.e2 hres⟩

end Sys2Proof.Machine
end

section
/-! Writes of the window (42_host_access.md R171 to R177), register by register. -/

namespace Sys2Proof.Machine

/-- CTRL bit 1 always reads 0 (10_state.md R24). -/
theorem readReg_ctrl_bit1 (s : State) : (readReg s .ctrl).getLsbD 1 = false := ctrlWord_getLsbD _ 1

/-- A reset leaves IRQ_EN 0 (10_state.md R46). -/
theorem resetBlock_disables (s : State) : (resetBlock s).irqEn = false := by
  rcases resetBlock_cases s with ⟨-, h⟩ | ⟨job, -, h⟩ <;> rw [h, resetTo_irqEn] <;> rfl

/-- RES_CFG reads 0 after acceptance (10_state.md R39). -/
theorem resCfg_zero_toWord : ResCfg.zero.toWord = 0#32 := by decide

/-- A transaction's turn leaves BUSY. -/
@[simp] theorem turned_busy (s : State) (rest : List HostOp) : (s.turned rest).busy = s.busy := by
  rw [State.busy, State.busy, isBusy_eq_isSome, isBusy_eq_isSome, turned_engine, snap?_tick]

/-- A write of a reserved offset is ignored (R177). -/
theorem writeSlot_reserved {o : Nat} (hreserved : 0x34 ≤ o) (x : Word) (s : State) : writeSlot x s o = s := by
  rw [writeSlot, regAt_reserved hreserved]

/-- Settles O9: a CTRL write sets IRQ_EN, and with bit 1 it is that and then a reset. -/
theorem ctrlWriteSetsEnableAndMayReset : Obligations.CtrlWriteSetsEnableAndMayReset := by
  unfold Obligations.CtrlWriteSetsEnableAndMayReset
  intro s rest x hturn
  rw [step_write_register (r := .ctrl) hturn, writeReg]
  refine ⟨fun hx => by rw [writeCtrl_enable hx], fun hx => ?_, fun t _ => readReg_ctrl_bit1 t⟩
  rw [writeCtrl_reset hx]
  exact ⟨_, rfl, (resetBlock_irqEn _ _).symm, resetBlock_registersReset _, resetBlock_disables _⟩

/-- Settles O10: a STATUS write is `Status.clear`, field by field. -/
theorem statusWriteClearsByOnes : Obligations.StatusWriteClearsByOnes := by
  unfold Obligations.StatusWriteClearsByOnes
  intro s rest x hturn
  have hclear : ∀ b c : Bool, (if b then false else c) = (c && !b) := by decide
  refine ⟨_, step_write_register (r := .status) hturn, rfl, hclear _ _, hclear _ _, rfl, hclear _ _, turned_busy s rest, ?_,
    fun hinv hbusy => (hinv.busyIsClear hbusy).1⟩
  rw [State.irq, State.irq, Bool.and_assoc]
  exact congrArg (s.irqEn && ·) (hclear _ _)

/-- Settles O11: a CMD write while IDLE is `accept`. -/
theorem cmdWriteWhileIdleIsAccepted : Obligations.CmdWriteWhileIdleIsAccepted := by
  unfold Obligations.CmdWriteWhileIdleIsAccepted
  intro s rest x hturn hidle
  rw [step_write_register (r := .cmd) hturn, writeReg, writeCmd_idle (turned_idle hidle rest)]
  exact ⟨_, _, rfl, accept_engine x _, ⟨rfl, rfl⟩, rfl, rfl, rfl, rfl, rfl, resCfg_zero_toWord,
    rfl, rfl, rfl, rfl, rfl, rfl, rfl, rfl, rfl⟩

/-- Settles O12: a CMD write while BUSY is `Status.overran`. -/
theorem cmdWriteWhileBusyIsDropped : Obligations.CmdWriteWhileBusyIsDropped := by
  unfold Obligations.CmdWriteWhileBusyIsDropped
  intro s rest x job hturn hbusy
  rw [step_write_register (r := .cmd) hturn, writeReg, writeCmd_busy (turned_inFlight hbusy rest)]
  rfl

/-- Settles O13: each configuration register's write is one field's update, HASH_CFG's through the mask. -/
theorem configurationWriteSetsItsRegister : Obligations.ConfigurationWriteSetsItsRegister := by
  unfold Obligations.ConfigurationWriteSetsItsRegister
  intro s rest x
  exact ⟨fun hturn => ⟨_, step_write_register (r := .hashCfg) hturn, hashCfg_toWord_ofWord x, rfl⟩,
    step_write_register (r := .srcAddr), step_write_register (r := .srcLen), step_write_register (r := .dstAddr),
    step_write_register (r := .dstCap), step_write_register (r := .planeStride)⟩

/-- Settles O14: the four read-only registers and the reserved offsets each ignore the write. -/
theorem readOnlyAndReservedWritesAreIgnored : Obligations.ReadOnlyAndReservedWritesAreIgnored := by
  unfold Obligations.ReadOnlyAndReservedWritesAreIgnored
  rintro s rest x o hturn (rfl | rfl | rfl | rfl | ⟨hreserved, hlast, hword⟩)
  · exact step_write_register (r := .id) hturn
  · exact step_write_register (r := .resLen) hturn
  · exact step_write_register (r := .resCount) hturn
  · exact step_write_register (r := .resCfg) hturn
  · rw [step_write_slot hturn (by omega) hword, writeSlot_reserved hreserved]

end Sys2Proof.Machine
end

section
/-! The engine's turn (42_host_access.md R178, R180): which meaning it runs, and that without devices it completes. -/

namespace Sys2Proof.Machine

/-- On the engine's turn a command is in flight. -/
theorem exists_job_of_engineTurn {s : State} (hturn : s.engineTurn = true) : ∃ job, s.engine = .busy job := by
  cases hengine : s.engine with
  | idle => simp [State.engineTurn, hengine] at hturn
  | busy job => exact ⟨job, rfl⟩

/-- The engine step on a word that decodes to a command is its meaning. -/
theorem engineStep_command {s : State} {job : Job} {i : Instr} (hbusy : s.engine = .busy job)
    (hdecode : decodeWord job.snap.cmd = .command i) : engineStep s = exec i s := by
  simp only [engineStep, hbusy, hdecode]

/-- The engine step on an illegal word is its completion. -/
theorem engineStep_illegal {s : State} {job : Job} {why : Reject} (hbusy : s.engine = .busy job)
    (hdecode : decodeWord job.snap.cmd = .illegal why) : engineStep s = illegalCommand s := by
  simp only [engineStep, hbusy, hdecode]

/-- A platform without devices has none in any region. -/
theorem meetsDevice_of_no_devices {p : Platform} (hp : p.devices = []) (r : Regions) : r.meetsDevice p = false := by
  simp [Regions.meetsDevice, hp]

/-- Without devices the shared operation completes the command in flight, by its checks or by its body. -/
theorem runCommand_completes {sh : Shape} {s : State} {job : Job} (hbusy : s.engine = .busy job)
    (hdevices : s.platform.devices = []) (failed : Snapshot → ErrorCode → Completion) (body : Snapshot → Completion) :
    ∃ c, runCommand sh s failed body = .next (complete sh s job c) := by
  cases hchecked : precheck sh s.platform job.snap with
  | some e => exact ⟨_, runCommand_raises hbusy hchecked⟩
  | none =>
    simp only [runCommand, hbusy, hchecked, meetsDevice_of_no_devices hdevices]
    exact ⟨_, rfl⟩

/-- Without devices the engine step completes the command in flight, whatever its word decodes to. -/
theorem engineStep_completes {s : State} {job : Job} (hbusy : s.engine = .busy job)
    (hdevices : s.platform.devices = []) : ∃ sh c, engineStep s = .next (complete sh s job c) := by
  cases hdecode : decodeWord job.snap.cmd with
  | command i =>
    rw [engineStep_command hbusy hdecode, exec_eq]
    exact ⟨_, runCommand_completes hbusy hdevices _ _⟩
  | illegal why =>
    rw [engineStep_illegal hbusy hdecode, illegalCommand]
    exact ⟨_, runCommand_completes hbusy hdevices _ _⟩

/-- Settles O58: the engine step is a completion, which leaves the block idle with DONE set and the configuration kept. -/
theorem engineStepAlwaysCompletes : Obligations.EngineStepAlwaysCompletes := by
  unfold Obligations.EngineStepAlwaysCompletes
  intro s hplatform hdevices hturn
  obtain ⟨job, hbusy⟩ := exists_job_of_engineTurn hturn
  obtain ⟨sh, c, hstep⟩ := engineStep_completes hbusy hdevices
  rw [step_of_engineTurn hplatform hturn]
  exact ⟨_, hstep, rfl, rfl, complete_configKept sh s job c⟩

/-- A step on the engine's turn runs the command that the snapshot word decodes to. -/
theorem step_of_command {s : State} {job : Job} {i : Instr} (hplatform : s.platform.wf = true)
    (hbusy : s.engine = .busy job) (hnext : job.wait = 0 ∨ s.inputs = [])
    (hdecode : decodeWord job.snap.cmd = .command i) : step s = exec i s := by
  rw [step_of_engineTurn hplatform (engineTurn_of_busy hbusy hnext), engineStep_command hbusy hdecode]

/-- A command's word, placed, stands accepted with no wait (log 15). -/
theorem withFetchWord_encode (s : State) (n : Nat) (i : Instr) :
    s.withFetchWord n (encode i).toNat = acceptWith 0 (encode i) s := by
  rw [State.withFetchWord, commandPlaced, BitVec.ofNat_toNat, BitVec.setWidth_eq]

/-- Settles O3: the engine step decodes the snapshot's word, and a placed word is the snapshot's with no wait. -/
theorem stepRunsTheAcceptedCommand : Obligations.StepRunsTheAcceptedCommand := by
  unfold Obligations.StepRunsTheAcceptedCommand
  refine ⟨fun s job i => step_of_command, fun s i hplatform => ?_⟩
  rw [withFetchWord_encode]
  exact step_of_command hplatform (acceptWith_engine 0 (encode i) s) (.inl rfl) (decodeWord_encode i)

/-- Settles O5: every command is one run of the shared operation, which stops with no command in flight. -/
theorem idleEngineHasNoCommandToRun : Obligations.IdleEngineHasNoCommandToRun := by
  unfold Obligations.IdleEngineHasNoCommandToRun
  intro i s hidle
  rw [exec_eq, runCommand_idle hidle]

/-- NOP has no checks and no regions, so it always runs. -/
theorem nop_runs {s : State} {job : Job} (hflight : InFlight s job) : Runs s (shapeOf .nop) job :=
  ⟨hflight, rfl, rfl⟩

/-- A word with OP 0 is NOP's, or has a reserved bit set (30_encoding.md R71, R72). -/
theorem decodeWord_of_op_zero {w : Word} (hop : w.toNat % 16 = 0) :
    decodeWord w = if w = 0#32 then .command .nop else .illegal .reservedBits := by
  split
  case isTrue hzero => rw [hzero]; exact decodeWord_encode .nop
  case isFalse hset =>
    have hreserved : w.extractLsb' 4 28 ≠ 0#28 := by
      rw [Ne, reservedBits_eq_zero_iff]
      intro hlow
      exact hset (BitVec.eq_of_toNat_eq (by rw [BitVec.toNat_zero]; omega))
    rw [decodeWord, if_neg (by simpa only [beq_iff_eq] using hreserved)]

/-- Settles O23: NOP completes with its body, whose results are 0 and whose memory is the old one. -/
theorem nopOnlyCompletes : Obligations.NopOnlyCompletes := by
  unfold Obligations.NopOnlyCompletes
  refine ⟨fun s job hflight => ?_, fun w => decodeWord_of_op_zero⟩
  rw [exec_eq, runCommand_runs (nop_runs hflight)]
  refine ⟨_, rfl, complete_completed hflight.quiet _ s (bodyOf .nop s job.snap), complete_configKept _ _ _ _, fun a => ?_⟩
  rw [State.byte, complete_memory, settled_undisturbed hflight.quiet]
  rfl

end Sys2Proof.Machine
end

section
/-! An illegal command word (30_encoding.md R72, 60_exceptions.md R191). -/

namespace Sys2Proof.Machine

/-- R72 in numbers: a word with OP 15 or a reserved bit set is illegal. -/
theorem decodeWord_illegal {w : Word} (hword : w.toNat % 16 = 15 ∨ w.toNat / 16 ≠ 0) :
    ∃ why, decodeWord w = .illegal why := by
  cases hdecode : decodeWord w with
  | illegal why => exact ⟨why, rfl⟩
  | command i =>
    have hlegal := (decodeAgreesWithEncode.1 w).1 ⟨i, hdecode⟩
    omega

/-- An illegal word has no checks and no regions, so its completion always runs. -/
theorem illegalCommand_completes {s : State} {job : Job} (hflight : InFlight s job) :
    illegalCommand s = .next (complete .control s job (Completion.bare .illegalCmd s.memory)) :=
  runCommand_runs ⟨hflight, rfl, rfl⟩

/-- Settles O4: the word decodes to no command, and an illegal word's completion is the bare ILLEGAL_CMD on the old
memory. -/
theorem illegalWordCompletesWithIllegalCmd : Obligations.IllegalWordCompletesWithIllegalCmd := by
  unfold Obligations.IllegalWordCompletesWithIllegalCmd
  intro s job hplatform hflight hnext hword
  obtain ⟨why, hdecode⟩ := decodeWord_illegal hword
  rw [step_of_engineTurn hplatform (engineTurn_of_busy hflight.busy hnext), engineStep_illegal hflight.busy hdecode,
    illegalCommand_completes hflight]
  refine ⟨_, rfl, complete_completed hflight.quiet .control s (Completion.bare .illegalCmd s.memory),
    complete_configKept _ _ _ _, fun a => ?_⟩
  rw [State.byte, complete_memory, settled_undisturbed hflight.quiet]
  rfl

end Sys2Proof.Machine
end

section
/-! How a step can stop: never by a fault (60_exceptions.md R205), and by which refusals (93_implementation_defined.md
I25). -/

namespace Sys2Proof.Machine

/-- The outcome is no fault, and a refusal only with a reason in `P`. -/
def RefusesOnly (P : Refusal → Prop) : Host.Outcome State Fault Refusal → Prop
  | .next _ => True
  | .fault _ => False
  | .refused r => P r

section RefusesOnly
variable {P : Refusal → Prop} {o : Host.Outcome State Fault Refusal}

theorem RefusesOnly.ne_fault (h : RefusesOnly P o) (f : Fault) : o ≠ .fault f := by
  rintro rfl
  exact h

theorem RefusesOnly.of_refused {r : Refusal} (h : RefusesOnly P o) (hrefused : o = .refused r) : P r := by
  rwa [hrefused] at h

end RefusesOnly

/-! ### The engine's turn -/

/-- With a command in flight the shared operation stops only at a device in the command's regions (20_memory.md R57). -/
theorem runCommand_refusesOnly {sh : Shape} {s : State} {job : Job} (hbusy : s.engine = .busy job)
    (failed : Snapshot → ErrorCode → Completion) (body : Snapshot → Completion) :
    RefusesOnly (· = .deviceRegion) (runCommand sh s failed body) := by
  cases hchecked : precheck sh s.platform job.snap with
  | some e =>
    rw [runCommand_raises hbusy hchecked]
    trivial
  | none =>
    cases hdevice : (regionsOf sh job.snap).meetsDevice s.platform with
    | true =>
      rw [runCommand_device hbusy hchecked hdevice]
      rfl
    | false =>
      simp only [runCommand, hbusy, hchecked, hdevice]
      trivial

/-- The engine step, on a command or an illegal word, is one run of the shared operation. -/
theorem engineStep_refusesOnly {s : State} {job : Job} (hbusy : s.engine = .busy job) :
    RefusesOnly (· = .deviceRegion) (engineStep s) := by
  cases hdecode : decodeWord job.snap.cmd with
  | command i =>
    rw [engineStep_command hbusy hdecode, exec_eq]
    exact runCommand_refusesOnly hbusy _ _
  | illegal why =>
    rw [engineStep_illegal hbusy hdecode, illegalCommand]
    exact runCommand_refusesOnly hbusy _ _

/-! ### The outside world's turn -/

/-- The refusals of a transaction: of a window access (20_memory.md R67, log 13), of power gating (log 20), and, where the
platform has devices, of an agent's access (log 12). -/
inductive RefusesTransaction (p : Platform) : Refusal → Prop
  | outsideWindow : RefusesTransaction p .outsideWindow
  | windowAccessUndefined : RefusesTransaction p .windowAccessUndefined
  | powerGatedWhileBusy : RefusesTransaction p .powerGatedWhileBusy
  | deviceAccess (hdevices : p.devices ≠ []) : RefusesTransaction p .deviceAccess

/-- A window access that is refused lies outside the window or is not an aligned 32-bit one. -/
theorem windowAccess_refused {p : Platform} {addr size : Nat} {r : Refusal}
    (h : windowAccess p addr size = .refused r) : RefusesTransaction p r := by
  unfold windowAccess at h
  split at h
  · cases h
    exact .outsideWindow
  · split at h <;> cases h
    exact .windowAccessUndefined

/-- A platform with a device's byte has a device. -/
theorem devices_ne_nil_of_onDevice {p : Platform} {a : Nat} (h : onDevice p a = true) : p.devices ≠ [] := by
  intro hnone
  simp [onDevice, hnone] at h

theorem hostRead_refusesOnly (addr size : Nat) (s : State) :
    RefusesOnly (RefusesTransaction s.platform) (hostRead addr size s) := by
  unfold hostRead
  split
  case h_1 => trivial
  case h_2 r hrefused => exact windowAccess_refused hrefused

theorem hostWrite_refusesOnly (addr size : Nat) (x : Word) (s : State) :
    RefusesOnly (RefusesTransaction s.platform) (hostWrite addr size x s) := by
  unfold hostWrite
  split
  case h_1 => trivial
  case h_2 r hrefused => exact windowAccess_refused hrefused

theorem hostPoll_refusesOnly (addr : Nat) (mask value : Word) (s : State) :
    RefusesOnly (RefusesTransaction s.platform) (hostPoll addr mask value s) := by
  unfold hostPoll
  split
  case h_1 => split <;> trivial
  case h_2 r hrefused => exact windowAccess_refused hrefused

theorem agentRead_refusesOnly (a : Word) (s : State) :
    RefusesOnly (RefusesTransaction s.platform) (agentRead a s) := by
  unfold agentRead
  split
  case isTrue hdevice => exact .deviceAccess (devices_ne_nil_of_onDevice hdevice)
  case isFalse => split <;> trivial

theorem agentWrite_refusesOnly (a : Word) (b : Byte) (s : State) :
    RefusesOnly (RefusesTransaction s.platform) (agentWrite a b s) := by
  unfold agentWrite
  split
  case isTrue hdevice => exact .deviceAccess (devices_ne_nil_of_onDevice hdevice)
  case isFalse => trivial

theorem powerCycle_refusesOnly (retained : Bool) (s : State) :
    RefusesOnly (RefusesTransaction s.platform) (powerCycle retained s) := by
  cases hengine : s.engine with
  | idle =>
    rw [powerCycle_idle hengine]
    trivial
  | busy job =>
    rw [powerCycle_busy hengine]
    exact .powerGatedWhileBusy

/-- A transaction stops only by one of its refusals; the reset input by none. -/
theorem hostStep_refusesOnly (op : HostOp) (s : State) :
    RefusesOnly (RefusesTransaction s.platform) (hostStep op s) := by
  cases op with
  | read addr size => exact hostRead_refusesOnly addr size s
  | write addr size x => exact hostWrite_refusesOnly addr size x s
  | poll addr mask value => exact hostPoll_refusesOnly addr mask value s
  | memRead a => exact agentRead_refusesOnly a s
  | memWrite a b => exact agentWrite_refusesOnly a b s
  | rst => trivial
  | powerGate retained => exact powerCycle_refusesOnly retained s

/-! ### The step -/

/-- On the engine's turn a step stops only at a device. -/
theorem step_refusesOnly_of_engineTurn {s : State} (hplatform : s.platform.wf = true) (hturn : s.engineTurn = true) :
    RefusesOnly (· = .deviceRegion) (step s) := by
  obtain ⟨job, hbusy⟩ := exists_job_of_engineTurn hturn
  rw [step_of_engineTurn hplatform hturn]
  exact engineStep_refusesOnly hbusy

/-- On the outside world's turn a step stops only as its oldest transaction does. -/
theorem step_refusesOnly_of_hostTurn {s : State} (hplatform : s.platform.wf = true) (hturn : s.engineTurn = false) :
    RefusesOnly (RefusesTransaction s.platform) (step s) := by
  cases hinputs : s.inputs with
  | nil =>
    rw [step_nothing hplatform hturn hinputs]
    trivial
  | cons op rest =>
    rw [step_of_turn ⟨hplatform, hturn, hinputs⟩]
    exact hostStep_refusesOnly op (s.turned rest)

/-- No step ends in a fault (60_exceptions.md R205). -/
theorem step_ne_fault (s : State) (f : Fault) : step s ≠ .fault f := by
  cases hplatform : s.platform.wf with
  | false =>
    rw [step_of_not_wf hplatform]
    nofun
  | true =>
    cases hturn : s.engineTurn with
    | true => exact (step_refusesOnly_of_engineTurn hplatform hturn).ne_fault f
    | false => exact (step_refusesOnly_of_hostTurn hplatform hturn).ne_fault f

/-- Without devices the engine's turn completes (`engineStepAlwaysCompletes`), so a refusal is a transaction's. -/
theorem hostTurn_of_refused {s : State} {r : Refusal} (hplatform : s.platform.wf = true)
    (hdevices : s.platform.devices = []) (hrefused : step s = .refused r) : s.engineTurn = false := by
  rw [Bool.eq_false_iff]
  intro hturn
  obtain ⟨t, hnext, -⟩ := engineStepAlwaysCompletes s hplatform hdevices hturn
  rw [hnext] at hrefused
  cases hrefused

/-- Settles O59: the engine's turn and the outside world's each stop only by their own refusals, and without devices those
that name a device cannot come. -/
theorem noStepFaults : Obligations.NoStepFaults := by
  unfold Obligations.NoStepFaults
  refine ⟨step_ne_fault, fun s r hplatform hdevices hrefused => ?_, fun s r hplatform hrefused hturn => ?_,
    fun s r hplatform hrefused hturn => ?_⟩
  · have hturn := hostTurn_of_refused hplatform hdevices hrefused
    cases (step_refusesOnly_of_hostTurn hplatform hturn).of_refused hrefused with
    | outsideWindow => exact .inl rfl
    | windowAccessUndefined => exact .inr (.inl rfl)
    | powerGatedWhileBusy => exact .inr (.inr rfl)
    | deviceAccess hsome => exact absurd hdevices hsome
  · exact (step_refusesOnly_of_engineTurn hplatform hturn).of_refused hrefused
  · cases (step_refusesOnly_of_hostTurn hplatform hturn).of_refused hrefused with
    | outsideWindow => exact .inl rfl
    | windowAccessUndefined => exact .inr (.inl rfl)
    | powerGatedWhileBusy => exact .inr (.inr (.inl rfl))
    | deviceAccess hsome => exact .inr (.inr (.inr rfl))

end Sys2Proof.Machine
end

section
/-! Another agent's access to a byte of memory (70_reset_and_hazards.md R224 to R226, 20_memory.md R51, R57). -/

namespace Sys2Proof.Machine

/-! ### Devices -/

/-- A byte belongs to a device exactly when a device's region holds its address (20_memory.md R57). -/
theorem onDevice_iff (p : Platform) (a : Nat) : onDevice p a = true ↔ ∃ d ∈ p.devices, d.holds a := by
  simp only [onDevice, List.any_eq_true, covers_iff]

/-- Without devices no byte belongs to one. -/
theorem onDevice_of_no_devices {p : Platform} (hp : p.devices = []) (a : Nat) : onDevice p a = false := by
  simp [onDevice, hp]

/-! ### One access -/

/-- An agent's write of a byte that is no device's takes effect, and is noted (R224, R226). -/
theorem agentWrite_ordinary {s : State} {a : Word} (hdevice : onDevice s.platform a.toNat = false) (b : Byte) :
    agentWrite a b s = .next { s with memory := writeByte s.memory a.toNat b, engine := s.engine.noteWrite a } := by
  simp [agentWrite, hdevice]

/-- An agent's write of a device's byte is refused (log 12). -/
theorem agentWrite_device {s : State} {a : Word} (hdevice : onDevice s.platform a.toNat = true) (b : Byte) :
    agentWrite a b s = .refused .deviceAccess := if_pos hdevice

/-- An agent's read of an output byte of the command in flight draws its value (R225). -/
theorem agentRead_output {s : State} {a : Word} (hdevice : onDevice s.platform a.toNat = false)
    (hout : s.engine.outputCovers a = true) :
    agentRead a s = .next { s with readData := 0#24 ++ Config.freeByte s.draws a.toNat, draws := s.draws + 1 } := by
  simp [agentRead, hdevice, hout]

/-- An agent's read of any other byte gets what is stored there (20_memory.md R51). -/
theorem agentRead_stored {s : State} {a : Word} (hdevice : onDevice s.platform a.toNat = false)
    (hout : s.engine.outputCovers a = false) :
    agentRead a s = .next { s with readData := 0#24 ++ s.byte a.toNat } := by
  simp [agentRead, hdevice, hout, State.byte]

/-! ### What the command in flight notes -/

/-- The note of a touched input (R224). -/
theorem noteWrite_inputTouched (job : Job) (a : Word) :
    (job.noteWrite a).inputTouched = true ↔
      job.inputTouched = true ∨ job.regions.inputCovers a.toNat = true := by
  simp only [Job.noteWrite, Bool.or_eq_true]

/-- The note of the touched output bytes (R226). -/
theorem mem_noteWrite_outputTouched (job : Job) (a x : Word) :
    x ∈ (job.noteWrite a).outputTouched ↔
      x ∈ job.outputTouched ∨ (x = a ∧ job.regions.outputCovers a.toNat = true) := by
  cases hout : job.regions.outputCovers a.toNat <;> simp [Job.noteWrite, hout, or_comm]

/-- The command in flight declares the regions of the command that its word decodes to. -/
theorem job_regions_of_command {job : Job} {i : Instr} (hdecode : decodeWord job.snap.cmd = .command i) :
    job.regions = regionsOf (shapeOf i) job.snap := by
  simp only [Job.regions, Job.shape, hdecode]

/-- An illegal word declares no region. -/
theorem job_regions_of_illegal {job : Job} {why : Reject} (hdecode : decodeWord job.snap.cmd = .illegal why) :
    job.regions = ⟨[], []⟩ := by
  simp only [Job.regions, Job.shape, hdecode, regionsOf, Regions.none]

/-- No output byte of the command in flight is at `a`, in particular where none is in flight. -/
theorem engine_outputCovers_eq_false_iff (g : Engine) (a : Word) :
    g.outputCovers a = false ↔ ∀ job, g = .busy job → job.regions.outputCovers a.toNat = false := by
  cases g <;> simp [Engine.outputCovers]

/-- A transaction's turn leaves the output bytes of the command in flight. -/
@[simp] theorem tick_outputCovers (g : Engine) (a : Word) : g.tick.outputCovers a = g.outputCovers a := by
  cases g <;> rfl

/-! ### The step -/

/-- The turn of an agent's write of a byte that is no device's. -/
theorem step_memWrite {s : State} {rest : List HostOp} {a : Word} {b : Byte} (hturn : Turn s (.memWrite a b) rest)
    (hdevices : s.platform.devices = []) :
    step s = .next { s.turned rest with
      memory := writeByte s.memory a.toNat b, engine := (s.turned rest).engine.noteWrite a } :=
  (step_of_turn hturn).trans (agentWrite_ordinary (s := s.turned rest) (onDevice_of_no_devices hdevices _) b)

/-- Settles O45: the step is the agent's write, which adds its byte to the notes of the command in flight. -/
theorem agentWriteWhileBusyIsNoted : Obligations.AgentWriteWhileBusyIsNoted := by
  unfold Obligations.AgentWriteWhileBusyIsNoted
  refine ⟨fun s rest a b job hturn hbusy hdevices => ?_, fun s rest a b hturn hidle hdevices => ?_,
    fun s rest a b hturn hdevice => ?_, fun job => ⟨fun i => job_regions_of_command, fun e => job_regions_of_illegal⟩⟩
  · refine ⟨_, Job.noteWrite { job with wait := job.wait - 1 } a, step_memWrite hturn hdevices, ?_, rfl,
      noteWrite_inputTouched _ a, mem_noteWrite_outputTouched _ a, fun x => readByte_writeByte s.memory _ x b, rfl⟩
    rw [turned_inFlight hbusy, noteWrite_busy]
  · refine ⟨_, step_memWrite hturn hdevices, fun x => readByte_writeByte s.memory _ x b, ?_⟩
    have hengine : (s.turned rest).engine.noteWrite a = (s.turned rest).engine := by
      rw [turned_idle hidle, noteWrite_idle]
    rw [hengine]
    rfl
  · exact (step_of_turn hturn).trans (agentWrite_device (s := s.turned rest) ((onDevice_iff _ _).2 hdevice) b)

/-- Settles O47: the step is the agent's read, which draws at an output byte of the command in flight alone. -/
theorem agentReadOfOutputWhileBusyIsFree : Obligations.AgentReadOfOutputWhileBusyIsFree := by
  unfold Obligations.AgentReadOfOutputWhileBusyIsFree
  refine ⟨fun s rest a job hturn hbusy hdevices hout => ?_, fun s rest a hturn hdevices hother => ?_⟩ <;>
    refine (step_of_turn hturn).trans ?_
  · exact agentRead_output (onDevice_of_no_devices hdevices _) (by rw [turned_inFlight hbusy]; exact hout)
  · refine agentRead_stored (onDevice_of_no_devices hdevices _) ?_
    rw [turned_engine, tick_outputCovers]
    exact (engine_outputCovers_eq_false_iff _ _).2 hother

end Sys2Proof.Machine
end

section
/-! What the hazard rules leave of a completion (70_reset_and_hazards.md R224, R226), and that a command runs on its
snapshot (R227). -/

namespace Sys2Proof.Machine

/-! ### A touched input -/

/-- A command whose input alone was touched ends as R224 allows. -/
theorem settled_inputTouched {job : Job} (hin : job.inputTouched = true) (hout : job.outputTouched = []) (sh : Shape)
    (s : State) (c : Completion) :
    settled sh s job c = disturbed sh (regionsOf sh job.snap) s.memory s.draws := by
  simp [settled, hin, hout, freeTouched]

/-- A disturbed command ends without error or with one that it can raise (R224). -/
theorem disturbed_error (sh : Shape) (r : Regions) (m : Memory) (d : Nat) :
    (disturbed sh r m d).error = none ∨ ∃ e ∈ raisable sh, (disturbed sh r m d).error = some e := by
  have hdrawn : (disturbed sh r m d).error ∈ none :: (raisable sh).map some := by
    rw [disturbed, List.getD_eq_getElem _ _ (Nat.mod_lt _ (List.length_pos_of_ne_nil (List.cons_ne_nil _ _)))]
    exact List.getElem_mem _
  simpa [eq_comm] using hdrawn

/-- The codes a command can raise, in numbers (60_exceptions.md R190, R200). -/
theorem raisable_numbers (i : Instr) : ∀ e ∈ raisable (shapeOf i),
    i ≠ .nop ∧ e.number ∈ [2#4, 3#4, 4#4, 8#4] ∨ (i = .pdecomp32 ∨ i = .pdecomp64) ∧ e.number ∈ [5#4, 6#4, 7#4] := by
  cases i <;> decide

/-- ERR and ERRCODE of a completion agree (10_state.md R28). -/
theorem completed_err_iff (st : Status) (e : Option ErrorCode) :
    (st.completed e).err = true ↔ (st.completed e).errcode ≠ 0#4 := by
  rw [completed_err, completed_errcode, Ne, errcodeOf_eq_zero]
  exact Option.isSome_iff_ne_none

/-- Settles O46: the command completes with a drawn error, none or one it can raise, and frees its output regions alone. -/
theorem disturbedCommandStillCompletes : Obligations.DisturbedCommandStillCompletes := by
  unfold Obligations.DisturbedCommandStillCompletes
  intro i s job t hbusy hin hout hexec
  have hframe := (commandWritesOnlyItsOutputs i s job t hbusy hexec).1
  obtain ⟨c, rfl, -⟩ := exec_completion_keeps hbusy hexec
  refine ⟨rfl, rfl, complete_configKept _ s job c, completed_err_iff _ _, ?_, fun x hx => hframe x hx (by simp [hout])⟩
  rw [complete_status, completed_errcode, settled_inputTouched hin hout]
  rcases disturbed_error (shapeOf i) (regionsOf (shapeOf i) job.snap) s.memory s.draws with hnone | ⟨e, he, hsome⟩
  · exact .inl (by rw [hnone]; rfl)
  · rw [hsome]
    exact .inr (raisable_numbers i e he)

/-! ### A command's answer depends on its snapshot -/

/-- A failed check reports the same from states with the same memory. -/
theorem failedOf_congr (i : Instr) {s u : State} (hmemory : u.memory = s.memory) : failedOf i u = failedOf i s := by
  simp only [failedOf, hmemory]

/-- A body ends the same from states with the same platform, memory and draw counter. -/
theorem bodyOf_congr (i : Instr) {s u : State} (hplatform : u.platform = s.platform) (hmemory : u.memory = s.memory)
    (hdraws : u.draws = s.draws) (j : Snapshot) : bodyOf i u j = bodyOf i s j := by
  cases i
  case pcomp32 | pcomp64 => simp only [bodyOf, compressBody, hplatform, hmemory, hdraws]
  case pdecomp32 | pdecomp64 => simp only [bodyOf, decompressBody, hplatform, hmemory, hdraws]
  all_goals simp only [bodyOf, hmemory]

/-- A command whose precheck passes and whose regions meet no device completes with its body, touched or not. -/
theorem runCommand_passes {sh : Shape} {s : State} {job : Job} {failed : Snapshot → ErrorCode → Completion}
    {body : Snapshot → Completion} (hbusy : s.engine = .busy job) (hchecked : precheck sh s.platform job.snap = none)
    (hdevice : (regionsOf sh job.snap).meetsDevice s.platform = false) :
    runCommand sh s failed body = .next (complete sh s job (body job.snap)) := by
  simp [runCommand, hbusy, hchecked, hdevice]

/-- A command that answers does so, with the same completion before the hazard rules, from every state with the same
snapshot in flight, platform, memory and draw counter (70_reset_and_hazards.md R227). -/
theorem exec_of_same_snapshot {i : Instr} {s t : State} {job : Job} (hbusy : s.engine = .busy job)
    (hexec : exec i s = .next t) :
    ∃ c, t = complete (shapeOf i) s job c ∧ ∀ (u : State) (job' : Job), u.engine = .busy job' → job'.snap = job.snap →
      u.platform = s.platform → u.memory = s.memory → u.draws = s.draws →
      exec i u = .next (complete (shapeOf i) u job' c) := by
  obtain ⟨job₀, hbusy₀, hcases⟩ := exec_cases hexec
  obtain rfl : job = job₀ := by simpa [hbusy] using hbusy₀
  rcases hcases with ⟨e, hraises, rfl⟩ | ⟨hchecked, hdevice, rfl⟩ <;>
    refine ⟨_, rfl, fun u job' hbusy' hsnap hplatform hmemory hdraws => ?_⟩
  · rw [← hplatform, ← hsnap] at hraises
    rw [exec_eq, runCommand_raises hbusy' hraises, failedOf_congr i hmemory, hsnap]
  · rw [← hplatform, ← hsnap] at hchecked hdevice
    rw [exec_eq, runCommand_passes hbusy' hchecked hdevice, bodyOf_congr i hplatform hmemory hdraws, hsnap]

/-- Settles O49: the completion is of the snapshot, and keeps whatever the configuration registers hold. -/
theorem commandRunsOnItsSnapshot : Obligations.CommandRunsOnItsSnapshot := by
  unfold Obligations.CommandRunsOnItsSnapshot
  intro i s t hc sa sl da dc ps hexec
  obtain ⟨job, hbusy, -⟩ := exec_cases hexec
  obtain ⟨c, rfl, hsame⟩ := exec_of_same_snapshot hbusy hexec
  exact hsame _ job hbusy rfl rfl rfl rfl

/-! ### Touched output bytes -/

/-- Every touched byte holds the draw's value (R226). -/
theorem readByte_freeTouched (m : Memory) (d : Nat) {as : List Word} {a : Word} (ha : a ∈ as) :
    readByte (freeTouched m d as) a.toNat = Config.freeByte d a.toNat := by
  induction as generalizing m with
  | nil => cases ha
  | cons b as ih =>
    rw [freeTouched]
    by_cases hlater : a ∈ as
    · exact ih _ hlater
    · obtain rfl : a = b := (List.mem_cons.1 ha).resolve_right hlater
      have hother : ∀ b ∈ as, b.toNat ≠ a.toNat := fun b hb heq => hlater (BitVec.eq_of_toNat_eq heq ▸ hb)
      rw [readByte_freeTouched_other _ _ _ hother, readByte_writeByte_same]

/-- Without a touched input the hazard rules free the touched output bytes and leave all else of a completion. -/
theorem settled_outputTouched {job : Job} (hin : job.inputTouched = false) (sh : Shape) (s : State) (c : Completion) :
    settled sh s job c = { c with memory := freeTouched c.memory s.draws job.outputTouched } := by
  simp [settled, hin]

/-- Settles O48: with and without the notes the command has one completion, whose touched bytes alone R226 frees. -/
theorem agentWrittenOutputAloneIsUnspecified : Obligations.AgentWrittenOutputAloneIsUnspecified := by
  unfold Obligations.AgentWrittenOutputAloneIsUnspecified
  intro i s job t hbusy hin hexec
  obtain ⟨c, rfl, hsame⟩ := exec_of_same_snapshot rfl hexec
  refine ⟨_, hsame s job hbusy rfl rfl rfl rfl, ?_⟩
  have hquiet : Job.undisturbed { job with outputTouched := [] } := ⟨hin, rfl⟩
  simp only [State.byte, complete_status, complete_resLen, complete_resCount, complete_resCfg, complete_memory,
    settled_undisturbed hquiet, settled_outputTouched hin, true_and]
  exact ⟨fun x hx => readByte_freeTouched_other _ _ _ hx, fun a ha => readByte_freeTouched _ _ ha⟩

end Sys2Proof.Machine
end

section
/-! A command in flight ends (70_reset_and_hazards.md R231, log 3): each step that leaves it in flight uses up one
transaction of its wait. -/

namespace Sys2Proof.Machine

/-- A transaction ends the command in flight, by a reset, or leaves a command in flight with the same wait. -/
theorem hostStep_wait {op : HostOp} {s t : State} {job : Job} (hbusy : s.engine = .busy job)
    (h : hostStep op s = .next t) :
    t.engine = .idle ∨ ∃ job', t.engine = .busy job' ∧ job'.wait = job.wait := by
  rcases hostStep_cases h with
    ⟨rd, dr, inp, rfl⟩ | ⟨m, a, b, -, -, rfl⟩ | ⟨rfl, -⟩ | ⟨addr, size, x, o, -, -, rfl⟩
  · exact .inr ⟨job, hbusy, rfl⟩
  · exact .inr ⟨job.noteWrite a, congrArg (Engine.noteWrite a) hbusy, job_noteWrite_wait job a⟩
  · exact .inl (resetBlock_registersReset s).idle
  · rcases writeSlot_cases x s o with ⟨-, -, hw⟩ | ⟨ie, hc, sa, sl, da, dc, ps, hw⟩ | ⟨-, hw⟩ | ⟨-, hw⟩ <;> rw [hw]
    · exact .inl (resetBlock_registersReset _).idle
    · exact .inr ⟨job, hbusy, rfl⟩
    · exact .inr ⟨job, hbusy, rfl⟩
    · rw [writeCmd_busy hbusy]
      exact .inr ⟨job, hbusy, rfl⟩

/-- A step ends the command in flight or brings it one transaction nearer to its end. -/
theorem step_wait {s t : State} {job : Job} (hbusy : s.engine = .busy job) (hstep : step s = .next t) :
    t.engine = .idle ∨ ∃ job', t.engine = .busy job' ∧ job'.wait + 1 = job.wait := by
  have hturnOf := engineTurn_of_busy hbusy
  obtain ⟨-, ⟨job', hbusy', -, hrun⟩ | ⟨hturn, hnone, -⟩ | ⟨op, rest, hturn, hop⟩⟩ := step_cases hstep
  · obtain ⟨sh, c, rfl⟩ := engine_completes hbusy' hrun
    exact .inl rfl
  · rw [hturnOf (.inr hnone)] at hturn
    cases hturn
  · have hpositive : job.wait ≠ 0 := fun hzero => by
      have hnot := hturn.notEngine
      rw [hturnOf (.inl hzero)] at hnot
      cases hnot
    refine (hostStep_wait (turned_inFlight hbusy rest) hop).imp_right fun ⟨job', hbusy', hwait⟩ => ⟨job', hbusy', ?_⟩
    dsimp only at hwait
    omega

/-- A run that answers answers at its first step. -/
theorem runSteps_succ {k : Nat} {s u : State} (h : runSteps (k + 1) s = .next u) :
    ∃ t, step s = .next t ∧ runSteps k t = .next u := by
  rw [runSteps] at h
  split at h
  · exact ⟨_, ‹_›, h⟩
  · cases h
  · cases h

/-- Settles O57, by induction on the wait: a step ends the command, stops, or leaves it in flight with a shorter wait. -/
theorem busyEndsWithinItsWait : Obligations.BusyEndsWithinItsWait := by
  unfold Obligations.BusyEndsWithinItsWait
  intro s job hbusy
  induction hwait : job.wait using Nat.strong_induction_on generalizing s job with
  | h w ih =>
    by_cases hends : ∀ t, step s = .next t → t.engine = .idle
    · refine ⟨1, Nat.le_add_left 1 w, fun u hrun => ?_⟩
      obtain ⟨t, hstep, hrest⟩ := runSteps_succ hrun
      cases hrest
      exact hends u hstep
    · push Not at hends
      obtain ⟨t, hstep, hflying⟩ := hends
      obtain ⟨job', hbusy', hshorter⟩ := (step_wait hbusy hstep).resolve_left hflying
      obtain ⟨k, hk, hidle⟩ := ih job'.wait (by omega) t job' hbusy' rfl
      refine ⟨k + 1, by omega, fun u hrun => ?_⟩
      obtain ⟨t', hstep', hrest⟩ := runSteps_succ hrun
      obtain rfl : t = t' := by simpa [hstep] using hstep'
      exact hidle u hrest

end Sys2Proof.Machine
end
